-- ==== Sys2Proof/Word.lean ====
section
/-! DEFINITION. The fixed-width values of the block (30_encoding.md R80). Bit 0 is the least significant bit and no
value is signed (00_scope.md R11). -/

namespace Sys2Proof

/-- A Symbol, or one byte of IN or OUT (00_scope.md R9: ALPHABET = 256). -/
abbrev Byte := BitVec 8

/-- A host register, a command word or one frequency counter (00_scope.md R9: REG_W, FREQ_W). -/
abbrev Word := BitVec 32

/-- The bit count (00_scope.md R9: BITCOUNT_W). -/
abbrev BitCount := BitVec 64

/-- A tree node's frequency (00_scope.md R9: NODE_FREQ_W). -/
abbrev NodeFreq := BitVec 40

/-- An index into the node arena (30_encoding.md R80: node index). -/
abbrev NodeIndex := BitVec 9

end Sys2Proof
end

