-- ==== Sys2Proof/Syntax.lean ====
section
/-! DEFINITION. The eight commands (30_encoding.md R82). A command carries no operand field: every operand comes from
the state (30_encoding.md R84). -/

namespace Sys2Proof

/-- A legal command, in the order of the opcode map (30_encoding.md R82). -/
inductive Instr where
  /-- opcode 0x1 (40_symbol_stats.md R112) -/
  | collect
  /-- opcode 0x2 (41_tree_builder.md R124) -/
  | build
  /-- opcode 0x3 (42_code_table.md R142) -/
  | derive
  /-- opcode 0x4 (43_bit_packer.md R153) -/
  | pack
  /-- opcode 0x5 (44_bit_reader.md R163) -/
  | unpack
  /-- opcode 0x6 (45_orchestrator.md R182) -/
  | encode
  /-- opcode 0x7 (45_orchestrator.md R184) -/
  | decode
  /-- opcode 0x8 (45_orchestrator.md R186) -/
  | clear
  deriving DecidableEq, Repr

end Sys2Proof
end

