-- ==== Sys2Proof/WellFormed.lean ====
section
/-! DEFINITION. What makes a command word legal (30_encoding.md R81 to R83). An `Instr` itself has no operand that could
be ill formed (30_encoding.md R84), so the checks are on the word. -/

namespace Sys2Proof

/-- The OPCODE field, bits 3:0 (30_encoding.md R81). -/
def opcodeField (w : Word) : BitVec 4 := w.extractLsb' 0 4

/-- The RSVD field, bits 31:4 (30_encoding.md R81). -/
def rsvdField (w : Word) : BitVec 28 := w.extractLsb' 4 28

/-- RSVD must be 0 (30_encoding.md R81). -/
def rsvdClear (w : Word) : Bool := rsvdField w == 0

/-- The OPCODE is one of 0x1 to 0x8 (30_encoding.md R82, R83). -/
def opcodeDefined (w : Word) : Bool := 1 ≤ (opcodeField w).toNat && (opcodeField w).toNat ≤ 8

/-- The word is one of the eight commands (30_encoding.md R83). -/
def legalWord (w : Word) : Bool := rsvdClear w && opcodeDefined w

/-- Every command is well formed: it has no field (30_encoding.md R84). -/
def Instr.wellFormed (_ : Instr) : Bool := true

end Sys2Proof
end

