-- ==== Sys2Proof/Decode.lean ====
section
/-! DEFINITION. The decoder of command words and the encoder (30_encoding.md R81 to R84), both from the spec's opcode
map. A word travels little-endian: byte 0 is bits 7:0 (20_memory.md R63, R69). -/

namespace Sys2Proof

/-- Why bytes are no command. -/
inductive DecodeError where
  /-- a bit of w[31:4] is 1 (30_encoding.md R83) -/
  | reservedBits
  /-- the OPCODE is 0x0 or 0x9 to 0xF (30_encoding.md R83) -/
  | reservedOpcode
  /-- fewer than four bytes: every command is exactly 32 bits (30_encoding.md R81) -/
  | truncated
  deriving DecidableEq, Repr

/-- The opcode map (30_encoding.md R82). -/
def decodeOpcode (op : BitVec 4) : Option Instr :=
  match op.toNat with
  | 1 => some .collect
  | 2 => some .build
  | 3 => some .derive
  | 4 => some .pack
  | 5 => some .unpack
  | 6 => some .encode
  | 7 => some .decode
  | 8 => some .clear
  | _ => none

/-- A command word selects row OPCODE only if w[31:4] = 0 (30_encoding.md R82, R83). -/
def decode (w : Word) : Except DecodeError Instr :=
  if rsvdField w = 0 then
    match decodeOpcode (opcodeField w) with
    | some i => .ok i
    | none => .error .reservedOpcode
  else .error .reservedBits

/-- Four bytes as a word, byte 0 in bits 7:0 (20_memory.md R63). -/
def wordOfBytes (b0 b1 b2 b3 : Byte) : Word :=
  BitVec.ofNat 32 (b0.toNat + 2 ^ 8 * b1.toNat + 2 ^ 16 * b2.toNat + 2 ^ 24 * b3.toNat)

/-- Decode the first command of a byte sequence, and give the rest back. -/
def decodeBytes (bs : List Byte) : Except DecodeError (Instr × List Byte) :=
  match bs with
  | b0 :: b1 :: b2 :: b3 :: rest =>
    match decode (wordOfBytes b0 b1 b2 b3) with
    | .ok i => .ok (i, rest)
    | .error e => .error e
  | _ => .error .truncated

/-- The OPCODE of a command (30_encoding.md R82). -/
def opcodeOf (i : Instr) : BitVec 4 :=
  match i with
  | .collect => 0x1#4
  | .build => 0x2#4
  | .derive => 0x3#4
  | .pack => 0x4#4
  | .unpack => 0x5#4
  | .encode => 0x6#4
  | .decode => 0x7#4
  | .clear => 0x8#4

/-- The command word: RSVD zero above the OPCODE (30_encoding.md R81). -/
def encode (i : Instr) : Word := (0#28 ++ opcodeOf i : BitVec 32)

/-- Byte `k` of a number, least significant first (20_memory.md R69). -/
def byteOf (v k : Nat) : Byte := BitVec.ofNat 8 (v / 2 ^ (8 * k))

/-- The low `n` bytes of a number, least significant first (20_memory.md R68, R69). -/
def bytesLE (n v : Nat) : List Byte := (List.range n).map (byteOf v)

/-- The command's word as the four bytes of a bus transfer (20_memory.md R63). -/
def encodeBytes (i : Instr) : List Byte := bytesLE 4 (encode i).toNat

/-- One row of spec/opcode_table.json: a word w is row `instr` iff w AND mask = value (30_encoding.md R82). -/
structure OpcodeRow where
  instr : Instr
  value : Word
  mask  : Word
  deriving DecidableEq, Repr

/-- The opcode map as match and mask pairs (30_encoding.md R82: "the full match for opcode k is w = k, with mask
0xFFFFFFFF"). -/
def opcodeTable : List OpcodeRow :=
  [ ⟨.collect, 0x00000001#32, 0xFFFFFFFF#32⟩,
    ⟨.build,   0x00000002#32, 0xFFFFFFFF#32⟩,
    ⟨.derive,  0x00000003#32, 0xFFFFFFFF#32⟩,
    ⟨.pack,    0x00000004#32, 0xFFFFFFFF#32⟩,
    ⟨.unpack,  0x00000005#32, 0xFFFFFFFF#32⟩,
    ⟨.encode,  0x00000006#32, 0xFFFFFFFF#32⟩,
    ⟨.decode,  0x00000007#32, 0xFFFFFFFF#32⟩,
    ⟨.clear,   0x00000008#32, 0xFFFFFFFF#32⟩ ]

/-- The command word among `nbits` bits `w` of an opcode-table row, every bit above them 0. -/
def tableWord (nbits w : Nat) : Word := BitVec.ofNat 32 (w % 2 ^ nbits)

/-- What the decoder reads from a table row's bits, laid out as the four bytes of the CMD write. -/
def decodeTableWord (nbits w : Nat) : Option Instr :=
  match decodeBytes (bytesLE 4 (tableWord nbits w).toNat) with
  | .ok (i, _) => some i
  | .error _ => none

end Sys2Proof
end

