-- ==== Sys2Proof/Config.lean ====
section
/-! DEFINITION. What one instance fixes and what the spec leaves to a draw. The constants without a body are FREE: no
proof can learn their values, so a claim that mentions them holds for every value. -/

namespace Sys2Proof

/-- IN_CAP less one, OPEN (00_scope.md R9: 1 <= IN_CAP <= 2^32 - 1; log 4). -/
opaque Config.inCapLessOne : Fin (4294967294 + 1)

/-- IN_CAP of the instance that `State.reset` describes: any value from 1 to 2^32 - 1 (00_scope.md R9, R10; log 4). -/
def Config.inCap : Word := BitVec.ofNat 32 (Config.inCapLessOne.val + 1)

/-- OUT_CAP of the instance that `State.reset` describes: any value from 0 to 2^32 - 1 (00_scope.md R9, R10; log 4). -/
opaque Config.outCap : Word

/-- The byte that draw `n` gives to index `a`: a free value (10_state.md R44, 60_exceptions.md R207,
70_reset_and_hazards.md R230 and R236; log 3 and log 7). -/
opaque Config.freeByte (n a : Nat) : Byte

/-- The word that draw `n` gives: a free value (70_reset_and_hazards.md R236; log 7). -/
opaque Config.freeWord (n : Nat) : Word

/-- Where a platform puts the three spaces in the host's address map (20_memory.md R73: REG_BASE, IN_BASE and
OUT_BASE are OPEN). The bus functions take it as an argument, so a claim quantifies over it (log 15). -/
structure Platform where
  regBase : Nat
  inBase  : Nat
  outBase : Nat
  deriving DecidableEq, Repr

end Sys2Proof
end

