-- ==== Sys2Proof/Machine/State.lean ====
section
/-! DEFINITION. The state of one instance of the block (10_state.md R20), the events that drive it, and its reset
value (10_state.md R44). Plain data only. -/

namespace Sys2Proof.Machine

/-- The command sequencer `seq` (10_state.md R21). -/
inductive Sequencer where
  | idle
  | pending (w : Word)
  deriving DecidableEq, Repr

/-- The values of ERR_CODE.CODE that are ever reported (60_exceptions.md R200; log 12). -/
inductive ErrorCode where
  | none
  | emptyAlphabet
  | malformedStream
  | ioFailure
  | capacityExceeded
  | illegalCommand
  | stateInvalid
  | uncodedSymbol
  deriving DecidableEq, Repr

/-- The sub-causes of MalformedStream (60_exceptions.md R203); no register records them. -/
inductive MalformedCause where
  | shortSymbolCount
  | symbolCountOver256
  | shortHeader
  | duplicateSymbol
  | zeroFrequency
  | bitsWithoutSymbols
  | payloadShort
  | trailingBytes
  | absentChild
  | endsMidPath
  | symbolCountMismatch
  deriving DecidableEq, Repr

/-- The two causes of IoFailure (60_exceptions.md R209); no register records them. -/
inductive IoCause where
  | sourceLength
  | sinkFull
  deriving DecidableEq, Repr

/-- `raise E(info)` (00_scope.md R13): the error that ends a command, with its cause for the reader. -/
inductive Raise where
  | emptyAlphabet
  | malformedStream (c : MalformedCause)
  | ioFailure (c : IoCause)
  | capacityExceeded
  | illegalCommand
  | stateInvalid
  | uncodedSymbol
  deriving DecidableEq, Repr

/-- A node of the arena (10_state.md R34; log 13). A Leaf owns a symbol and a frequency, an Internal node a frequency
and two children. -/
inductive Node where
  | leaf (sym : Byte) (freq : NodeFreq)
  | internal (freq : NodeFreq) (left right : NodeIndex)
  deriving DecidableEq, Repr

/-- A tree: its root index and the arena `node[0 .. count-1]` (10_state.md R34); `count` is the arena's length. -/
structure Tree where
  root  : NodeIndex
  nodes : List Node
  deriving DecidableEq, Repr

/-- FREQ, one 32-bit counter per symbol (10_state.md R32). -/
abbrev FreqTable := Vector Word 256

/-- The table with no symbol present (10_state.md R32). -/
def emptyTable : FreqTable := Vector.replicate 256 0#32

/-- C of 10_state.md R38: a bit string per symbol, element 0 first; the empty string means "no code". -/
abbrev CodeTable := Vector (List Bool) 256

/-- A byte space. `cells` lists the bytes written since draw `seed`, addresses strictly rising; every other byte is
what draw `seed` gave it (10_state.md R44, 60_exceptions.md R207; log 3). -/
structure Memory where
  seed  : Nat
  cells : List Host.Cell
  deriving DecidableEq, Repr

/-- A host access (20_memory.md R63 to R66). `width` is the width in bits of a REG access, `offset` its byte offset in
REG; IN and OUT accesses are single bytes at an index. -/
inductive Access where
  | readReg (width offset : Nat)
  | writeReg (width offset : Nat) (value : Word)
  | readIn (index : Nat)
  | writeIn (index : Nat) (value : Byte)
  | readOut (index : Nat)
  | writeOut (index : Nat) (value : Byte)
  deriving DecidableEq, Repr

/-- What may happen next (00_scope.md R8): a host access, the engine's turn, or the external reset. -/
inductive Event where
  | host (a : Access)
  | engineTurn
  | reset
  deriving DecidableEq, Repr

/-- The state of one instance (10_state.md R20), its two constants, and the model's own four fields. -/
structure State where
  /-- the command sequencer (10_state.md R21) -/
  seq      : Sequencer
  /-- CTRL.IRQ_EN (10_state.md R25) -/
  irqEn    : Bool
  /-- STATUS.DONE (10_state.md R26) -/
  done     : Bool
  /-- STATUS.ERR (10_state.md R26) -/
  err      : Bool
  /-- STATUS.IGNORED (10_state.md R26) -/
  ignored  : Bool
  /-- ERR_CODE.CODE (10_state.md R28) -/
  errCode  : ErrorCode
  /-- IN_LEN (10_state.md R29) -/
  inLen    : Word
  /-- OUT_LEN (10_state.md R30) -/
  outLen   : Word
  /-- BIT_COUNT (10_state.md R31) -/
  bitCount : BitCount
  /-- FREQ (10_state.md R32) -/
  freq     : FreqTable
  /-- TREE (10_state.md R34) -/
  tree     : Option Tree
  /-- CODE (10_state.md R38) -/
  code     : Option CodeTable
  /-- IN (20_memory.md R61) -/
  inp      : Memory
  /-- OUT (20_memory.md R62) -/
  out      : Memory
  /-- the IRQ output (10_state.md R42) -/
  irq      : Bool
  /-- the constant IN_CAP (10_state.md R27; log 4) -/
  inCap    : Word
  /-- the constant OUT_CAP (10_state.md R27; log 4) -/
  outCap   : Word
  /-- the model's own: how many free values have been drawn (log 5) -/
  draws    : Nat
  /-- the model's own: what host reads returned, newest first (log 6) -/
  reads    : List Word
  /-- the model's own: the events to come, oldest first (log 1) -/
  agenda   : List Event
  deriving DecidableEq, Repr

/-- No access and no command of the spec stops the block: errors end in a next state (60_exceptions.md R205), and a
bad host access is ignored (20_memory.md R63 to R66). So there is no fault. -/
inductive Fault where
  deriving DecidableEq, Repr

/-- A refusal is safe: the model stops where the hardware goes on. -/
inductive Refusal where
  /-- raised by exec's arm of an instruction that has no meaning yet; safe -/
  | notModelled (mnemonic : String)
  deriving DecidableEq, Repr

/-- The reset values of 10_state.md R44 for an instance with the given constants, the bytes of IN and OUT taken from
the draws `inSeed` and `outSeed`. -/
def State.resetWith (inCap outCap : Word) (inSeed outSeed draws : Nat) : State where
  seq      := .idle
  irqEn    := false
  done     := false
  err      := false
  ignored  := false
  errCode  := .none
  inLen    := 0#32
  outLen   := 0#32
  bitCount := 0#64
  freq     := emptyTable
  tree     := none
  code     := none
  inp      := ⟨inSeed, []⟩
  out      := ⟨outSeed, []⟩
  irq      := false
  inCap    := inCap
  outCap   := outCap
  draws    := draws
  reads    := []
  agenda   := []

/-- The block right after reset (10_state.md R44), its capacities any the spec allows. -/
def State.reset : State := State.resetWith Config.inCap Config.outCap 0 1 2

end Sys2Proof.Machine
end

