-- ==== Sys2Proof/Machine/Flags.lean ====
section
/-! DEFINITION. The STATUS flags and the IRQ output (10_state.md R26, R40, R42; 20_memory.md R64): the block's only
flags (10_state.md R45). -/

namespace Sys2Proof.Machine

/-- STATUS.BUSY: `seq != IDLE` (10_state.md R21). -/
def State.busy (s : State) : Bool :=
  match s.seq with
  | .idle => false
  | .pending _ => true

/-- STATUS.TREE_VALID: `TREE != none` (10_state.md R40). -/
def State.treeValid (s : State) : Bool := s.tree.isSome

/-- STATUS.CODE_VALID: `CODE != none` (10_state.md R40). -/
def State.codeValid (s : State) : Bool := s.code.isSome

/-- What a read of STATUS returns (10_state.md R26). -/
def State.statusWord (s : State) : Word :=
  (0#26 ++ BitVec.ofBool s.ignored ++ BitVec.ofBool s.codeValid ++ BitVec.ofBool s.treeValid
    ++ BitVec.ofBool s.err ++ BitVec.ofBool s.done ++ BitVec.ofBool s.busy : BitVec 32)

/-- Recompute the output: IRQ = STATUS.DONE AND CTRL.IRQ_EN (10_state.md R42). -/
def State.syncIrq (s : State) : State := { s with irq := s.done && s.irqEn }

/-- An access the block ignores sets STATUS.IGNORED (10_state.md R26, 20_memory.md R63 to R66). -/
def State.ignore (s : State) : State := { s with ignored := true }

/-- A write to CTRL: bit 0 is IRQ_EN, the other bits are RAZ/WI (10_state.md R25). -/
def State.writeCtrl (s : State) (v : Word) : State := State.syncIrq { s with irqEn := v.getLsbD 0 }

/-- A write to STATUS: writing 1 to bit 1, 2 or 5 clears DONE, ERR or IGNORED; the other bits of the value do nothing
(20_memory.md R64). -/
def State.writeStatus (s : State) (v : Word) : State :=
  State.syncIrq { s with done := s.done && !v.getLsbD 1, err := s.err && !v.getLsbD 2, ignored := s.ignored && !v.getLsbD 5 }

end Sys2Proof.Machine
end

