-- ==== Sys2Proof/Machine/Ops.lean ====
section
/-! DEFINITION. The named operations over the byte spaces and the registers: reading and writing a byte, the output
cursor, accepting a command, ending it with success or with an error. -/

namespace Sys2Proof.Machine

/-- The byte listed at index `a`, if one is. -/
def findCell (a : Nat) (cells : List Host.Cell) : Option Byte :=
  match cells with
  | [] => none
  | c :: cs => if c.1 = a then some c.2 else findCell a cs

/-- List byte `b` at index `a`, keeping the indices strictly rising. -/
def insertCell (a : Nat) (b : Byte) (cells : List Host.Cell) : List Host.Cell :=
  match cells with
  | [] => [(a, b)]
  | c :: cs => if a < c.1 then (a, b) :: c :: cs else if a = c.1 then (a, b) :: cs else c :: insertCell a b cs

/-- The canonical form: indices strictly rising. An unlisted byte reads as a free value, so no listed byte can be shown
equal to what its index would read as unlisted (log 3). -/
abbrev Memory.wf (m : Memory) : Prop := (m.cells.map Prod.fst).Pairwise (· < ·)

/-- Every listed byte lies inside a space of `cap` bytes (20_memory.md R60). -/
abbrev Memory.within (m : Memory) (cap : Nat) : Prop := ∀ c ∈ m.cells, c.1 < cap

/-- The byte at index `a`: the last one written, else what the space's draw gave it (10_state.md R44; log 3). -/
def Memory.read (m : Memory) (a : Nat) : Byte :=
  match findCell a m.cells with
  | some b => b
  | none => Config.freeByte m.seed a

/-- Write byte `b` at index `a`. -/
def Memory.write (m : Memory) (a : Nat) (b : Byte) : Memory := { m with cells := insertCell a b m.cells }

/-- Every byte takes the value that draw `n` gives it (60_exceptions.md R207, 70_reset_and_hazards.md R230). -/
def Memory.redraw (n : Nat) : Memory := ⟨n, []⟩

/-- OUT and the output cursor `j` of a running command (00_scope.md R13, 10_state.md R41). -/
structure Sink where
  mem : Memory
  j   : Nat
  deriving DecidableEq, Repr

/-- `emit8`: one `MemWrite` at the cursor, which then advances; the sink refuses a byte at OUT_CAP
(20_memory.md R68). -/
def emit8 (cap : Nat) (k : Sink) (v : Byte) : Except Raise Sink :=
  if k.j < cap then .ok ⟨k.mem.write k.j v, k.j + 1⟩ else .error (.ioFailure .sinkFull)

/-- Emit bytes in order, stopping at the first the sink refuses (20_memory.md R68). -/
def emitBytes (cap : Nat) (k : Sink) (vs : List Byte) : Except Raise Sink :=
  match vs with
  | [] => .ok k
  | v :: rest => (emit8 cap k v).bind fun k' => emitBytes cap k' rest

/-- `emit32`: four bytes, least significant first (20_memory.md R68). -/
def emit32 (cap : Nat) (k : Sink) (v : Nat) : Except Raise Sink := emitBytes cap k (bytesLE 4 v)

/-- `emit64`: eight bytes, least significant first (20_memory.md R68). -/
def emit64 (cap : Nat) (k : Sink) (v : Nat) : Except Raise Sink := emitBytes cap k (bytesLE 8 v)

/-- `TREE <- none; CODE <- none` (10_state.md R32, R40). -/
def State.clearTables (s : State) : State := { s with tree := none, code := none }

/-- `for s in 0 .. 255: FREQ[s] <- 0`. -/
def State.clearFreq (s : State) : State := { s with freq := emptyTable }

/-- OUT[0 .. OUT_CAP-1] becomes unspecified: every byte takes the value of a fresh draw (60_exceptions.md R207;
log 3). -/
def State.redrawOut (s : State) : State := { s with out := Memory.redraw s.draws, draws := s.draws + 1 }

/-- The code ERR_CODE reports for an error (60_exceptions.md R200). -/
def Raise.errorCode (e : Raise) : ErrorCode :=
  match e with
  | .emptyAlphabet => .emptyAlphabet
  | .malformedStream _ => .malformedStream
  | .ioFailure _ => .ioFailure
  | .capacityExceeded => .capacityExceeded
  | .illegalCommand => .illegalCommand
  | .stateInvalid => .stateInvalid
  | .uncodedSymbol => .uncodedSymbol

/-- The four bits of ERR_CODE.CODE (60_exceptions.md R200). -/
def ErrorCode.bits (e : ErrorCode) : BitVec 4 :=
  match e with
  | .none => 0#4
  | .emptyAlphabet => 1#4
  | .malformedStream => 2#4
  | .ioFailure => 3#4
  | .capacityExceeded => 4#4
  | .illegalCommand => 5#4
  | .stateInvalid => 6#4
  | .uncodedSymbol => 7#4

/-- The host step that accepts command word `w` (60_exceptions.md R204). -/
def State.accept (s : State) (w : Word) : State :=
  State.syncIrq { s with seq := .pending w, done := false, err := false, errCode := .none, outLen := 0#32 }

/-- The end of an engine step whose command succeeded with `n` bytes of output (60_exceptions.md R208; log 11). -/
def State.succeed (s : State) (n : Word) : State :=
  State.syncIrq { s with seq := .idle, done := true, err := false, errCode := .none, outLen := n }

/-- TAKING AN ERROR: the end of an engine step whose command raised `e` (60_exceptions.md R205). The failure effects of
R206 and R207 are in the state it is given. -/
def State.fail (s : State) (e : Raise) : State :=
  State.syncIrq { s with seq := .idle, done := true, err := true, errCode := e.errorCode, outLen := 0#32 }

/-- The value a host read returned, kept for the host (30_encoding.md R85; log 6). -/
def State.deliver (s : State) (v : Word) : State := { s with reads := v :: s.reads }

/-- One more free value has been drawn (70_reset_and_hazards.md R236; log 5). -/
def State.drawn (s : State) : State := { s with draws := s.draws + 1 }

/-- The external reset (70_reset_and_hazards.md R230, R231): every element at its value of 10_state.md R44, a fresh draw
for each byte of IN and OUT. The constants, the host's own record and the events to come are not the block's state. -/
def State.externalReset (s : State) : State :=
  { State.resetWith s.inCap s.outCap s.draws (s.draws + 1) (s.draws + 2) with reads := s.reads, agenda := s.agenda }

end Sys2Proof.Machine
end

