-- ==== Sys2Proof/Machine/Operands.lean ====
section
/-! DEFINITION. How a command reads its operands (30_encoding.md R84): the bytes of IN, little-endian fields, payload
bits, FREQ, TREE and CODE. -/

namespace Sys2Proof.Machine

/-- The number of bytes that hold `b` bits (00_scope.md R14). -/
def ceil8 (b : Nat) : Nat := b / 8 + if b % 8 = 0 then 0 else 1

/-- `MemRead(IN, a, n)`: n bytes assembled little-endian (20_memory.md R67). -/
def memRead (m : Memory) (a n : Nat) : Nat :=
  match n with
  | 0 => 0
  | n + 1 => (m.read a).toNat + 2 ^ 8 * memRead m (a + 1) n

/-- Bytes `a .. a+n-1` of a byte space. -/
def bytesAt (m : Memory) (a n : Nat) : List Byte := (List.range n).map fun k => m.read (a + k)

/-- IN[0 .. IN_LEN-1] (10_state.md R29). -/
def State.input (s : State) : List Byte := bytesAt s.inp 0 s.inLen.toNat

/-- The precheck IN_LEN <= IN_CAP fails (60_exceptions.md R206). -/
def State.sourceTooLong (s : State) : Bool := s.inCap.toNat < s.inLen.toNat

/-- Payload bit `i` of a payload that starts at index `p` (44_bit_reader.md R161, 20_memory.md R70). -/
def payloadBit (m : Memory) (p i : Nat) : Bool := (m.read (p + i / 8)).getLsbD (7 - i % 8)

/-- Payload bits 0 .. n-1 (44_bit_reader.md R161). -/
def payloadBits (m : Memory) (p n : Nat) : List Bool := (List.range n).map (payloadBit m p)

/-- The symbols in ascending order (00_scope.md R9, R15). -/
def symbols : List Byte := (List.range 256).map (BitVec.ofNat 8)

/-- FREQ[s] (10_state.md R32). -/
def countOf (f : FreqTable) (s : Byte) : Word := f[s.toNat]'(s.isLt)

/-- `FREQ[s] <- v`. -/
def setCount (f : FreqTable) (s : Byte) (v : Word) : FreqTable := f.set s.toNat v s.isLt

/-- `present(F)`, ascending (00_scope.md R15). -/
def present (f : FreqTable) : List Byte := symbols.filter fun s => countOf f s != 0#32

/-- C[s] (10_state.md R38). -/
def codeOf (codes : CodeTable) (s : Byte) : List Bool := codes[s.toNat]'(s.isLt)

/-- `C[s] <- p`. -/
def setCode (c : CodeTable) (s : Byte) (p : List Bool) : CodeTable := c.set s.toNat p s.isLt

/-- The table that gives no symbol a code (42_code_table.md R141). -/
def noCodes : CodeTable := Vector.replicate 256 []

/-- T.count (10_state.md R34). -/
def Tree.count (t : Tree) : Nat := t.nodes.length

/-- T.node[i], if the arena has it. -/
def Tree.node? (t : Tree) (i : NodeIndex) : Option Node := t.nodes[i.toNat]?

/-- The `leaf` field of a node (10_state.md R34). -/
def Node.isLeaf (n : Node) : Bool :=
  match n with
  | .leaf _ _ => true
  | .internal _ _ _ => false

/-- The `sym` field of a node, 0 in an Internal node (10_state.md R34). -/
def Node.sym (n : Node) : Byte :=
  match n with
  | .leaf s _ => s
  | .internal _ _ _ => 0#8

/-- The `freq` field of a node (10_state.md R34). -/
def Node.freq (n : Node) : NodeFreq :=
  match n with
  | .leaf _ f => f
  | .internal f _ _ => f

/-- The `left` field of a node, 0 in a Leaf (10_state.md R34). -/
def Node.left (n : Node) : NodeIndex :=
  match n with
  | .leaf _ _ => 0#9
  | .internal _ l _ => l

/-- The `right` field of a node, 0 in a Leaf (10_state.md R34). -/
def Node.right (n : Node) : NodeIndex :=
  match n with
  | .leaf _ _ => 0#9
  | .internal _ _ r => r

/-- T.node[T.root].freq (44_bit_reader.md R162); 0 if the arena lacks its root, which no tree of a run does (log 17). -/
def Tree.rootFreq (t : Tree) : Nat :=
  match t.node? t.root with
  | some n => n.freq.toNat
  | none => 0

end Sys2Proof.Machine
end

