-- ==== Sys2Proof/Machine/BitPacker.lean ====
section
/-! DEFINITION. Bit packing: PACK and its stage in ENCODE (43_bit_packer.md). -/

namespace Sys2Proof.Machine

/-- The packer's scratch values: the sink, the 8-bit accumulator, its fill and the bit count (43_bit_packer.md R152). -/
structure Packer where
  sink : Sink
  acc  : Byte
  fill : Nat
  bits : BitCount
  deriving DecidableEq, Repr

/-- The packer at the start, its output going to `k`. -/
def packerStart (k : Sink) : Packer := ⟨k, 0#8, 0, 0#64⟩

/-- The accumulator with one more bit, MSB first (43_bit_packer.md R152, 20_memory.md R70). -/
def accumulate (p : Packer) (b : Bool) : Byte := p.acc ||| ((BitVec.ofBool b).setWidth 8 <<< (7 - p.fill))

/-- One bit into the packer; the eighth bit writes the byte (43_bit_packer.md R152). -/
def packBit (cap : Nat) (p : Packer) (b : Bool) : Except Raise Packer :=
  if p.fill + 1 = 8 then (emit8 cap p.sink (accumulate p b)).bind fun k => .ok ⟨k, 0#8, 0, p.bits + 1#64⟩
  else .ok ⟨p.sink, accumulate p b, p.fill + 1, p.bits + 1#64⟩

/-- The bits of one code, in order (43_bit_packer.md R152). -/
def packBits (cap : Nat) (p : Packer) (bs : List Bool) : Except Raise Packer :=
  match bs with
  | [] => .ok p
  | b :: rest => (packBit cap p b).bind fun p' => packBits cap p' rest

/-- The codes of the input symbols, in order; a symbol with no code is UncodedSymbol (43_bit_packer.md R152). -/
def packSymbols (cap : Nat) (c : CodeTable) (p : Packer) (bs : List Byte) : Except Raise Packer :=
  match bs with
  | [] => .ok p
  | s :: rest =>
    if codeOf c s = [] then .error .uncodedSymbol
    else (packBits cap p (codeOf c s)).bind fun p' => packSymbols cap c p' rest

/-- The final partial byte, its low bits 0 (43_bit_packer.md R152). -/
def packFlush (cap : Nat) (p : Packer) : Except Raise (Sink × BitCount) :=
  if 0 < p.fill then (emit8 cap p.sink p.acc).bind fun k => .ok (k, p.bits)
  else .ok (p.sink, p.bits)

/-- `pack_into(b, C, j)` (43_bit_packer.md R152). -/
def packInto (cap : Nat) (c : CodeTable) (k : Sink) (bs : List Byte) : Except Raise (Sink × BitCount) :=
  (packSymbols cap c (packerStart k) bs).bind (packFlush cap)

/-- PACK (43_bit_packer.md R153). -/
def runPack (s : State) : State :=
  match s.code with
  | none => s.fail .stateInvalid
  | some c =>
    if s.sourceTooLong then s.fail (.ioFailure .sourceLength)
    else
      match packInto s.outCap.toNat c ⟨s.out, 0⟩ s.input with
      | .error e => State.fail { s.redrawOut with bitCount := 0#64 } e
      | .ok (k, n) => State.succeed { s with out := k.mem, bitCount := n } (BitVec.ofNat 32 k.j)

/-- The meaning of PACK. -/
def execPack (s : State) : Host.Outcome State Fault Refusal := .next (runPack s)

end Sys2Proof.Machine
end

