-- ==== Sys2Proof/Machine/BitReader.lean ====
section
/-! DEFINITION. Bit reading and the decode walk: UNPACK and its stage in DECODE (44_bit_reader.md). -/

namespace Sys2Proof.Machine

/-- The walk's scratch values: the current node, the sink, the number of symbols emitted (44_bit_reader.md R162). -/
structure Walker where
  cur     : NodeIndex
  sink    : Sink
  emitted : Nat
  deriving DecidableEq, Repr

/-- Emit the symbol of a leaf and go back to the root (44_bit_reader.md R162). -/
def walkEmit (t : Tree) (cap : Nat) (w : Walker) (sym : Byte) : Except Raise Walker :=
  (emit8 cap w.sink sym).bind fun k => .ok ⟨t.root, k, w.emitted + 1⟩

/-- A descent to node `c` (44_bit_reader.md R162): a leaf's symbol is emitted, an Internal node becomes the current
one. A node the arena lacks is the source's "descent targets an absent child" (44_bit_reader.md R160); no tree of a run
lacks one (log 17). -/
def walkDescend (t : Tree) (cap : Nat) (w : Walker) (c : NodeIndex) : Except Raise Walker :=
  match t.node? c with
  | none => .error (.malformedStream .absentChild)
  | some (.leaf s _) => walkEmit t cap w s
  | some (.internal _ _ _) => .ok { w with cur := c }

/-- One payload bit of the walk (44_bit_reader.md R162); at a Leaf root a 0 bit emits and a 1 bit would need a child
(R164). -/
def walkBit (t : Tree) (cap : Nat) (w : Walker) (b : Bool) : Except Raise Walker :=
  match t.node? w.cur with
  | none => .error (.malformedStream .absentChild)
  | some (.leaf s _) => if b then .error (.malformedStream .absentChild) else walkEmit t cap w s
  | some (.internal _ l r) => walkDescend t cap w (if b then r else l)

/-- The walk over payload bits, in order (44_bit_reader.md R162). -/
def walkBits (t : Tree) (cap : Nat) (w : Walker) (bs : List Bool) : Except Raise Walker :=
  match bs with
  | [] => .ok w
  | b :: rest => (walkBit t cap w b).bind fun w' => walkBits t cap w' rest

/-- The two tests after the last bit (44_bit_reader.md R162). -/
def walkEnd (t : Tree) (w : Walker) : Except Raise Sink :=
  if w.cur ≠ t.root then .error (.malformedStream .endsMidPath)
  else if w.emitted ≠ t.rootFreq then .error (.malformedStream .symbolCountMismatch)
  else .ok w.sink

/-- `walk_decode` over the payload bits (44_bit_reader.md R162). -/
def walkDecode (t : Tree) (cap : Nat) (k : Sink) (bs : List Bool) : Except Raise Sink :=
  (walkBits t cap ⟨t.root, k, 0⟩ bs).bind (walkEnd t)

/-- UNPACK (44_bit_reader.md R163). -/
def runUnpack (s : State) : State :=
  match s.tree with
  | none => s.fail .stateInvalid
  | some t =>
    if s.sourceTooLong then s.fail (.ioFailure .sourceLength)
    else if s.inLen.toNat < ceil8 s.bitCount.toNat then s.fail (.malformedStream .payloadShort)
    else
      match walkDecode t s.outCap.toNat ⟨s.out, 0⟩ (payloadBits s.inp 0 s.bitCount.toNat) with
      | .error e => s.redrawOut.fail e
      | .ok k => State.succeed { s with out := k.mem } (BitVec.ofNat 32 k.j)

/-- The meaning of UNPACK. -/
def execUnpack (s : State) : Host.Outcome State Fault Refusal := .next (runUnpack s)

end Sys2Proof.Machine
end

