-- ==== Sys2Proof/Machine/CodeAssign.lean ====
section
/-! DEFINITION. Code assignment: DERIVE and its stage in ENCODE (42_code_table.md). -/

namespace Sys2Proof.Machine

/-- `walk(i, p)` (42_code_table.md R141): bit 0 on the way left, bit 1 on the way right. In a tree of a run a child's
index is below its parent's (41_tree_builder.md R126), so a depth of `fuel` = the number of nodes is enough; in a tree
that no run has, a node the arena lacks or one deeper than that gives no code (log 17). -/
def deriveWalk (t : Tree) (fuel : Nat) (i : NodeIndex) (p : List Bool) (c : CodeTable) : CodeTable :=
  match fuel with
  | 0 => c
  | fuel + 1 =>
    match t.node? i with
    | none => c
    | some (.leaf s _) => setCode c s p
    | some (.internal _ l r) => deriveWalk t fuel r (p ++ [true]) (deriveWalk t fuel l (p ++ [false]) c)

/-- `derive(T)` (42_code_table.md R141); a leaf root gets the code "0" (R143). -/
def derive (t : Tree) : CodeTable :=
  match t.node? t.root with
  | some (.leaf s _) => setCode noCodes s [false]
  | _ => deriveWalk t t.count t.root [] noCodes

/-- DERIVE (42_code_table.md R142). -/
def runDerive (s : State) : State :=
  match s.tree with
  | none => s.fail .stateInvalid
  | some t => State.succeed { s with code := some (derive t) } 0#32

/-- The meaning of DERIVE. -/
def execDerive (s : State) : Host.Outcome State Fault Refusal := .next (runDerive s)

end Sys2Proof.Machine
end

