-- ==== Sys2Proof/Machine/SymbolStats.lean ====
section
/-! DEFINITION. Frequency collection: COLLECT and its stage in ENCODE (40_symbol_stats.md). -/

namespace Sys2Proof.Machine

/-- The counting loop of `collect`, from a table already counted (40_symbol_stats.md R111). -/
def collectFrom (f : FreqTable) (bs : List Byte) : Except Raise FreqTable :=
  match bs with
  | [] => .ok f
  | b :: rest =>
    if countOf f b = 0xFFFFFFFF#32 then .error .capacityExceeded
    else collectFrom (setCount f b (countOf f b + 1#32)) rest

/-- `collect(b)` (40_symbol_stats.md R111). -/
def collect (bs : List Byte) : Except Raise FreqTable := collectFrom emptyTable bs

/-- COLLECT (40_symbol_stats.md R112). -/
def runCollect (s : State) : State :=
  if s.sourceTooLong then s.fail (.ioFailure .sourceLength)
  else
    match collect s.input with
    | .error e => s.clearTables.clearFreq.fail e
    | .ok f => State.succeed { s.clearTables with freq := f } 0#32

/-- The meaning of COLLECT. -/
def execCollect (s : State) : Host.Outcome State Fault Refusal := .next (runCollect s)

end Sys2Proof.Machine
end

