-- ==== Sys2Proof/Machine/TreeBuilder.lean ====
section
/-! DEFINITION. Tree construction: BUILD and its stage in ENCODE and DECODE (41_tree_builder.md). -/

namespace Sys2Proof.Machine

/-- An element of BUILD's queue (10_state.md R41): a node's frequency and its arena index. -/
structure QueueEntry where
  freq : NodeFreq
  idx  : Nat
  deriving DecidableEq, Repr

/-- The queue order: lexicographic on (freq, index) (41_tree_builder.md R121). -/
def QueueEntry.before (a b : QueueEntry) : Bool := a.freq < b.freq || (a.freq == b.freq && a.idx < b.idx)

/-- `min_key(Q)` and Q without it (41_tree_builder.md R121). -/
def popMin (q : List QueueEntry) : Option (QueueEntry × List QueueEntry) :=
  match q with
  | [] => none
  | e :: es =>
    match popMin es with
    | none => some (e, [])
    | some (m, rest) => if e.before m then some (e, es) else some (m, e :: rest)

/-- The leaves, one per present symbol in ascending order (41_tree_builder.md R122). -/
def leaves (f : FreqTable) : List Node := (present f).map fun s => .leaf s ((countOf f s).setWidth 40)

/-- The queue of nodes, the first of them at arena index `i`. -/
def queueFrom (i : Nat) (ns : List Node) : List QueueEntry :=
  match ns with
  | [] => []
  | n :: rest => ⟨n.freq, i⟩ :: queueFrom (i + 1) rest

/-- The merge loop (41_tree_builder.md R123, R124), at most `fuel` merges: the first-popped node is the left child. -/
def mergeLoop (fuel : Nat) (nodes : List Node) (q : List QueueEntry) : Tree :=
  match popMin q with
  | none => ⟨0#9, nodes⟩
  | some (a, q1) =>
    match popMin q1 with
    | none => ⟨BitVec.ofNat 9 a.idx, nodes⟩
    | some (b, q2) =>
      match fuel with
      | 0 => ⟨BitVec.ofNat 9 a.idx, nodes⟩
      | fuel + 1 =>
        mergeLoop fuel
          (nodes ++ [.internal (a.freq + b.freq) (BitVec.ofNat 9 a.idx) (BitVec.ofNat 9 b.idx)])
          (q2 ++ [⟨a.freq + b.freq, nodes.length⟩])

/-- `build(F)` (41_tree_builder.md R124); n leaves need n - 1 merges, so n is fuel enough. -/
def build (f : FreqTable) : Tree := mergeLoop (leaves f).length (leaves f) (queueFrom 0 (leaves f))

/-- BUILD (41_tree_builder.md R124). -/
def runBuild (s : State) : State :=
  if (present s.freq).isEmpty then s.clearTables.fail .emptyAlphabet
  else State.succeed { s with tree := some (build s.freq), code := none } 0#32

/-- The meaning of BUILD. -/
def execBuild (s : State) : Host.Outcome State Fault Refusal := .next (runBuild s)

end Sys2Proof.Machine
end

