-- ==== Sys2Proof/Machine/Orchestrator.lean ====
section
/-! DEFINITION. Codec orchestration: ENCODE, DECODE and CLEAR (45_orchestrator.md). -/

namespace Sys2Proof.Machine

/-- The bytes of one entry: the symbol, then its frequency (30_encoding.md R92). -/
def entryBytes (f : FreqTable) (s : Byte) : List Byte := s :: bytesLE 4 (countOf f s).toNat

/-- B = the sum over the symbols of F[s] * len(C[s]) (45_orchestrator.md R181). -/
def headerBitCount (f : FreqTable) (c : CodeTable) : Nat :=
  (symbols.map fun s => (countOf f s).toNat * (codeOf c s).length).sum

/-- `emit_header(F, C)` (45_orchestrator.md R181). -/
def emitHeader (cap : Nat) (f : FreqTable) (c : CodeTable) (k : Sink) : Except Raise Sink :=
  (emit32 cap k (present f).length).bind fun k1 =>
    (emitBytes cap k1 ((present f).flatMap (entryBytes f))).bind fun k2 =>
      emit64 cap k2 (headerBitCount f c)

/-- The header of an empty stream: symbol_count = 0 and bit_count = 0 (45_orchestrator.md R182, R187). -/
def emitEmptyHeader (cap : Nat) (k : Sink) : Except Raise Sink :=
  (emit32 cap k 0).bind fun k1 => emit64 cap k1 0

/-- Stages 4 and 5 of ENCODE: the header, then the payload at the cursor it leaves (45_orchestrator.md R182). -/
def emitStream (cap : Nat) (f : FreqTable) (c : CodeTable) (k : Sink) (bs : List Byte) : Except Raise Sink :=
  (emitHeader cap f c k).bind fun k1 => (packInto cap c k1 bs).bind fun r => .ok r.1

/-- What stage 1 of ENCODE and DECODE writes before it can raise: TREE, CODE, FREQ and BIT_COUNT cleared
(45_orchestrator.md R182, R184; 90_conflicts.md C7). -/
def State.clearWorking (s : State) : State := { s.clearTables.clearFreq with bitCount := 0#64 }

/-- ENCODE of an empty table (45_orchestrator.md R182, R187). -/
def encodeEmpty (s : State) : State :=
  match emitEmptyHeader s.outCap.toNat ⟨s.out, 0⟩ with
  | .error e => s.redrawOut.fail e
  | .ok k => State.succeed { s with out := k.mem } (BitVec.ofNat 32 k.j)

/-- Stages 4 and 5 of ENCODE, with FREQ, TREE and CODE staged (45_orchestrator.md R182). -/
def encodeStaged (s : State) (c : CodeTable) (bs : List Byte) : State :=
  match emitStream s.outCap.toNat s.freq c ⟨s.out, 0⟩ bs with
  | .error e => s.redrawOut.fail e
  | .ok k =>
    State.succeed { s with out := k.mem, bitCount := BitVec.ofNat 64 (headerBitCount s.freq c) } (BitVec.ofNat 32 k.j)

/-- Stages 2 and 3 of ENCODE, with FREQ collected and not empty, then the rest (45_orchestrator.md R182). -/
def encodeTable (s : State) (bs : List Byte) : State :=
  encodeStaged { s with tree := some (build s.freq), code := some (derive (build s.freq)) } (derive (build s.freq)) bs

/-- ENCODE after stage 1 (45_orchestrator.md R182). -/
def encodeCollected (s : State) (bs : List Byte) : State :=
  if (present s.freq).isEmpty then encodeEmpty s else encodeTable s bs

/-- ENCODE (45_orchestrator.md R182). -/
def runEncode (s : State) : State :=
  if s.sourceTooLong then s.fail (.ioFailure .sourceLength)
  else
    match collect s.input with
    | .error e => s.clearWorking.fail e
    | .ok f => encodeCollected { s.clearWorking with freq := f } s.input

/-- The meaning of ENCODE. -/
def execEncode (s : State) : Host.Outcome State Fault Refusal := .next (runEncode s)

/-- What `parse` returns: the table, the bit count and the payload's start (45_orchestrator.md R183). -/
structure Header where
  freq     : FreqTable
  bitCount : Nat
  start    : Nat
  deriving DecidableEq, Repr

/-- The symbol byte of entry `k` (45_orchestrator.md R183). -/
def entrySymbol (m : Memory) (k : Nat) : Byte := m.read (4 + 5 * k)

/-- The frequency of entry `k` (45_orchestrator.md R183). -/
def entryFreq (m : Memory) (k : Nat) : Word := BitVec.ofNat 32 (memRead m (5 + 5 * k) 4)

/-- The entries numbered `ks`, in that order, added to a table, with the symbols seen so far
(45_orchestrator.md R183). -/
def parseEntries (m : Memory) (seen : List Byte) (f : FreqTable) (ks : List Nat) : Except Raise FreqTable :=
  match ks with
  | [] => .ok f
  | k :: rest =>
    if entrySymbol m k ∈ seen then .error (.malformedStream .duplicateSymbol)
    else if entryFreq m k = 0#32 then .error (.malformedStream .zeroFrequency)
    else parseEntries m (entrySymbol m k :: seen) (setCount f (entrySymbol m k) (entryFreq m k)) rest

/-- The checks on the bit count `bc` of a stream of `len` bytes with `sc` entries (45_orchestrator.md R183). -/
def parseTail (len sc bc : Nat) (f : FreqTable) : Except Raise Header :=
  if sc = 0 ∧ bc ≠ 0 then .error (.malformedStream .bitsWithoutSymbols)
  else if len - (12 + 5 * sc) < ceil8 bc then .error (.malformedStream .payloadShort)
  else if ceil8 bc < len - (12 + 5 * sc) then .error (.malformedStream .trailingBytes)
  else .ok ⟨f, bc, 12 + 5 * sc⟩

/-- `parse` with the symbol count read (45_orchestrator.md R183). -/
def parseBody (m : Memory) (len sc : Nat) : Except Raise Header :=
  if 256 < sc then .error (.malformedStream .symbolCountOver256)
  else if len < 12 + 5 * sc then .error (.malformedStream .shortHeader)
  else (parseEntries m [] emptyTable (List.range sc)).bind (parseTail len sc (memRead m (4 + 5 * sc) 8))

/-- `parse(L)` (45_orchestrator.md R183). -/
def parse (m : Memory) (len : Nat) : Except Raise Header :=
  if len < 4 then .error (.malformedStream .shortSymbolCount) else parseBody m len (memRead m 0 4)

/-- Stage 3 of DECODE, with FREQ, BIT_COUNT and TREE staged (45_orchestrator.md R184). -/
def decodeStaged (s : State) (t : Tree) (bits : List Bool) : State :=
  match walkDecode t s.outCap.toNat ⟨s.out, 0⟩ bits with
  | .error e => s.redrawOut.fail e
  | .ok k => State.succeed { s with out := k.mem } (BitVec.ofNat 32 k.j)

/-- DECODE after stage 1: an empty stream ends here, any other builds its tree (45_orchestrator.md R184). -/
def decodeParsed (s : State) (bits : List Bool) : State :=
  if (present s.freq).isEmpty then s.succeed 0#32
  else decodeStaged { s with tree := some (build s.freq) } (build s.freq) bits

/-- DECODE (45_orchestrator.md R184). -/
def runDecode (s : State) : State :=
  if s.sourceTooLong then s.fail (.ioFailure .sourceLength)
  else
    match parse s.inp s.inLen.toNat with
    | .error e => s.clearWorking.fail e
    | .ok h =>
      decodeParsed { s.clearWorking with freq := h.freq, bitCount := BitVec.ofNat 64 h.bitCount }
        (payloadBits s.inp h.start h.bitCount)

/-- The meaning of DECODE. -/
def execDecode (s : State) : Host.Outcome State Fault Refusal := .next (runDecode s)

/-- CLEAR (45_orchestrator.md R186). -/
def runClear (s : State) : State := s.clearWorking.succeed 0#32

/-- The meaning of CLEAR. -/
def execClear (s : State) : Host.Outcome State Fault Refusal := .next (runClear s)

end Sys2Proof.Machine
end

