-- ==== Sys2Proof/Machine/RegMap.lean ====
section
/-! DEFINITION. The host register map (10_state.md R23): offsets, access types, and the value each register reads
(10_state.md R24 to R40). -/

namespace Sys2Proof.Machine

/-- A register of REG, or a reserved offset (10_state.md R23, R43). -/
inductive Reg where
  | id | ctrl | cmd | status | errCode | inLen | outLen | inCap | outCap | bitCountLo | bitCountHi
  | root | nodeCount | symCount
  | freq (s : Byte)
  | node (i : NodeIndex) (k : BitVec 2)
  | code (s : Byte) (k : BitVec 4)
  | reserved
  deriving DecidableEq, Repr

/-- The access types of 10_state.md R23. -/
inductive RegAccess where
  /-- writes are ignored and set STATUS.IGNORED -/
  | readOnly
  | readWrite
  /-- reads return 0 -/
  | writeOnly
  /-- STATUS: mixed RO and W1C -/
  | writeOneClears
  /-- reads 0, writes dropped, IGNORED not set (10_state.md R43) -/
  | reserved
  deriving DecidableEq, Repr

/-- The registers below the FREQ window, by word number (10_state.md R23). -/
def fixedReg (k : Nat) : Reg :=
  match k with
  | 0 => .id
  | 1 => .ctrl
  | 2 => .cmd
  | 3 => .status
  | 4 => .errCode
  | 5 => .inLen
  | 6 => .outLen
  | 7 => .inCap
  | 8 => .outCap
  | 9 => .bitCountLo
  | 10 => .bitCountHi
  | 11 => .root
  | 12 => .nodeCount
  | 13 => .symCount
  | _ => .reserved

/-- The register at a byte offset that is a multiple of 4 (10_state.md R23). -/
def regAt (offset : Nat) : Reg :=
  if offset < 0x0400 then fixedReg (offset / 4)
  else if offset < 0x0800 then .freq (BitVec.ofNat 8 ((offset - 0x0400) / 4))
  else if offset < 0x1000 then .reserved
  else if offset < 0x3000 then .node (BitVec.ofNat 9 ((offset - 0x1000) / 16)) (BitVec.ofNat 2 (offset / 4 % 4))
  else if offset < 0x4000 then .reserved
  else if offset < 0x8000 then .code (BitVec.ofNat 8 ((offset - 0x4000) / 64)) (BitVec.ofNat 4 (offset / 4 % 16))
  else .reserved

/-- The byte offset of a register (10_state.md R23); a reserved offset is no single register. -/
def offsetOf (r : Reg) : Option Nat :=
  match r with
  | .id => some 0x0000
  | .ctrl => some 0x0004
  | .cmd => some 0x0008
  | .status => some 0x000C
  | .errCode => some 0x0010
  | .inLen => some 0x0014
  | .outLen => some 0x0018
  | .inCap => some 0x001C
  | .outCap => some 0x0020
  | .bitCountLo => some 0x0024
  | .bitCountHi => some 0x0028
  | .root => some 0x002C
  | .nodeCount => some 0x0030
  | .symCount => some 0x0034
  | .freq s => some (0x0400 + 4 * s.toNat)
  | .node i k => some (0x1000 + 16 * i.toNat + 4 * k.toNat)
  | .code s k => some (0x4000 + 64 * s.toNat + 4 * k.toNat)
  | .reserved => none

/-- A REG access the block ignores: not 32 bits wide, not aligned, or outside the region (20_memory.md R63,
70_reset_and_hazards.md R243; log 9). -/
def badRegAccess (width offset : Nat) : Bool := width ≠ 32 || offset % 4 ≠ 0 || 0x8000 ≤ offset

/-- The access type of a register (10_state.md R23). -/
def regAccess (r : Reg) : RegAccess :=
  match r with
  | .ctrl | .inLen | .bitCountLo | .bitCountHi | .freq _ => .readWrite
  | .cmd => .writeOnly
  | .status => .writeOneClears
  | .id | .errCode | .outLen | .inCap | .outCap | .root | .nodeCount | .symCount | .node _ _ | .code _ _ => .readOnly
  | .reserved => .reserved

/-- While BUSY a read of this register returns a fresh free value (70_reset_and_hazards.md R236). -/
def drawnWhileBusy (r : Reg) : Bool :=
  match r with
  | .bitCountLo | .bitCountHi | .root | .nodeCount | .symCount | .freq _ | .node _ _ | .code _ _ => true
  | .id | .ctrl | .cmd | .status | .errCode | .inLen | .outLen | .inCap | .outCap | .reserved => false

/-- Bits 32*k+31 .. 32*k of a number. -/
def wordOf (v k : Nat) : Word := BitVec.ofNat 32 (v / 2 ^ (32 * k))

/-- NODE_INFO of a node: SYM 7:0, LEFT 16:8, RIGHT 25:17, reserved 30:26, LEAF 31 (10_state.md R37). -/
def nodeInfo (n : Node) : Word :=
  (BitVec.ofBool n.isLeaf ++ 0#5 ++ n.right ++ n.left ++ n.sym : BitVec 32)

/-- Word `k` of a node's slot (10_state.md R37). -/
def nodeWord (n : Node) (k : BitVec 2) : Word :=
  match k.toNat with
  | 0 => nodeInfo n
  | 1 => wordOf n.freq.toNat 0
  | 2 => wordOf n.freq.toNat 1
  | _ => 0#32

/-- Word `k` of slot `i` of the NODE window: 0 without a tree or past its count (10_state.md R37). -/
def State.nodeWindow (s : State) (i : NodeIndex) (k : BitVec 2) : Word :=
  match s.tree with
  | none => 0#32
  | some t =>
    match t.node? i with
    | none => 0#32
    | some n => nodeWord n k

/-- V of 10_state.md R39: the code read as a binary number, element 0 the most significant bit. -/
def codeValue (c : List Bool) : Nat := c.foldl (fun v b => 2 * v + b.toNat) 0

/-- Word `k` of a symbol's slot (10_state.md R39). -/
def codeWord (c : List Bool) (k : BitVec 4) : Word :=
  if k.toNat = 0 then BitVec.ofNat 32 (c.length % 2 ^ 8)
  else if k.toNat ≤ 8 then wordOf (codeValue c) (k.toNat - 1)
  else 0#32

/-- Word `k` of slot `s` of the CODE window: 0 without a code table (10_state.md R39). -/
def State.codeWindow (s : State) (sym : Byte) (k : BitVec 4) : Word :=
  match s.code with
  | none => 0#32
  | some c => codeWord (codeOf c sym) k

/-- ROOT: T.root in bits 8:0, 0 without a tree (10_state.md R36). -/
def State.rootWord (s : State) : Word :=
  match s.tree with
  | none => 0#32
  | some t => t.root.setWidth 32

/-- NODE_COUNT: T.count in bits 9:0, 0 without a tree (10_state.md R36). -/
def State.nodeCountWord (s : State) : Word :=
  match s.tree with
  | none => 0#32
  | some t => BitVec.ofNat 32 (t.count % 2 ^ 10)

/-- The value a register reads when the read is defined (10_state.md R24 to R40). -/
def State.regValue (s : State) (r : Reg) : Word :=
  match r with
  | .id => 0x46465548#32
  | .ctrl => (BitVec.ofBool s.irqEn).setWidth 32
  | .cmd => 0#32
  | .status => s.statusWord
  | .errCode => s.errCode.bits.setWidth 32
  | .inLen => s.inLen
  | .outLen => s.outLen
  | .inCap => s.inCap
  | .outCap => s.outCap
  | .bitCountLo => s.bitCount.extractLsb' 0 32
  | .bitCountHi => s.bitCount.extractLsb' 32 32
  | .root => s.rootWord
  | .nodeCount => s.nodeCountWord
  | .symCount => BitVec.ofNat 32 (present s.freq).length
  | .freq sym => countOf s.freq sym
  | .node i k => s.nodeWindow i k
  | .code sym k => s.codeWindow sym k
  | .reserved => 0#32

end Sys2Proof.Machine
end

