-- ==== Sys2Proof/Machine/HostPort.lean ====
section
/-! DEFINITION. What a host access does (20_memory.md R63 to R66, 70_reset_and_hazards.md R235 and R236). -/

namespace Sys2Proof.Machine

/-- A write the block drops while BUSY (70_reset_and_hazards.md R235). -/
def State.ifIdle (s : State) (t : State) : State := if s.busy then s.ignore else t

/-- A 32-bit read of a register (20_memory.md R64); while BUSY some reads are fresh draws
(70_reset_and_hazards.md R236; log 7 and log 8). -/
def readRegister (s : State) (r : Reg) : State :=
  if s.busy && drawnWhileBusy r then s.drawn.deliver (Config.freeWord s.draws) else s.deliver (s.regValue r)

/-- A 32-bit write of a register (20_memory.md R64, 10_state.md R25 to R32 and R43). -/
def writeRegister (s : State) (r : Reg) (v : Word) : State :=
  match r with
  | .ctrl => s.writeCtrl v
  | .cmd => s.ifIdle (s.accept v)
  | .status => s.writeStatus v
  | .inLen => s.ifIdle { s with inLen := v }
  | .bitCountLo => s.ifIdle { s with bitCount := s.bitCount.extractLsb' 32 32 ++ v }
  | .bitCountHi => s.ifIdle { s with bitCount := v ++ s.bitCount.extractLsb' 0 32 }
  | .freq sym => s.ifIdle { s.clearTables with freq := setCount s.freq sym v }
  | .id | .errCode | .outLen | .inCap | .outCap | .root | .nodeCount | .symCount | .node _ _ | .code _ _ => s.ignore
  | .reserved => s

/-- A REG read of any width and offset (20_memory.md R63). -/
def hostReadReg (s : State) (width offset : Nat) : State :=
  if badRegAccess width offset then s.ignore.deliver 0#32 else readRegister s (regAt offset)

/-- A REG write of any width and offset (20_memory.md R63). -/
def hostWriteReg (s : State) (width offset : Nat) (v : Word) : State :=
  if badRegAccess width offset then s.ignore else writeRegister s (regAt offset) v

/-- A byte read of IN, valid even while BUSY (20_memory.md R65). -/
def hostReadIn (s : State) (a : Nat) : State :=
  if a < s.inCap.toNat then s.deliver ((s.inp.read a).setWidth 32) else s.ignore.deliver 0#32

/-- A byte write of IN (20_memory.md R65, 70_reset_and_hazards.md R235). -/
def hostWriteIn (s : State) (a : Nat) (b : Byte) : State :=
  if a < s.inCap.toNat then s.ifIdle { s with inp := s.inp.write a b } else s.ignore

/-- A byte read of OUT; while BUSY a fresh draw (20_memory.md R66, 70_reset_and_hazards.md R236; log 7). -/
def hostReadOut (s : State) (a : Nat) : State :=
  if a < s.outCap.toNat then
    if s.busy then s.drawn.deliver ((Config.freeByte s.draws a).setWidth 32)
    else s.deliver ((s.out.read a).setWidth 32)
  else s.ignore.deliver 0#32

/-- A byte write of OUT is ignored (20_memory.md R66). -/
def hostWriteOut (s : State) (_a : Nat) (_b : Byte) : State := s.ignore

/-- A host access (20_memory.md R63 to R66). -/
def hostAccess (s : State) (a : Access) : State :=
  match a with
  | .readReg width offset => hostReadReg s width offset
  | .writeReg width offset v => hostWriteReg s width offset v
  | .readIn i => hostReadIn s i
  | .writeIn i b => hostWriteIn s i b
  | .readOut i => hostReadOut s i
  | .writeOut i b => hostWriteOut s i b

end Sys2Proof.Machine
end

