-- ==== Sys2Proof/Machine/Step.lean ====
section
/-! DEFINITION. One step (00_scope.md R7, R8): the oldest pending event, or the engine's turn when there is none. -/

namespace Sys2Proof.Machine

/-- The engine step of command word `w` (60_exceptions.md R221): an illegal word fails with IllegalCommand, any other
runs its command. -/
def runWord (w : Word) (s : State) : Host.Outcome State Fault Refusal :=
  match decode w with
  | .ok i => exec i s
  | .error _ => .next (s.fail .illegalCommand)

/-- The engine's turn: a step exactly when `seq = PENDING(w)` (60_exceptions.md R221). -/
def engineStep (s : State) : Host.Outcome State Fault Refusal :=
  match s.seq with
  | .idle => .next s
  | .pending w => runWord w s

/-- One step of the machine. Any number of host events may stand before the engine's turn (70_reset_and_hazards.md
R240), and with none left the engine has it (R241; log 1 and log 2). -/
def step (s : State) : Host.Outcome State Fault Refusal :=
  match s.agenda with
  | [] => engineStep s
  | .engineTurn :: rest => engineStep { s with agenda := rest }
  | .host a :: rest => .next (hostAccess { s with agenda := rest } a)
  | .reset :: rest => .next (State.externalReset { s with agenda := rest })

/-- The state in which the next step runs the command word `w`: its CMD write has been accepted (60_exceptions.md
R204), and the engine has the turn (log 18). -/
def State.withFetchWord (s : State) (nbits w : Nat) : State :=
  { s.accept (tableWord nbits w) with agenda := .engineTurn :: s.agenda }

end Sys2Proof.Machine
end

