-- ==== Sys2Proof/Machine/HostScript.lean ====
section
/-! DEFINITION. Host programs: the transactions of 30_encoding.md R85, the pseudo-operations of R86 with their control
flow, and how a program runs beside the engine (log 15, log 21). -/

namespace Sys2Proof.Machine

/-- A line of a host program: one transaction, or a pseudo-operation whose transactions depend on what it reads
(30_encoding.md R86). -/
inductive ScriptOp where
  | access (a : Access)
  | wait
  | readOut
  deriving DecidableEq, Repr

/-- The next transaction of a line: RD STATUS for WAIT, RD OUT_LEN for READOUT (30_encoding.md R86). -/
def ScriptOp.transaction (op : ScriptOp) : Access :=
  match op with
  | .access a => a
  | .wait => .readReg 32 0x000C
  | .readOut => .readReg 32 0x0018

/-- What a line still has to do once its transaction has returned `v`: WAIT starts again while t[0] = 1, READOUT reads
OUT[0] to OUT[n-1] for the n it has read (30_encoding.md R86). -/
def ScriptOp.after (op : ScriptOp) (v : Word) : List ScriptOp :=
  match op with
  | .access _ => []
  | .wait => if v.getLsbD 0 then [.wait] else []
  | .readOut => (List.range v.toNat).map fun k => .access (.readOut k)

/-- `WR CMD, <word>` of the pseudo-operation CMD (30_encoding.md R86). -/
def scriptCmd (i : Instr) : List Access := [.writeReg 32 0x0008 (encode i)]

/-- LOADIN: the bytes from IN[0] on, then IN_LEN (30_encoding.md R86). -/
def scriptLoadIn (bs : List Byte) : List Access :=
  (List.range bs.length).zipWith (fun k b => .writeIn k b) bs ++ [.writeReg 32 0x0014 (BitVec.ofNat 32 bs.length)]

/-- ACK: clears DONE, ERR and IGNORED (30_encoding.md R86). -/
def scriptAck : List Access := [.writeReg 32 0x000C 0x00000026#32]

/-- The host variable of the last read (30_encoding.md R85): the newest value of the host's record (log 6). -/
def State.lastRead (s : State) : Word := s.reads.headD 0#32

/-- Who moves next beside a host program (00_scope.md R8; log 21). -/
inductive Turn where
  | host
  | engine
  | reset
  deriving DecidableEq, Repr

/-- A step on one event, before those that are still to come (log 1). -/
def stepOn (s : State) (e : Event) : Host.Outcome State Fault Refusal := step { s with agenda := e :: s.agenda }

/-- The outcome of a step, with the lines that are left after it. -/
def leaving (rest : State → List ScriptOp) (o : Host.Outcome State Fault Refusal) :
    Host.Outcome (List ScriptOp × State) Fault Refusal :=
  match o with
  | .next t => .next (rest t, t)
  | .fault r => .fault r
  | .refused r => .refused r

/-- A turn of a host program with `ops` left: its next transaction (nothing if no line is left), the engine's turn, or the
reset, which does not stop the host (log 21). -/
def scriptTurn (ops : List ScriptOp) (s : State) (t : Turn) : Host.Outcome (List ScriptOp × State) Fault Refusal :=
  match t, ops with
  | .engine, _ => leaving (fun _ => ops) (stepOn s .engineTurn)
  | .reset, _ => leaving (fun _ => ops) (stepOn s .reset)
  | .host, [] => .next ([], s)
  | .host, op :: rest => leaving (fun t => op.after t.lastRead ++ rest) (stepOn s (.host op.transaction))

/-- A host program under a schedule of turns (70_reset_and_hazards.md R240; log 21). -/
def runScript (ts : List Turn) (ops : List ScriptOp) (s : State) :
    Host.Outcome (List ScriptOp × State) Fault Refusal :=
  match ts with
  | [] => .next (ops, s)
  | t :: rest =>
    match scriptTurn ops s t with
    | .next r => runScript rest r.1 r.2
    | .fault r => .fault r
    | .refused r => .refused r

end Sys2Proof.Machine
end

