-- ==== Sys2Proof/Machine/Platform.lean ====
section
/-! DEFINITION. The platform's address map (20_memory.md R73) and the bus form of a transaction (30_encoding.md R85;
log 15). -/

namespace Sys2Proof.Machine

/-- The kinds of transaction (30_encoding.md R85). -/
inductive BusKind where
  | w32 | r32 | w8 | r8
  deriving DecidableEq, Repr

/-- A transaction as (kind, address, data); a read carries no data, written 0 here (30_encoding.md R85). -/
structure BusOp where
  kind : BusKind
  addr : Nat
  data : Word
  deriving DecidableEq, Repr

/-- Two address ranges of the host's map do not overlap (20_memory.md R73). DESIGN CHOICE (log 20): an empty range, which
only OUT can be (OUT_CAP = 0), counts as overlapping a range that its base lies strictly inside, though they share no
address; at either end of that range it does not. -/
def apart (base1 size1 base2 size2 : Nat) : Bool := base1 + size1 ≤ base2 || base2 + size2 ≤ base1

/-- "A platform must place the three spaces so that they do not overlap" (20_memory.md R73). -/
def placed (p : Platform) (inCap outCap : Nat) : Bool :=
  apart p.regBase 0x8000 p.inBase inCap && apart p.regBase 0x8000 p.outBase outCap
    && apart p.inBase inCap p.outBase outCap

/-- The bus form of an access of 30_encoding.md R85; the notation has no byte write to OUT and no other REG width. -/
def busOpOf (p : Platform) (a : Access) : Option BusOp :=
  match a with
  | .readReg width offset => if width = 32 then some ⟨.r32, p.regBase + offset, 0#32⟩ else none
  | .writeReg width offset v => if width = 32 then some ⟨.w32, p.regBase + offset, v⟩ else none
  | .readIn i => some ⟨.r8, p.inBase + i, 0#32⟩
  | .writeIn i b => some ⟨.w8, p.inBase + i, b.setWidth 32⟩
  | .readOut i => some ⟨.r8, p.outBase + i, 0#32⟩
  | .writeOut _ _ => none

/-- Where an address falls: its index in a space of `size` bytes at `base`. -/
def indexIn (base size addr : Nat) : Option Nat := if base ≤ addr ∧ addr < base + size then some (addr - base) else none

/-- The access a transaction makes: the platform routes it to the space its address falls in (20_memory.md R73). A
transaction outside the three spaces does not reach the block; a byte transaction in REG is an access of another width
(20_memory.md R63), and a word transaction in IN or OUT is no access of the block (20_memory.md R65, R66). -/
def route (p : Platform) (inCap outCap : Nat) (b : BusOp) : Option Access :=
  match b.kind with
  | .r32 => (indexIn p.regBase 0x8000 b.addr).map fun o => .readReg 32 o
  | .w32 => (indexIn p.regBase 0x8000 b.addr).map fun o => .writeReg 32 o b.data
  | .r8 =>
    match indexIn p.regBase 0x8000 b.addr, indexIn p.inBase inCap b.addr, indexIn p.outBase outCap b.addr with
    | some o, _, _ => some (.readReg 8 o)
    | none, some i, _ => some (.readIn i)
    | none, none, some i => some (.readOut i)
    | none, none, none => none
  | .w8 =>
    match indexIn p.regBase 0x8000 b.addr, indexIn p.inBase inCap b.addr, indexIn p.outBase outCap b.addr with
    | some o, _, _ => some (.writeReg 8 o b.data)
    | none, some i, _ => some (.writeIn i (b.data.setWidth 8))
    | none, none, some i => some (.writeOut i (b.data.setWidth 8))
    | none, none, none => none

end Sys2Proof.Machine
end

