-- ==== Sys2Proof/Safety.lean ====
section
/-! DEFINITION. The terms the claims use: how a command ends, the invariant of every run, the shape of a tree, the
payload and the stream as the spec's formulas give them. Nothing here is used by the machine itself. -/

namespace Sys2Proof.Machine

/-- The state at the end of a successful command with `n` bytes of output (60_exceptions.md R208): `s` but for these
fields. -/
def ended (s : State) (n : Nat) : State :=
  { s with seq := .idle, done := true, err := false, errCode := .none, outLen := BitVec.ofNat 32 n, irq := s.irqEn }

/-- The state at the end of a failed command (60_exceptions.md R205): `s` but for these fields. -/
def failed (s : State) (c : ErrorCode) : State :=
  { s with seq := .idle, done := true, err := true, errCode := c, outLen := 0#32, irq := s.irqEn }

/-- OUT holds the bytes `bs` from index 0 on, and above them what `old` holds (20_memory.md R62). -/
def Overlaid (m old : Memory) (bs : List Byte) : Prop := ∀ a, m.read a = (bs[a]?).getD (old.read a)

/-- Σ_s F[s]. -/
def totalCount (f : FreqTable) : Nat := (symbols.map fun s => (countOf f s).toNat).sum

/-- The payload bit string bits(b, C) (43_bit_packer.md R151). -/
def payloadOf (c : CodeTable) (bs : List Byte) : List Bool := bs.flatMap (codeOf c)

/-- Payload byte `m`: Σ_{t=0}^{7} b(8m+t) * 2^(7-t), with b(i) = 0 past the last bit (30_encoding.md R94). -/
def payloadByte (bits : List Bool) (m : Nat) : Byte :=
  BitVec.ofNat 8 ((List.range 8).map fun t => if bits.getD (8 * m + t) false then 2 ^ (7 - t) else 0).sum

/-- The payload's bytes (30_encoding.md R94). -/
def payloadBytes (bits : List Bool) : List Byte := (List.range (ceil8 bits.length)).map (payloadByte bits)

/-- The EncodedStream of an input under a table and its codes (30_encoding.md R90 to R95). -/
def streamOf (f : FreqTable) (c : CodeTable) (bs : List Byte) : List Byte :=
  bytesLE 4 (present f).length ++ (present f).flatMap (fun s => s :: bytesLE 4 (countOf f s).toNat)
    ++ bytesLE 8 (payloadOf c bs).length ++ payloadBytes (payloadOf c bs)

/-- The node a path from node `i` leads to: bit 0 left, bit 1 right (42_code_table.md R140). -/
def Tree.follow (t : Tree) (i : NodeIndex) (p : List Bool) : Option Node :=
  match p with
  | [] => t.node? i
  | b :: rest =>
    match t.node? i with
    | some (.internal _ l r) => t.follow (if b then r else l) rest
    | _ => none

/-- Node `j` is a child of the Internal node `k`. -/
def Tree.ChildOf (t : Tree) (j k : Nat) : Prop :=
  ∃ f l r, t.nodes[k]? = some (.internal f l r) ∧ (l.toNat = j ∨ r.toNat = j)

/-- The queue when node `k` is made: the earlier nodes that no earlier node has taken (41_tree_builder.md R124). -/
def Tree.InQueue (t : Tree) (k j : Nat) : Prop := j < k ∧ ∀ m < k, ¬ t.ChildOf j m

/-- Node `i` comes before node `j` in the order (freq, index) (41_tree_builder.md R121). -/
def Tree.KeyBefore (t : Tree) (i j : Nat) : Prop :=
  ∃ a b, t.nodes[i]? = some a ∧ t.nodes[j]? = some b ∧ (a.freq < b.freq ∨ (a.freq = b.freq ∧ i < j))

/-- IN holds a stream header of `len` bytes: conditions 1 to 7 of 30_encoding.md R96, in its order. -/
structure WellFormedHeader (m : Memory) (len : Nat) : Prop where
  longEnough   : 4 ≤ len
  symbolCount  : memRead m 0 4 ≤ 256
  headerFits   : 12 + 5 * memRead m 0 4 ≤ len
  noDuplicate  : ∀ j k, j < k → k < memRead m 0 4 → m.read (4 + 5 * j) ≠ m.read (4 + 5 * k)
  noZeroFreq   : ∀ k < memRead m 0 4, memRead m (5 + 5 * k) 4 ≠ 0
  emptyNoBits  : memRead m 0 4 = 0 → memRead m 4 8 = 0
  exactLength  : len = 12 + 5 * memRead m 0 4 + ceil8 (memRead m (4 + 5 * memRead m 0 4) 8)

/-- `f` is the table of the stream's entries (45_orchestrator.md R183). -/
def IsStreamTable (m : Memory) (f : FreqTable) : Prop :=
  (∀ k < memRead m 0 4, (countOf f (m.read (4 + 5 * k))).toNat = memRead m (5 + 5 * k) 4) ∧
  (∀ x, (∀ k < memRead m 0 4, m.read (4 + 5 * k) ≠ x) → countOf f x = 0#32)

/-- The bits are the codes of the symbols `xs`, one after another, and `xs` has as many symbols as the table counts
(30_encoding.md R95 and R96 condition 8). -/
def PayloadSpells (f : FreqTable) (bits : List Bool) (xs : List Byte) : Prop :=
  (∀ x ∈ xs, x ∈ present f) ∧ bits = payloadOf (derive (build f)) xs ∧ xs.length = totalCount f

/-- The bits begin with the codes of the symbols `ys`, and what is left of them, `p`, begins with no symbol's code: `ys` is
what the walk emits of them if OUT has room (44_bit_reader.md R162). -/
def PayloadBegins (f : FreqTable) (bits : List Bool) (ys : List Byte) (p : List Bool) : Prop :=
  (∀ y ∈ ys, y ∈ present f) ∧ bits = payloadOf (derive (build f)) ys ++ p ∧
  ∀ x ∈ present f, ¬ codeOf (derive (build f)) x <+: p

/-- A well-formed EncodedStream (30_encoding.md R96). -/
def WellFormedStream (m : Memory) (len : Nat) : Prop :=
  WellFormedHeader m len ∧
  (memRead m 0 4 ≠ 0 → ∃ f xs, IsStreamTable m f ∧
    PayloadSpells f (payloadBits m (12 + 5 * memRead m 0 4) (memRead m (4 + 5 * memRead m 0 4) 8)) xs)

/-- What holds in every state of a run, and every step keeps. -/
structure State.Inv (s : State) : Prop where
  /-- the constants are legal (00_scope.md R9) -/
  inCapPositive : 1 ≤ s.inCap.toNat
  /-- IN and OUT are in canonical form and inside their spaces (20_memory.md R60) -/
  inWf          : s.inp.wf
  outWf         : s.out.wf
  inWithin      : s.inp.within s.inCap.toNat
  outWithin     : s.out.within s.outCap.toNat
  /-- IRQ = DONE AND IRQ_EN (10_state.md R42) -/
  irqLevel      : s.irq = (s.done && s.irqEn)
  /-- "OUT_LEN <= OUT_CAP always holds" (10_state.md R30) -/
  outLenBound   : s.outLen.toNat ≤ s.outCap.toNat
  /-- while BUSY the acceptance effects stand (60_exceptions.md R204) -/
  busyClean     : s.busy = true → s.done = false ∧ s.err = false ∧ s.errCode = .none ∧ s.outLen = 0#32
  /-- ERR stands only with a reported error (60_exceptions.md R205, R213) -/
  errReported   : s.err = true → s.errCode ≠ .none
  /-- TREE was built from FREQ as it stands (10_state.md R40) -/
  treeCurrent   : ∀ t, s.tree = some t → present s.freq ≠ [] ∧ t = build s.freq
  /-- CODE was derived from TREE as it stands (10_state.md R40) -/
  codeCurrent   : ∀ c, s.code = some c → ∃ t, s.tree = some t ∧ c = derive t
  /-- the model's draws are fresh: no two byte spaces share one, and none is to come (log 5) -/
  drawsFresh    : s.inp.seed < s.draws ∧ s.out.seed < s.draws ∧ s.inp.seed ≠ s.out.seed

/-- The errors each command can raise (60_exceptions.md R201). -/
def mayReport (i : Instr) (c : ErrorCode) : Bool :=
  match i, c with
  | _, .none => true
  | .collect, .ioFailure | .collect, .capacityExceeded => true
  | .build, .emptyAlphabet => true
  | .derive, .stateInvalid => true
  | .pack, .stateInvalid | .pack, .ioFailure | .pack, .uncodedSymbol => true
  | .unpack, .stateInvalid | .unpack, .ioFailure | .unpack, .malformedStream => true
  | .encode, .ioFailure | .encode, .capacityExceeded => true
  | .decode, .ioFailure | .decode, .malformedStream => true
  | _, _ => false

/-- A read the block does not ignore (20_memory.md R63, R65, R66). -/
def goodRead (s : State) (a : Access) : Bool :=
  match a with
  | .readReg width offset => width = 32 && offset % 4 = 0 && offset < 0x8000
  | .readIn i => i < s.inCap.toNat
  | .readOut i => i < s.outCap.toNat
  | .writeReg _ _ _ | .writeIn _ _ | .writeOut _ _ => false

end Sys2Proof.Machine
end

