-- ==== Sys2Proof/Certificates/Slice0/Obligations.lean ====
section
/-! DEFINITION. The statements for the provers, from the spec's numbered rules. `ended` and `failed` (Sys2Proof.Safety)
write out what a command's end changes, so a statement `exec i s = .next (ended … )` is also the frame: every field it
does not name is the one before. -/

open Sys2Proof Sys2Proof.Machine

/-! ## Encodings -/

/-- 30_encoding.md R82: the decoder reads exactly the rows of the opcode map, each a match under its mask. -/
def Obligations.OpcodeMapDecodes : Prop :=
  ∀ (w : Word) (i : Instr), decode w = .ok i ↔ ∃ r ∈ opcodeTable, r.instr = i ∧ w &&& r.mask = r.value

/-- 30_encoding.md R83: a word is rejected iff its OPCODE is 0x0 or 0x9 to 0xF or a bit of w[31:4] is 1. -/
def Obligations.IllegalWordsAreRejected : Prop :=
  ∀ w : Word, (∃ e, decode w = .error e) ↔
    ((w.toNat % 16 = 0 ∨ 9 ≤ w.toNat % 16) ∨ ∃ k, 4 ≤ k ∧ k < 32 ∧ w.getLsbD k = true)

/-- 30_encoding.md R81, R82, 20_memory.md R63: decoding reads back what encoding wrote, and nothing else decodes to
it. -/
def Obligations.DecodeEncodeAgree : Prop :=
  ∀ (i : Instr) (bs rest : List Byte), decodeBytes bs = .ok (i, rest) ↔ bs = encodeBytes i ++ rest

/-- 30_encoding.md R82: four words of the opcode map, as bytes on the bus. -/
def Obligations.SpecWordsDecode : Prop :=
  decodeBytes [0x01, 0x00, 0x00, 0x00] = .ok (.collect, []) ∧ decodeBytes [0x04, 0x00, 0x00, 0x00] = .ok (.pack, []) ∧
  decodeBytes [0x08, 0x00, 0x00, 0x00] = .ok (.clear, []) ∧ decodeBytes [0x11, 0x00, 0x00, 0x00] = .error .reservedBits

/-! ## The engine's turn -/

/-- 60_exceptions.md R221, 00_scope.md R8: the engine steps exactly when a command is pending, and runs the command its
word decodes to; an illegal word ends in IllegalCommand; the turn is taken when it is the oldest event, or when no event
is left; a host event that is the oldest is that access (the model's agenda, log 1 and log 2). -/
def Obligations.EngineTurnRunsDecodedCommand : Prop :=
  ∀ (s : State) (rest : List Event),
    (∀ w i, s.seq = .pending w → decode w = .ok i →
      (s.agenda = .engineTurn :: rest → step s = exec i { s with agenda := rest }) ∧
      (s.agenda = [] → step s = exec i s)) ∧
    (∀ w, s.seq = .pending w → (∀ i, w ≠ encode i) →
      (s.agenda = .engineTurn :: rest → step s = .next (failed { s with agenda := rest } .illegalCommand)) ∧
      (s.agenda = [] → step s = .next (failed s .illegalCommand))) ∧
    (s.seq = .idle →
      (s.agenda = .engineTurn :: rest → step s = .next { s with agenda := rest }) ∧
      (s.agenda = [] → step s = .next s)) ∧
    ∀ a, s.agenda = .host a :: rest → step s = .next (hostAccess { s with agenda := rest } a)

/-- 60_exceptions.md R205, R208, R221: the engine step of every command ends, idle, with DONE set and IRQ at IRQ_EN; ERR
and ERR_CODE say together whether it failed, and a failed command reports no output. -/
def Obligations.EveryCommandEnds : Prop :=
  ∀ (i : Instr) (s : State), ∃ t, exec i s = .next t ∧ t.seq = .idle ∧ t.done = true ∧ t.irq = s.irqEn ∧
    (t.err = true ↔ t.errCode ≠ .none) ∧ (t.err = true → t.outLen = 0#32)

/-- 60_exceptions.md R201: no command reports an error outside its row of the table. -/
def Obligations.CommandsReportOnlyTheirErrors : Prop :=
  ∀ (i : Instr) (s t : State), exec i s = .next t → mayReport i t.errCode = true

/-- 10_state.md R29, 20_memory.md R61, 10_state.md R45: no command changes IN, IN_LEN, IRQ_EN, IGNORED or a constant, nor
what the host read or has still to send. -/
def Obligations.CommandsLeaveHostState : Prop :=
  ∀ (i : Instr) (s t : State), exec i s = .next t →
    t.inp = s.inp ∧ t.inLen = s.inLen ∧ t.irqEn = s.irqEn ∧ t.ignored = s.ignored ∧ t.inCap = s.inCap ∧
    t.outCap = s.outCap ∧ t.reads = s.reads ∧ t.agenda = s.agenda

/-- 70_reset_and_hazards.md R241, R242: whatever host accesses come first, a pending command completes: after them the
engine step leaves the block idle with DONE set (the model's agenda, log 1 and log 2). -/
def Obligations.AcceptedCommandCompletes : Prop :=
  ∀ (s : State) (w : Word) (as : List Access), s.seq = .pending w → s.agenda = as.map .host →
    ∃ t, core.run (as.length + 1) s = .next t ∧ t.seq = .idle ∧ t.done = true ∧ t.agenda = []

/-- 20_memory.md R74 point 2: from acceptance to the engine step no host access changes what the command reads. -/
def Obligations.OperandsAreFixedWhileBusy : Prop :=
  ∀ (s : State) (w : Word) (as : List Access), s.seq = .pending w → s.agenda = as.map .host →
    ∃ t, core.run as.length s = .next t ∧ t.seq = .pending w ∧ t.inp = s.inp ∧ t.inLen = s.inLen ∧
      t.bitCount = s.bitCount ∧ t.freq = s.freq ∧ t.tree = s.tree ∧ t.code = s.code ∧ t.out = s.out ∧
      t.outLen = s.outLen ∧ t.errCode = s.errCode

/-! ## The host port -/

/-- 60_exceptions.md R204: a CMD write is accepted when idle, with these effects and no others, and dropped when BUSY. -/
def Obligations.CmdWriteAccepted : Prop :=
  ∀ (s : State) (v : Word),
    (s.seq = .idle → ∃ t, hostAccess s (.writeReg 32 0x0008 v) = t ∧ t.statusWord.getLsbD 0 = true ∧
      t = { s with seq := .pending v, done := false, err := false, errCode := .none, outLen := 0#32, irq := false }) ∧
    (s.seq ≠ .idle → hostAccess s (.writeReg 32 0x0008 v) = { s with ignored := true })

/-- 70_reset_and_hazards.md R235: what each host write does while BUSY (a reserved word of the
NODE and CODE windows counts as RO: the model's choice, log 10). -/
def Obligations.BusyWrites : Prop :=
  ∀ (s : State) (v : Word) (b : Byte) (a o : Nat), s.seq ≠ .idle →
    (o ∈ [0x0008, 0x0014, 0x0024, 0x0028] ∨ (o % 4 = 0 ∧ 0x0400 ≤ o ∧ o ≤ 0x07FC) →
      hostAccess s (.writeReg 32 o v) = { s with ignored := true }) ∧
    hostAccess s (.writeIn a b) = { s with ignored := true } ∧
    hostAccess s (.writeReg 32 0x0004 v)
      = { s with irqEn := v.getLsbD 0, irq := s.done && v.getLsbD 0 } ∧
    hostAccess s (.writeReg 32 0x000C v)
      = { s with done := s.done && !v.getLsbD 1, err := s.err && !v.getLsbD 2,
                 ignored := s.ignored && !v.getLsbD 5, irq := s.done && !v.getLsbD 1 && s.irqEn } ∧
    (o % 4 = 0 → o < 0x8000 → regAccess (regAt o) = .readOnly →
      hostAccess s (.writeReg 32 o v) = { s with ignored := true }) ∧
    (o % 4 = 0 → o < 0x8000 → regAccess (regAt o) = .reserved → hostAccess s (.writeReg 32 o v) = s)

/-- 20_memory.md R64, 10_state.md R25, R42: CTRL and STATUS writes in every state, each with IRQ recomputed. -/
def Obligations.CtrlAndStatusWrites : Prop :=
  ∀ (s : State) (v : Word),
    hostAccess s (.writeReg 32 0x0004 v) = { s with irqEn := v.getLsbD 0, irq := s.done && v.getLsbD 0 } ∧
    hostAccess s (.writeReg 32 0x000C v)
      = { s with done := s.done && !v.getLsbD 1, err := s.err && !v.getLsbD 2,
                 ignored := s.ignored && !v.getLsbD 5, irq := s.done && !v.getLsbD 1 && s.irqEn }

/-- 10_state.md R23: where the registers lie, and that no two share an offset (a word of the NODE and CODE windows
is a register of its own in the model). -/
def Obligations.RegisterMap : Prop :=
  (∀ r o, offsetOf r = some o → o % 4 = 0 ∧ o < 0x8000 ∧ regAt o = r) ∧
  (∀ o, o % 4 = 0 → o < 0x8000 → regAt o ≠ .reserved → offsetOf (regAt o) = some o)

/-- 10_state.md R43 and 20_memory.md R63: a reserved offset reads 0 and drops writes without IGNORED; an access of
another width or alignment reads 0, changes nothing, and sets IGNORED. That such a read returns 0 while BUSY too is the
model's choice (log 8: R236 does not list these reads). -/
def Obligations.ReservedAndBadAccesses : Prop :=
  ∀ (s : State) (v : Word) (width o : Nat),
    (o % 4 = 0 → (0x0038 ≤ o ∧ o < 0x0400 ∨ 0x0800 ≤ o ∧ o < 0x1000 ∨ 0x3000 ≤ o ∧ o < 0x4000) →
      hostAccess s (.writeReg 32 o v) = s ∧ hostAccess s (.readReg 32 o) = { s with reads := 0#32 :: s.reads }) ∧
    (width ≠ 32 ∨ o % 4 ≠ 0 →
      hostAccess s (.writeReg width o v) = { s with ignored := true } ∧
      hostAccess s (.readReg width o) = { s with ignored := true, reads := 0#32 :: s.reads })

/-- 10_state.md R26, R40: a read of STATUS, in every state, bit by bit. -/
def Obligations.StatusReads : Prop :=
  ∀ s : State, ∃ v : Word, hostAccess s (.readReg 32 0x000C) = { s with reads := v :: s.reads } ∧
    v.getLsbD 0 = decide (s.seq ≠ .idle) ∧ v.getLsbD 1 = s.done ∧ v.getLsbD 2 = s.err ∧
    v.getLsbD 3 = decide (s.tree ≠ none) ∧ v.getLsbD 4 = decide (s.code ≠ none) ∧ v.getLsbD 5 = s.ignored ∧
    ∀ k, 6 ≤ k → v.getLsbD k = false

/-- 10_state.md R32, 20_memory.md R64: a host write to FREQ[x] while idle stores the value, clears TREE and CODE, and
changes nothing else; a read returns the counter. -/
def Obligations.FreqWriteClearsTables : Prop :=
  ∀ (s : State) (x : Byte) (v : Word), s.seq = .idle →
    hostAccess s (.readReg 32 (0x0400 + 4 * x.toNat)) = { s with reads := countOf s.freq x :: s.reads } ∧
    ∃ f : FreqTable, hostAccess s (.writeReg 32 (0x0400 + 4 * x.toNat) v) = { s with freq := f, tree := none, code := none } ∧
      countOf f x = v ∧ ∀ y, y ≠ x → countOf f y = countOf s.freq y

/-- 10_state.md R31: each half of BIT_COUNT is read and written while idle on its own. -/
def Obligations.BitCountHalves : Prop :=
  ∀ (s : State) (v : Word), s.seq = .idle →
    (∃ n : BitCount, hostAccess s (.writeReg 32 0x0024 v) = { s with bitCount := n } ∧
      n.toNat = v.toNat + 2 ^ 32 * (s.bitCount.toNat / 2 ^ 32)) ∧
    (∃ n : BitCount, hostAccess s (.writeReg 32 0x0028 v) = { s with bitCount := n } ∧
      n.toNat = s.bitCount.toNat % 2 ^ 32 + 2 ^ 32 * v.toNat) ∧
    (∃ lo hi : Word, hostAccess s (.readReg 32 0x0024) = { s with reads := lo :: s.reads } ∧
      hostAccess s (.readReg 32 0x0028) = { s with reads := hi :: s.reads } ∧
      s.bitCount.toNat = lo.toNat + 2 ^ 32 * hi.toNat)

/-- 20_memory.md R65: host accesses to IN. That a read from IN_CAP on returns 0 while BUSY too is the model's choice
(log 8: R236 does not list that read). -/
def Obligations.InAccess : Prop :=
  ∀ (s : State) (a : Nat) (b : Byte),
    (a < s.inCap.toNat →
      hostAccess s (.readIn a) = { s with reads := (s.inp.read a).setWidth 32 :: s.reads } ∧
      (s.seq = .idle → ∃ m : Memory, hostAccess s (.writeIn a b) = { s with inp := m } ∧ m.read a = b ∧
        ∀ k, k ≠ a → m.read k = s.inp.read k) ∧
      (s.seq ≠ .idle → hostAccess s (.writeIn a b) = { s with ignored := true })) ∧
    (s.inCap.toNat ≤ a →
      hostAccess s (.readIn a) = { s with ignored := true, reads := 0#32 :: s.reads } ∧
      hostAccess s (.writeIn a b) = { s with ignored := true })

/-- 20_memory.md R66: host accesses to OUT; while BUSY the byte read is whatever the draw gives (a free
value of the model, log 7). That a read from OUT_CAP on returns 0 while BUSY too is the model's choice (log 8). -/
def Obligations.OutAccess : Prop :=
  ∀ (s : State) (a : Nat) (b : Byte),
    (a < s.outCap.toNat →
      (s.seq = .idle → hostAccess s (.readOut a) = { s with reads := (s.out.read a).setWidth 32 :: s.reads }) ∧
      (s.seq ≠ .idle → hostAccess s (.readOut a)
        = { s with reads := (Config.freeByte s.draws a).setWidth 32 :: s.reads, draws := s.draws + 1 })) ∧
    (s.outCap.toNat ≤ a → hostAccess s (.readOut a) = { s with ignored := true, reads := 0#32 :: s.reads }) ∧
    hostAccess s (.writeOut a b) = { s with ignored := true }

/-- 70_reset_and_hazards.md R236: while BUSY these registers and IN read their values, and the others a fresh
draw (a free value of the model, log 7). -/
def Obligations.BusyReads : Prop :=
  ∀ (s : State) (o a : Nat), s.seq ≠ .idle →
    hostAccess s (.readReg 32 0x0000) = { s with reads := 0x46465548#32 :: s.reads } ∧
    hostAccess s (.readReg 32 0x0004) = { s with reads := (BitVec.ofBool s.irqEn).setWidth 32 :: s.reads } ∧
    hostAccess s (.readReg 32 0x000C) = { s with reads := s.statusWord :: s.reads } ∧
    (s.errCode = .none → hostAccess s (.readReg 32 0x0010) = { s with reads := 0#32 :: s.reads }) ∧
    hostAccess s (.readReg 32 0x0014) = { s with reads := s.inLen :: s.reads } ∧
    hostAccess s (.readReg 32 0x0018) = { s with reads := s.outLen :: s.reads } ∧
    hostAccess s (.readReg 32 0x001C) = { s with reads := s.inCap :: s.reads } ∧
    hostAccess s (.readReg 32 0x0020) = { s with reads := s.outCap :: s.reads } ∧
    (a < s.inCap.toNat → hostAccess s (.readIn a) = { s with reads := (s.inp.read a).setWidth 32 :: s.reads }) ∧
    (o % 4 = 0 → (o ∈ [0x0024, 0x0028, 0x002C, 0x0030, 0x0034] ∨ 0x0400 ≤ o ∧ o < 0x0800 ∨ 0x1000 ≤ o ∧ o < 0x3000 ∨
        0x4000 ≤ o ∧ o < 0x8000) →
      hostAccess s (.readReg 32 o) = { s with reads := Config.freeWord s.draws :: s.reads, draws := s.draws + 1 })

/-- 20_memory.md R72: a read the block does not ignore has no side effect: it changes what the host has read and the
model's count of draws (log 5, log 6), nothing else. -/
def Obligations.ReadsHaveNoSideEffect : Prop :=
  ∀ (s : State) (a : Access), goodRead s a = true →
    ∃ v d, hostAccess s a = { s with reads := v :: s.reads, draws := d }

/-- 10_state.md R24, R27: ID, IN_CAP and OUT_CAP read the same in every state of a run, and a write to one is ignored. -/
def Obligations.ConstantRegisters : Prop :=
  (∀ s t : State, step s = .next t → t.inCap = s.inCap ∧ t.outCap = s.outCap) ∧
  ∀ (s : State) (v : Word),
    hostAccess s (.readReg 32 0x0000) = { s with reads := 0x46465548#32 :: s.reads } ∧
    hostAccess s (.readReg 32 0x001C) = { s with reads := s.inCap :: s.reads } ∧
    hostAccess s (.readReg 32 0x0020) = { s with reads := s.outCap :: s.reads } ∧
    ∀ o ∈ [0x0000, 0x001C, 0x0020], hostAccess s (.writeReg 32 o v) = { s with ignored := true }

/-- 20_memory.md R64, 10_state.md R25, R28 to R30, 60_exceptions.md R200: CTRL, ERR_CODE, IN_LEN and OUT_LEN read their
values in every state, CMD reads 0 while idle, an IN_LEN write while idle stores any value, also above IN_CAP, and a write
to an RO register, idle or BUSY, only sets IGNORED (a reserved word of the NODE and CODE windows counts as RO: the model's
choice, log 10). -/
def Obligations.RegisterAccess : Prop :=
  ∀ (s : State) (v : Word) (o : Nat),
    hostAccess s (.readReg 32 0x0004) = { s with reads := (if s.irqEn then 1#32 else 0#32) :: s.reads } ∧
    (∃ c : Word, hostAccess s (.readReg 32 0x0010) = { s with reads := c :: s.reads } ∧
      (s.errCode, c) ∈ [(.none, 0#32), (.emptyAlphabet, 1#32), (.malformedStream, 2#32), (.ioFailure, 3#32),
        (.capacityExceeded, 4#32), (.illegalCommand, 5#32), (.stateInvalid, 6#32), (.uncodedSymbol, 7#32)]) ∧
    hostAccess s (.readReg 32 0x0014) = { s with reads := s.inLen :: s.reads } ∧
    hostAccess s (.readReg 32 0x0018) = { s with reads := s.outLen :: s.reads } ∧
    (s.seq = .idle → hostAccess s (.readReg 32 0x0008) = { s with reads := 0#32 :: s.reads }) ∧
    (s.seq = .idle → hostAccess s (.writeReg 32 0x0014 v) = { s with inLen := v }) ∧
    (o ∈ [0x0000, 0x0010, 0x0018, 0x001C, 0x0020, 0x002C, 0x0030, 0x0034] ∨
        o % 4 = 0 ∧ (0x1000 ≤ o ∧ o < 0x3000 ∨ 0x4000 ≤ o ∧ o < 0x8000) →
      hostAccess s (.writeReg 32 o v) = { s with ignored := true })

/-- 10_state.md R33: SYM_COUNT reads the number of present symbols, 0 to 256, in bits 8:0, and is not written. -/
def Obligations.SymCountReads : Prop :=
  ∀ (s : State) (w : Word), hostAccess s (.writeReg 32 0x0034 w) = { s with ignored := true } ∧
    (s.seq = .idle → ∃ v : Word, hostAccess s (.readReg 32 0x0034) = { s with reads := v :: s.reads } ∧
      v.toNat = ((List.range 256).filter fun x => countOf s.freq (BitVec.ofNat 8 x) ≠ 0#32).length ∧ v.toNat ≤ 256 ∧
      ∀ k, 9 ≤ k → v.getLsbD k = false)

/-- 10_state.md R36, R37: ROOT, NODE_COUNT and the four words of every NODE slot, while idle. -/
def Obligations.NodeWindowReads : Prop :=
  ∀ (s : State) (i : NodeIndex), s.seq = .idle → ∃ w0 w1 w2 w3 root count : Word,
    hostAccess s (.readReg 32 (0x1000 + 16 * i.toNat)) = { s with reads := w0 :: s.reads } ∧
    hostAccess s (.readReg 32 (0x1000 + 16 * i.toNat + 4)) = { s with reads := w1 :: s.reads } ∧
    hostAccess s (.readReg 32 (0x1000 + 16 * i.toNat + 8)) = { s with reads := w2 :: s.reads } ∧
    hostAccess s (.readReg 32 (0x1000 + 16 * i.toNat + 12)) = { s with reads := w3 :: s.reads } ∧
    hostAccess s (.readReg 32 0x002C) = { s with reads := root :: s.reads } ∧
    hostAccess s (.readReg 32 0x0030) = { s with reads := count :: s.reads } ∧
    w3 = 0#32 ∧
    (s.tree = none → w0 = 0#32 ∧ w1 = 0#32 ∧ w2 = 0#32 ∧ root = 0#32 ∧ count = 0#32) ∧
    ∀ t, s.tree = some t →
      root.toNat = t.root.toNat ∧ (t.count ≤ 511 → count.toNat = t.count) ∧
      (t.count ≤ i.toNat → w0 = 0#32 ∧ w1 = 0#32 ∧ w2 = 0#32) ∧
      ∀ n, t.nodes[i.toNat]? = some n →
        w0.extractLsb' 0 8 = n.sym ∧ w0.extractLsb' 8 9 = n.left ∧ w0.extractLsb' 17 9 = n.right ∧
        w0.extractLsb' 26 5 = 0#5 ∧ w0.getLsbD 31 = n.isLeaf ∧
        n.freq.toNat = w1.toNat + 2 ^ 32 * w2.toNat

/-- 10_state.md R39: the sixteen words of every CODE slot, while idle. -/
def Obligations.CodeWindowReads : Prop :=
  ∀ (s : State) (x : Byte) (k : Nat), s.seq = .idle → k < 16 → ∃ w : Word,
    hostAccess s (.readReg 32 (0x4000 + 64 * x.toNat + 4 * k)) = { s with reads := w :: s.reads } ∧
    (s.code = none → w = 0#32) ∧
    ∀ c, s.code = some c → (codeOf c x).length ≤ 255 →
      (k = 0 → w.toNat = (codeOf c x).length) ∧
      (1 ≤ k → k ≤ 8 → ∀ j < 32, w.getLsbD j = (decide (32 * (k - 1) + j < (codeOf c x).length) &&
        (codeOf c x).getD ((codeOf c x).length - 1 - (32 * (k - 1) + j)) false)) ∧
      (9 ≤ k → w = 0#32)

/-! ## Reset -/

/-- 10_state.md R44, 70_reset_and_hazards.md R230: the state after reset; IN and OUT hold what the
draws give, the capacities what the instance has (free values of the model, log 3 and log 4). -/
def Obligations.ResetState : Prop :=
  State.reset.seq = .idle ∧ State.reset.irq = false ∧ State.reset.errCode = .none ∧
  (∀ r, r ≠ .id → r ≠ .inCap → r ≠ .outCap → State.reset.regValue r = 0#32) ∧
  State.reset.regValue .id = 0x46465548#32 ∧ State.reset.regValue .inCap = Config.inCap ∧
  State.reset.regValue .outCap = Config.outCap ∧ 1 ≤ Config.inCap.toNat ∧
  (∀ a, State.reset.inp.read a = Config.freeByte 0 a ∧ State.reset.out.read a = Config.freeByte 1 a)

/-- 70_reset_and_hazards.md R230, R231: the reset event, idle or BUSY: a pending command is gone with no effect, every
register reads as after reset, and each byte of IN and OUT is a fresh draw (log 3). -/
def Obligations.ResetEventResets : Prop :=
  ∀ (s : State) (rest : List Event), s.agenda = .reset :: rest →
    ∃ t, step s = .next t ∧ t.seq = .idle ∧ t.irq = false ∧ t.errCode = .none ∧
      (∀ r, r ≠ .id → r ≠ .inCap → r ≠ .outCap → t.regValue r = 0#32) ∧ t.inCap = s.inCap ∧ t.outCap = s.outCap ∧
      (∀ a, t.inp.read a = Config.freeByte s.draws a ∧ t.out.read a = Config.freeByte (s.draws + 1) a) ∧
      t.agenda = rest ∧ t.reads = s.reads

/-! ## Frequencies -/

/-- 40_symbol_stats.md R112: COLLECT of an input that fits leaves in FREQ[x] the number of x in IN[0 .. IN_LEN-1], with
TREE and CODE none and no output. -/
def Obligations.CollectCounts : Prop :=
  ∀ s : State, s.inLen.toNat ≤ s.inCap.toNat →
    ∃ f : FreqTable, exec .collect s = .next (ended { s with freq := f, tree := none, code := none } 0) ∧
      ∀ x, (countOf f x).toNat = ((List.range s.inLen.toNat).map s.inp.read).count x

/-- 40_symbol_stats.md R113: after a successful `collect` the counts add up to the input's length and a symbol is present
iff it occurs; for an input of at most 2^32 - 1 bytes CapacityExceeded is not raised. -/
def Obligations.FrequenciesAreConserved : Prop :=
  ∀ bs : List Byte,
    (∀ f, collect bs = .ok f → totalCount f = bs.length ∧ ∀ x, countOf f x ≠ 0#32 ↔ x ∈ bs) ∧
    (bs.length ≤ 2 ^ 32 - 1 → ∃ f, collect bs = .ok f)

/-- 60_exceptions.md R206: every precheck, and that its failure commits nothing: the engine step of an illegal word, the
StateInvalid checks of DERIVE, PACK and UNPACK (whatever IN_LEN is, R210), IN_LEN <= IN_CAP of the five commands that read
IN. `failed` changes the completion fields alone. EngineTurnRunsDecodedCommand says which step is the engine's. -/
def Obligations.PrechecksCommitNothing : Prop :=
  ∀ s : State,
    (∀ w, (∀ i, w ≠ encode i) → runWord w s = .next (failed s .illegalCommand)) ∧
    (s.tree = none → exec .derive s = .next (failed s .stateInvalid) ∧ exec .unpack s = .next (failed s .stateInvalid)) ∧
    (s.code = none → exec .pack s = .next (failed s .stateInvalid)) ∧
    (s.inCap.toNat < s.inLen.toNat →
      exec .collect s = .next (failed s .ioFailure) ∧ exec .encode s = .next (failed s .ioFailure) ∧
      exec .decode s = .next (failed s .ioFailure) ∧
      (s.code ≠ none → exec .pack s = .next (failed s .ioFailure)) ∧
      (s.tree ≠ none → exec .unpack s = .next (failed s .ioFailure)))

/-! ## The tree -/

/-- 60_exceptions.md R202, R207: BUILD on an empty table is EmptyAlphabet, and ERR_CODE then reads 1. -/
def Obligations.BuildEmptyAlphabet : Prop :=
  ∀ s : State, (∀ x, countOf s.freq x = 0#32) →
    ∃ t, exec .build s = .next t ∧ t = failed { s with tree := none, code := none } .emptyAlphabet ∧
      t.regValue .errCode = 0x00000001#32

/-- 41_tree_builder.md R126 (its six points), R124: BUILD on a table with n >= 1 present symbols completes and leaves CODE
none and a tree of 2n - 1 nodes, root 2n - 2, n leaves of the present symbols in ascending order, and Internal nodes with
two different earlier children whose frequencies they add up exactly; every node but the root has exactly one parent, the
root's frequency is the sum of all, and no leaf is deeper than n - 1 <= 255. -/
def Obligations.BuildMakesFullTree : Prop :=
  ∀ s : State, present s.freq ≠ [] →
    ∃ t : Tree, exec .build s = .next (ended { s with tree := some t, code := none } 0) ∧
      t.count = 2 * (present s.freq).length - 1 ∧ t.root.toNat = 2 * (present s.freq).length - 2 ∧
      (∀ (k : Nat) (x : Byte), (present s.freq)[k]? = some x → t.nodes[k]? = some (Node.leaf x ((countOf s.freq x).setWidth 40))) ∧
      (∀ k, (present s.freq).length ≤ k → k < t.count → ∃ f l r a b,
        t.nodes[k]? = some (Node.internal f l r) ∧ l.toNat < k ∧ r.toNat < k ∧ l ≠ r ∧
        t.nodes[l.toNat]? = some a ∧ t.nodes[r.toNat]? = some b ∧ f.toNat = a.freq.toNat + b.freq.toNat) ∧
      (∀ j, j < t.count → j ≠ t.root.toNat → ∃! k, t.ChildOf j k) ∧
      t.rootFreq = totalCount s.freq ∧
      (∀ p x fr, t.follow t.root p = some (Node.leaf x fr) → p.length ≤ (present s.freq).length - 1) ∧
      (present s.freq).length - 1 ≤ 255

/-- 41_tree_builder.md R123, in the order of R121: each Internal node k merges the two least nodes of the queue as it
stood when k was made, the least of all on the left, and its frequency is their exact sum. -/
def Obligations.BuildMergesTwoLeast : Prop :=
  ∀ (f : FreqTable) (k : Nat) (fr : NodeFreq) (l r : NodeIndex),
    (build f).nodes[k]? = some (Node.internal fr l r) →
      (build f).InQueue k l.toNat ∧ (build f).InQueue k r.toNat ∧ (build f).KeyBefore l.toNat r.toNat ∧
      (∀ j, (build f).InQueue k j → j ≠ l.toNat → j ≠ r.toNat → (build f).KeyBefore r.toNat j) ∧
      ∃ a b, (build f).nodes[l.toNat]? = some a ∧ (build f).nodes[r.toNat]? = some b ∧ fr.toNat = a.freq.toNat + b.freq.toNat

/-- 41_tree_builder.md R125: with exactly one present symbol the tree is one Leaf, with no merge. -/
def Obligations.BuildSingleLeaf : Prop :=
  ∀ (s : State) (x : Byte), countOf s.freq x ≠ 0#32 → (∀ y, y ≠ x → countOf s.freq y = 0#32) →
    exec .build s = .next (ended { s with tree := some (Tree.mk 0 [Node.leaf x ((countOf s.freq x).setWidth 40)]), code := none } 0)

/-! ## The codes -/

/-- 42_code_table.md R140, R141: DERIVE completes, and over two or more symbols the code of a present symbol is the path
from the root to its leaf, and every path to a leaf is its symbol's code. -/
def Obligations.DeriveRecordsPaths : Prop :=
  ∀ (s : State) (f : FreqTable), s.tree = some (build f) → 2 ≤ (present f).length →
    ∃ c : CodeTable, exec .derive s = .next (ended { s with code := some c } 0) ∧
      (∀ x, x ∈ present f → (build f).follow (build f).root (codeOf c x) = some (Node.leaf x ((countOf f x).setWidth 40))) ∧
      (∀ p x fr, (build f).follow (build f).root p = some (Node.leaf x fr) → codeOf c x = p) ∧
      (∀ x, x ∉ present f → codeOf c x = [])

/-- 42_code_table.md R143: a Leaf root's symbol gets the one-bit code "0", every other symbol none. -/
def Obligations.DeriveSingleLeaf : Prop :=
  ∀ (s : State) (t : Tree) (x : Byte) (fr : NodeFreq), s.tree = some t → t.nodes[t.root.toNat]? = some (Node.leaf x fr) →
    ∃ c : CodeTable, exec .derive s = .next (ended { s with code := some c } 0) ∧ codeOf c x = [false] ∧
      ∀ y, y ≠ x → codeOf c y = []

/-- 42_code_table.md R144: every present symbol has a code, no absent symbol has one, and no code is a prefix of
another. -/
def Obligations.CodesArePrefixFree : Prop :=
  ∀ f : FreqTable, present f ≠ [] →
    (∀ x, codeOf (derive (build f)) x ≠ [] ↔ countOf f x ≠ 0#32) ∧
    ∀ x y, countOf f x ≠ 0#32 → countOf f y ≠ 0#32 → x ≠ y → ¬ codeOf (derive (build f)) x <+: codeOf (derive (build f)) y

/-- 42_code_table.md R145: a present symbol's code has 1 to 255 bits, one bit if the symbol is alone, else as many as its
leaf's depth, at most n - 1; so n input bytes have at most 255 * n payload bits. -/
def Obligations.CodeLengthsBounded : Prop :=
  ∀ f : FreqTable, present f ≠ [] →
    (∀ x, countOf f x ≠ 0#32 →
      1 ≤ (codeOf (derive (build f)) x).length ∧ (codeOf (derive (build f)) x).length ≤ 255 ∧
      ((present f).length = 1 → (codeOf (derive (build f)) x).length = 1) ∧
      (2 ≤ (present f).length → (codeOf (derive (build f)) x).length ≤ (present f).length - 1 ∧
        ∃ p fr, (build f).follow (build f).root p = some (Node.leaf x fr) ∧ p.length = (codeOf (derive (build f)) x).length)) ∧
    ∀ bs : List Byte, (payloadOf (derive (build f)) bs).length ≤ 255 * bs.length

/-! ## Packing -/

/-- 43_bit_packer.md R152, R153, 30_encoding.md R94: PACK of an input whose symbols all have codes writes exactly the
payload's bytes from OUT[0] on and leaves every other byte; BIT_COUNT is the number of bits, OUT_LEN of bytes. If they
do not fit it is IoFailure, with BIT_COUNT 0 and OUT redrawn (log 3). -/
def Obligations.PackWritesPayload : Prop :=
  ∀ (s : State) (c : CodeTable), s.code = some c → s.inLen.toNat ≤ s.inCap.toNat → (∀ x ∈ s.input, codeOf c x ≠ []) →
    (ceil8 (payloadOf c s.input).length ≤ s.outCap.toNat →
      ∃ m : Memory, exec .pack s = .next (ended
          { s with out := m, bitCount := BitVec.ofNat 64 (payloadOf c s.input).length } (ceil8 (payloadOf c s.input).length)) ∧
        Overlaid m s.out (payloadBytes (payloadOf c s.input))) ∧
    (s.outCap.toNat < ceil8 (payloadOf c s.input).length →
      exec .pack s = .next (failed
        { s with out := Memory.redraw s.draws, draws := s.draws + 1, bitCount := 0#64 } .ioFailure))

/-- 43_bit_packer.md R152, 60_exceptions.md R207, R210: the first input symbol without a code is UncodedSymbol if the
whole bytes before it fit in OUT, else the sink was full first. -/
def Obligations.PackUncodedSymbol : Prop :=
  ∀ (s : State) (c : CodeTable) (pre post : List Byte) (x : Byte), s.code = some c → s.inLen.toNat ≤ s.inCap.toNat →
    s.input = pre ++ x :: post → (∀ y ∈ pre, codeOf c y ≠ []) → codeOf c x = [] →
    exec .pack s = .next (failed
      { s with out := Memory.redraw s.draws, draws := s.draws + 1, bitCount := 0#64 }
      (if (payloadOf c pre).length / 8 ≤ s.outCap.toNat then .uncodedSymbol else .ioFailure))

/-! ## Unpacking -/

/-- 44_bit_reader.md R162, R163, R165: if the BIT_COUNT bits of IN are the codes of as many symbols as the tree counts,
UNPACK writes those symbols from OUT[0] on and leaves every other byte; if they do not fit it is IoFailure with OUT
redrawn (log 3). -/
def Obligations.UnpackWritesSymbols : Prop :=
  ∀ (s : State) (f : FreqTable) (xs : List Byte), s.tree = some (build f) → present f ≠ [] →
    s.inLen.toNat ≤ s.inCap.toNat → ceil8 s.bitCount.toNat ≤ s.inLen.toNat →
    PayloadSpells f (payloadBits s.inp 0 s.bitCount.toNat) xs →
    (xs.length ≤ s.outCap.toNat →
      ∃ m : Memory, exec .unpack s = .next (ended { s with out := m } xs.length) ∧ Overlaid m s.out xs) ∧
    (s.outCap.toNat < xs.length →
      exec .unpack s = .next (failed { s with out := Memory.redraw s.draws, draws := s.draws + 1 } .ioFailure))

/-- 44_bit_reader.md R162, R163, 60_exceptions.md R207, R210: bits that spell no such symbols are MalformedStream, with
OUT redrawn (log 3), in an OUT of BIT_COUNT bytes; in any OUT, IoFailure comes first exactly when the symbols the bits
begin with do not fit; a payload shorter than BIT_COUNT is MalformedStream with OUT unchanged. -/
def Obligations.UnpackRejectsTheRest : Prop :=
  ∀ (s : State) (f : FreqTable), s.tree = some (build f) → present f ≠ [] → s.inLen.toNat ≤ s.inCap.toNat →
    (ceil8 s.bitCount.toNat ≤ s.inLen.toNat → s.bitCount.toNat ≤ s.outCap.toNat →
      (¬ ∃ xs, PayloadSpells f (payloadBits s.inp 0 s.bitCount.toNat) xs) →
      exec .unpack s = .next (failed { s with out := Memory.redraw s.draws, draws := s.draws + 1 } .malformedStream)) ∧
    (∀ ys p, ceil8 s.bitCount.toNat ≤ s.inLen.toNat →
      PayloadBegins f (payloadBits s.inp 0 s.bitCount.toNat) ys p → p ≠ [] ∨ ys.length ≠ totalCount f →
      exec .unpack s = .next (failed { s with out := Memory.redraw s.draws, draws := s.draws + 1 }
        (if ys.length ≤ s.outCap.toNat then .malformedStream else .ioFailure))) ∧
    (s.inLen.toNat < ceil8 s.bitCount.toNat → exec .unpack s = .next (failed s .malformedStream))

/-- 44_bit_reader.md R164: with a Leaf root of symbol x and frequency f, UNPACK succeeds iff BIT_COUNT = f and all its
bits are 0, and then writes f copies of x. -/
def Obligations.UnpackLeafRoot : Prop :=
  ∀ (s : State) (x : Byte) (fr : NodeFreq), s.tree = some ⟨0, [.leaf x fr]⟩ → s.inLen.toNat ≤ s.inCap.toNat →
    ceil8 s.bitCount.toNat ≤ s.inLen.toNat → s.bitCount.toNat ≤ s.outCap.toNat →
    (s.bitCount.toNat = fr.toNat ∧ (∀ i < s.bitCount.toNat, payloadBit s.inp 0 i = false) →
      ∃ m : Memory, exec .unpack s = .next (ended { s with out := m } fr.toNat) ∧
        Overlaid m s.out (List.replicate fr.toNat x)) ∧
    (¬ (s.bitCount.toNat = fr.toNat ∧ ∀ i < s.bitCount.toNat, payloadBit s.inp 0 i = false) →
      exec .unpack s = .next (failed { s with out := Memory.redraw s.draws, draws := s.draws + 1 } .malformedStream))

/-! ## Encoding -/

/-- 45_orchestrator.md R181, R182, 30_encoding.md R90: ENCODE of a non-empty input leaves its counts in FREQ, their tree
and codes in TREE and CODE, the payload's bit count in BIT_COUNT, and the EncodedStream from OUT[0] on, every other byte
unchanged. If the stream does not fit it is IoFailure, with the tables as staged, BIT_COUNT 0 and OUT redrawn (log 3). -/
def Obligations.EncodeWritesStream : Prop :=
  ∀ (s : State) (f : FreqTable), s.inLen.toNat ≤ s.inCap.toNat → s.inLen.toNat ≠ 0 →
    (∀ x, (countOf f x).toNat = s.input.count x) →
    ((streamOf f (derive (build f)) s.input).length ≤ s.outCap.toNat →
      ∃ m : Memory, exec .encode s = .next (ended
          { s with freq := f, tree := some (build f), code := some (derive (build f)), out := m,
                   bitCount := BitVec.ofNat 64 (payloadOf (derive (build f)) s.input).length }
          (streamOf f (derive (build f)) s.input).length) ∧
        Overlaid m s.out (streamOf f (derive (build f)) s.input)) ∧
    (s.outCap.toNat < (streamOf f (derive (build f)) s.input).length →
      exec .encode s = .next (failed
        { s with freq := f, tree := some (build f), code := some (derive (build f)), bitCount := 0#64,
                 out := Memory.redraw s.draws, draws := s.draws + 1 } .ioFailure))

/-- 45_orchestrator.md R187: ENCODE of no input writes twelve zero bytes, DECODE of twelve zero bytes writes none, and
both leave TREE and CODE none and succeed. An OUT of fewer than twelve bytes is no such success: IoFailure, the tables
cleared, and OUT unspecified, so the statement holds it to no value (60_exceptions.md R207). -/
def Obligations.EmptyInputRoundTrip : Prop :=
  ∀ s : State, s.inLen.toNat ≤ s.inCap.toNat →
    (s.inLen.toNat = 0 → 12 ≤ s.outCap.toNat →
      ∃ m : Memory, exec .encode s = .next (ended
          { s with freq := emptyTable, tree := none, code := none, bitCount := 0#64, out := m } 12) ∧
        Overlaid m s.out (List.replicate 12 0#8)) ∧
    (s.inLen.toNat = 0 → s.outCap.toNat < 12 →
      ∃ (m : Memory) (d : Nat), exec .encode s = .next (failed
        { s with freq := emptyTable, tree := none, code := none, bitCount := 0#64, out := m, draws := d } .ioFailure)) ∧
    (s.inLen.toNat = 12 → (∀ a < 12, s.inp.read a = 0#8) →
      exec .decode s = .next (ended
        { s with freq := emptyTable, tree := none, code := none, bitCount := 0#64 } 0))

/-- 45_orchestrator.md R188, 90_conflicts.md C5: what ENCODE and DECODE report and write is a function of the input
bytes (and the capacities) alone: no table, bit count or output byte left by an earlier command has a part in it. -/
def Obligations.CodecIgnoresEarlierTables : Prop :=
  ∀ (i : Instr) (s s' t t' : State), i = .encode ∨ i = .decode → s.inLen = s'.inLen → s.inCap = s'.inCap →
    s.outCap = s'.outCap → (∀ k < s.inLen.toNat, s.inp.read k = s'.inp.read k) →
    exec i s = .next t → exec i s' = .next t' →
    t.err = t'.err ∧ t.errCode = t'.errCode ∧ t.outLen = t'.outLen ∧
    (t.err = false → t.freq = t'.freq ∧ t.tree = t'.tree ∧ t.code = t'.code ∧ t.bitCount = t'.bitCount ∧
      ∀ k < t.outLen.toNat, t.out.read k = t'.out.read k)

/-! ## Decoding -/

/-- 45_orchestrator.md R184: DECODE of a stream with a sound header and a payload that spells xs leaves its table in
FREQ, its tree in TREE, CODE none, its bit count in BIT_COUNT, and xs from OUT[0] on, every other byte unchanged. If xs
does not fit it is IoFailure, with these as staged and OUT redrawn (log 3). -/
def Obligations.DecodeWritesSymbols : Prop :=
  ∀ (s : State) (f : FreqTable) (xs : List Byte), s.inLen.toNat ≤ s.inCap.toNat →
    WellFormedHeader s.inp s.inLen.toNat → memRead s.inp 0 4 ≠ 0 → IsStreamTable s.inp f →
    PayloadSpells f (payloadBits s.inp (12 + 5 * memRead s.inp 0 4) (memRead s.inp (4 + 5 * memRead s.inp 0 4) 8)) xs →
    (xs.length ≤ s.outCap.toNat →
      ∃ m : Memory, exec .decode s = .next (ended
          { s with freq := f, tree := some (build f), code := none, out := m,
                   bitCount := BitVec.ofNat 64 (memRead s.inp (4 + 5 * memRead s.inp 0 4) 8) } xs.length) ∧
        Overlaid m s.out xs) ∧
    (s.outCap.toNat < xs.length →
      exec .decode s = .next (failed
        { s with freq := f, tree := some (build f), code := none, out := Memory.redraw s.draws, draws := s.draws + 1,
                 bitCount := BitVec.ofNat 64 (memRead s.inp (4 + 5 * memRead s.inp 0 4) 8) } .ioFailure))

/-- 45_orchestrator.md R183, 60_exceptions.md R207: any other header is MalformedStream in stage 1: FREQ all 0, TREE and
CODE none, BIT_COUNT 0, OUT unchanged. -/
def Obligations.DecodeRejectsBadHeader : Prop :=
  ∀ s : State, s.inLen.toNat ≤ s.inCap.toNat → ¬ WellFormedHeader s.inp s.inLen.toNat →
    exec .decode s = .next (failed
      { s with freq := emptyTable, tree := none, code := none, bitCount := 0#64 } .malformedStream)

/-- 45_orchestrator.md R184, 60_exceptions.md R207, R210: a payload that spells no such symbols is MalformedStream in
stage 3 in an OUT of as many bytes as there are bits; in any OUT, IoFailure comes first exactly when the symbols the bits
begin with do not fit: FREQ, TREE and BIT_COUNT as staged, OUT redrawn (log 3). -/
def Obligations.DecodeRejectsBadPayload : Prop :=
  ∀ (s : State) (f : FreqTable), s.inLen.toNat ≤ s.inCap.toNat →
    WellFormedHeader s.inp s.inLen.toNat → memRead s.inp 0 4 ≠ 0 → IsStreamTable s.inp f →
    (memRead s.inp (4 + 5 * memRead s.inp 0 4) 8 ≤ s.outCap.toNat →
      (¬ ∃ xs, PayloadSpells f
        (payloadBits s.inp (12 + 5 * memRead s.inp 0 4) (memRead s.inp (4 + 5 * memRead s.inp 0 4) 8)) xs) →
      exec .decode s = .next (failed
        { s with freq := f, tree := some (build f), code := none, out := Memory.redraw s.draws, draws := s.draws + 1,
                 bitCount := BitVec.ofNat 64 (memRead s.inp (4 + 5 * memRead s.inp 0 4) 8) } .malformedStream)) ∧
    ∀ ys p, PayloadBegins f
        (payloadBits s.inp (12 + 5 * memRead s.inp 0 4) (memRead s.inp (4 + 5 * memRead s.inp 0 4) 8)) ys p →
      p ≠ [] ∨ ys.length ≠ totalCount f →
      exec .decode s = .next (failed
        { s with freq := f, tree := some (build f), code := none, out := Memory.redraw s.draws, draws := s.draws + 1,
                 bitCount := BitVec.ofNat 64 (memRead s.inp (4 + 5 * memRead s.inp 0 4) 8) }
        (if ys.length ≤ s.outCap.toNat then .malformedStream else .ioFailure))

/-- 30_encoding.md R96: DECODE succeeds on exactly the well-formed EncodedStreams, and raises MalformedStream on every
other stream, when OUT has room for a symbol per bit. -/
def Obligations.DecodeAcceptsExactlyWellFormedStreams : Prop :=
  ∀ s : State, s.inLen.toNat ≤ s.inCap.toNat → 8 * s.inLen.toNat ≤ s.outCap.toNat →
    ∃ t, exec .decode s = .next t ∧ (t.err = false ↔ WellFormedStream s.inp s.inLen.toNat) ∧
      (t.err = true → t.errCode = .malformedStream)

/-- 45_orchestrator.md R185: ENCODE on x, then DECODE of its output, gives x back. -/
def Obligations.EncodeThenDecodeIsIdentity : Prop :=
  ∀ (s u : State) (f : FreqTable), s.inLen.toNat ≤ s.inCap.toNat → (∀ x, (countOf f x).toNat = s.input.count x) →
    12 + 5 * (present f).length + ceil8 (payloadOf (derive (build f)) s.input).length ≤ s.outCap.toNat →
    ∃ t, exec .encode s = .next t ∧ t.err = false ∧
      (u.inLen = t.outLen → (∀ k < t.outLen.toNat, u.inp.read k = t.out.read k) → u.inLen.toNat ≤ u.inCap.toNat →
        s.inLen.toNat ≤ u.outCap.toNat →
        ∃ v, exec .decode u = .next v ∧ v.err = false ∧ v.outLen = s.inLen ∧
          ∀ k < s.inLen.toNat, v.out.read k = s.inp.read k)

/-! ## Clearing -/

/-- 45_orchestrator.md R186: CLEAR (word 8) always succeeds; FREQ, the windows, ROOT, NODE_COUNT, SYM_COUNT and BIT_COUNT
then read as after reset, OUT_LEN is 0, and everything else but the completion flags is as before. -/
def Obligations.ClearReturnsWorkingState : Prop :=
  encode .clear = 0x00000008#32 ∧
  ∀ s : State, ∃ t, exec .clear s = .next t ∧ t.tree = none ∧ t.code = none ∧
    (∀ r, drawnWhileBusy r = true → t.regValue r = 0#32) ∧
    t = ended { s with freq := t.freq, tree := none, code := none, bitCount := 0#64 } 0

/-! ## The platform and the host script -/

/-- 30_encoding.md R85, 20_memory.md R73: on a platform whose spaces do not overlap, the bus form of an access reaches
exactly that access. -/
def Obligations.BusFormReachesAccess : Prop :=
  ∀ (p : Platform) (inCap outCap : Nat) (a : Access) (b : BusOp), placed p inCap outCap = true → busOpOf p a = some b →
    (match a with
      | .readReg _ o | .writeReg _ o _ => o < 0x8000
      | .readIn i | .writeIn i _ => i < inCap
      | .readOut i | .writeOut i _ => i < outCap) →
    route p inCap outCap b = some a

/-- 30_encoding.md R86: LOADIN on an idle block puts the bytes in IN from 0 on and their number in IN_LEN, and changes no
other byte of IN and nothing else. -/
def Obligations.LoadInPlacesInput : Prop :=
  ∀ (s : State) (bs : List Byte), s.seq = .idle → bs.length ≤ s.inCap.toNat →
    ∃ m : Memory, (scriptLoadIn bs).foldl hostAccess s = { s with inp := m, inLen := BitVec.ofNat 32 bs.length } ∧
      Overlaid m s.inp bs

/-- 30_encoding.md R86, 70_reset_and_hazards.md R241: WAIT reads STATUS again as long as it reads BUSY = 1, ends at the
first read after the engine's turn, however many came before, and at once on an idle block; READOUT reads OUT_LEN and then
the bytes OUT[0] to OUT[OUT_LEN-1] (the schedule of turns is the model's, log 21). -/
def Obligations.ScriptWaitAndReadOut : Prop :=
  ∀ (s : State) (rest : List ScriptOp),
    (∀ w k, s.seq = .pending w →
      runScript (List.replicate k .host) (.wait :: rest) s
        = .next (.wait :: rest, { s with reads := List.replicate k s.statusWord ++ s.reads }) ∧
      ∃ u, runWord w { s with reads := List.replicate k s.statusWord ++ s.reads } = .next u ∧ u.seq = .idle ∧
        runScript (List.replicate k .host ++ [.engine, .host]) (.wait :: rest) s
          = .next (rest, { u with reads := u.statusWord :: u.reads })) ∧
    (s.seq = .idle →
      runScript [.host] (.wait :: rest) s = .next (rest, { s with reads := s.statusWord :: s.reads }) ∧
      (s.outLen.toNat ≤ s.outCap.toNat →
        runScript (List.replicate (s.outLen.toNat + 1) .host) (.readOut :: rest) s = .next (rest, { s with
          reads := ((bytesAt s.out 0 s.outLen.toNat).map (BitVec.setWidth 32)).reverse ++ s.outLen :: s.reads })))

/-! ## Invariant -/

/-- 10_state.md R44: the invariant of every run holds after reset. -/
def Obligations.ResetMeetsInvariant : Prop := State.reset.Inv

/-- 10_state.md R30, R40, R42, 60_exceptions.md R204: every step, whatever the event, keeps the invariant: the byte
spaces in form and in bounds, IRQ at its level, OUT_LEN <= OUT_CAP, no table older than FREQ. -/
def Obligations.StepKeepsInvariant : Prop := ∀ s t : State, s.Inv → step s = .next t → t.Inv

/-- 20_memory.md R67: MemRead assembles its bytes little-endian. -/
def Obligations.MemReadIsLittleEndian : Prop :=
  ∀ (m : Memory) (a n : Nat), memRead m a n = ((List.range n).map fun t => (m.read (a + t)).toNat * 2 ^ (8 * t)).sum
end

