-- ==== Sys2Proof/Laws/Tables.lean ====
section
/-! SUPPORT. The laws of the two tables: reading after writing an entry, which symbols are present, what `collect` can
do. -/

namespace Sys2Proof.Machine

theorem countOf_setCount (f : FreqTable) (x y : Byte) (v : Word) :
    countOf (setCount f x v) y = if y = x then v else countOf f y := by
  unfold countOf setCount
  rw [Vector.getElem_set]
  simp only [BitVec.toNat_inj, eq_comm]

theorem countOf_emptyTable (x : Byte) : countOf emptyTable x = 0#32 := by simp [countOf, emptyTable]

theorem FreqTable.ext_countOf {f g : FreqTable} (h : ∀ x, countOf f x = countOf g x) : f = g := by
  apply Vector.ext
  intro i hi
  have := h (BitVec.ofNat 8 i)
  simpa [countOf, Nat.mod_eq_of_lt hi] using this

theorem codeOf_setCode (c : CodeTable) (x y : Byte) (p : List Bool) :
    codeOf (setCode c x p) y = if y = x then p else codeOf c y := by
  unfold codeOf setCode
  rw [Vector.getElem_set]
  simp only [BitVec.toNat_inj, eq_comm]

theorem codeOf_noCodes (x : Byte) : codeOf noCodes x = [] := by simp [codeOf, noCodes]

theorem mem_symbols (x : Byte) : x ∈ symbols := by
  simp only [symbols, List.mem_map, List.mem_range]
  exact ⟨x.toNat, x.isLt, by simp⟩

theorem symbols_nodup : symbols.Nodup :=
  List.Nodup.map_on (fun i hi j hj h => by
    have := congrArg BitVec.toNat h
    rw [List.mem_range] at hi hj
    rwa [BitVec.toNat_ofNat, BitVec.toNat_ofNat, Nat.mod_eq_of_lt hi, Nat.mod_eq_of_lt hj] at this) List.nodup_range

theorem symbols_length : symbols.length = 256 := by simp [symbols]

/-- A symbol is present iff its counter is not 0 (00_scope.md R15). -/
theorem mem_present (f : FreqTable) (x : Byte) : x ∈ present f ↔ countOf f x ≠ 0#32 := by
  simp [present, mem_symbols]

theorem present_eq_nil_iff (f : FreqTable) : present f = [] ↔ ∀ x, countOf f x = 0#32 := by
  rw [List.eq_nil_iff_forall_not_mem]
  simp [mem_present]

theorem present_emptyTable : present emptyTable = [] := (present_eq_nil_iff _).2 countOf_emptyTable

theorem present_nodup (f : FreqTable) : (present f).Nodup := symbols_nodup.filter _

theorem present_length_le (f : FreqTable) : (present f).length ≤ 256 :=
  (List.length_filter_le _ _).trans symbols_length.le

/-- The sum over the present symbols is the sum over all. -/
theorem sum_present (f : FreqTable) : ((present f).map fun x => (countOf f x).toNat).sum = totalCount f := by
  unfold totalCount present
  generalize symbols = l
  induction l with
  | nil => rfl
  | cons x l ih =>
    rw [List.filter_cons]
    split
    · simp [ih]
    · rename_i h
      simp only [bne_iff_ne, ne_eq, not_not] at h
      simp [ih, h]

/-- Σ FREQ[s] fits a node's 40 bits (30_encoding.md R80). -/
theorem totalCount_lt (f : FreqTable) : totalCount f < 2 ^ 40 := by
  have bound : ∀ l : List Byte, (l.map fun x => (countOf f x).toNat).sum ≤ l.length * (2 ^ 32 - 1) := by
    intro l
    induction l with
    | nil => simp
    | cons x l ih =>
      simp only [List.map_cons, List.sum_cons, List.length_cons]
      have := (countOf f x).isLt
      omega
  have h := bound symbols
  rw [symbols_length] at h
  unfold totalCount
  omega

theorem input_length (s : State) : s.input.length = s.inLen.toNat := by simp [State.input, bytesAt]

theorem input_length_lt (s : State) : s.input.length < 2 ^ 32 := by
  rw [input_length]
  exact s.inLen.isLt

theorem sourceTooLong_eq_false {s : State} (h : s.inLen.toNat ≤ s.inCap.toNat) : s.sourceTooLong = false := by
  simp only [State.sourceTooLong, decide_eq_false_iff_not]
  omega

/-- The counting loop adds each symbol's occurrences; it can fail only when a counter would pass 2^32 - 1. -/
theorem collectFrom_ok (bs : List Byte) (f : FreqTable) (h : ∀ x, (countOf f x).toNat + bs.length < 2 ^ 32) :
    ∃ g, collectFrom f bs = .ok g ∧ ∀ x, (countOf g x).toNat = (countOf f x).toNat + bs.count x := by
  induction bs generalizing f with
  | nil => exact ⟨f, rfl, by simp⟩
  | cons b bs ih =>
    simp only [List.length_cons] at h
    have hb := h b
    have hne : countOf f b ≠ 0xFFFFFFFF#32 := by
      intro e
      rw [e] at hb
      simp at hb
      omega
    have hsucc : (countOf f b + 1#32).toNat = (countOf f b).toNat + 1 := by
      rw [BitVec.toNat_add, Nat.mod_eq_of_lt]
      · rfl
      · simp
        omega
    obtain ⟨g, hg, hc⟩ := ih (setCount f b (countOf f b + 1#32)) (by
      intro x
      rw [countOf_setCount]
      split
      · omega
      · have := h x
        omega)
    refine ⟨g, by simp [collectFrom, hne, hg], fun x => ?_⟩
    rw [hc, countOf_setCount, List.count_cons]
    split
    · subst x
      simp [hsucc]
      omega
    · rename_i hx
      simp [Ne.symm hx]

/-- Whatever the input, a count that ends without an error is exact (40_symbol_stats.md R111). -/
theorem collectFrom_exact {bs : List Byte} {f g : FreqTable} (h : collectFrom f bs = .ok g) (x : Byte) :
    (countOf g x).toNat = (countOf f x).toNat + bs.count x := by
  induction bs generalizing f with
  | nil => cases h; rfl
  | cons b bs ih =>
    unfold collectFrom at h
    split at h
    · cases h
    · rename_i hb
      rw [ih h, countOf_setCount, List.count_cons]
      have hn : (countOf f b).toNat ≠ 2 ^ 32 - 1 := fun e => hb (BitVec.eq_of_toNat_eq e)
      have := (countOf f b).isLt
      split
      · subst x
        rw [BitVec.toNat_add, Nat.mod_eq_of_lt] <;> simp <;> omega
      · rename_i hx
        simp [Ne.symm hx]

/-- `collect` counts the occurrences of every symbol (40_symbol_stats.md R111). -/
theorem collect_ok (bs : List Byte) (h : bs.length < 2 ^ 32) :
    ∃ g, collect bs = .ok g ∧ ∀ x, (countOf g x).toNat = bs.count x := by
  obtain ⟨g, hg, hc⟩ := collectFrom_ok bs emptyTable (by
    intro x
    rw [countOf_emptyTable]
    simpa using h)
  exact ⟨g, hg, fun x => by rw [hc, countOf_emptyTable]; simp⟩

/-- `collect` raises nothing but CapacityExceeded (40_symbol_stats.md R111). -/
theorem collect_error {bs : List Byte} {e : Raise} (h : collect bs = .error e) : e = .capacityExceeded := by
  unfold collect at h
  generalize emptyTable = f at h
  induction bs generalizing f with
  | nil => cases h
  | cons b bs ih =>
    simp only [collectFrom] at h
    split at h
    · cases h
      rfl
    · exact ih _ h

end Sys2Proof.Machine
end

