-- ==== Sys2Proof/Laws/Tree.lean ====
section
/-! SUPPORT. What `popMin` and the merge loop of `build` can do (41_tree_builder.md R121 to R126). -/

namespace Sys2Proof.Machine

/-! ## The queue -/

theorem QueueEntry.before_iff (a b : QueueEntry) :
    a.before b = true ↔ a.freq.toNat < b.freq.toNat ∨ (a.freq = b.freq ∧ a.idx < b.idx) := by
  simp [QueueEntry.before, BitVec.lt_def]

theorem QueueEntry.before_trans {a b c : QueueEntry} (h : a.before b = true) (h' : b.before c = true) :
    a.before c = true := by
  rw [before_iff, ← BitVec.toNat_inj] at *
  omega

/-- The order is total on distinct indices (41_tree_builder.md R121). -/
theorem QueueEntry.before_total (a b : QueueEntry) :
    a.before b = true ∨ b.before a = true ∨ (a.freq = b.freq ∧ a.idx = b.idx) := by
  simp only [before_iff]
  rw [← BitVec.toNat_inj, ← BitVec.toNat_inj]
  omega

theorem popMin_eq_none {q : List QueueEntry} (h : popMin q = none) : q = [] := by
  cases q with
  | nil => rfl
  | cons e es =>
    simp only [popMin] at h
    split at h
    · simp at h
    · split at h <;> simp at h

/-- `popMin` takes out one entry that no other is before (41_tree_builder.md R121). -/
theorem popMin_eq_some {q : List QueueEntry} {m : QueueEntry} {rest : List QueueEntry} (h : popMin q = some (m, rest)) :
    List.Perm q (m :: rest) ∧ ∀ e ∈ rest, e.before m = false := by
  induction q generalizing m rest with
  | nil => simp [popMin] at h
  | cons e es ih =>
    simp only [popMin] at h
    split at h
    · rename_i hn
      cases h
      simp [popMin_eq_none hn]
    · rename_i m' rest' hs
      obtain ⟨hp, hl⟩ := ih hs
      split at h
      · rename_i hb
        cases h
        refine ⟨.refl _, fun x hx => Bool.eq_false_of_not_eq_true fun hc => ?_⟩
        rcases List.mem_cons.1 (hp.mem_iff.1 hx) with rfl | hx'
        · have := (QueueEntry.before_iff _ _).1 (QueueEntry.before_trans hb hc)
          omega
        · have := QueueEntry.before_trans hc hb
          rw [hl x hx'] at this
          cases this
      · rename_i hb
        cases h
        refine ⟨(hp.cons e).trans (.swap _ _ _), fun x hx => ?_⟩
        rcases List.mem_cons.1 hx with rfl | hx'
        · simpa using hb
        · exact hl x hx'

theorem queueFrom_idx (i : Nat) (ns : List Node) : (queueFrom i ns).map QueueEntry.idx = List.range' i ns.length := by
  induction ns generalizing i with
  | nil => rfl
  | cons n ns ih => simp [queueFrom, ih, List.range'_succ]

theorem queueFrom_length (i : Nat) (ns : List Node) : (queueFrom i ns).length = ns.length := by
  rw [← List.length_map (f := QueueEntry.idx), queueFrom_idx]
  simp

theorem queueFrom_freq (i : Nat) (ns : List Node) : (queueFrom i ns).map QueueEntry.freq = ns.map Node.freq := by
  induction ns generalizing i with
  | nil => rfl
  | cons n ns ih => simp [queueFrom, ih]

theorem mem_queueFrom {i : Nat} {ns : List Node} {e : QueueEntry} (he : e ∈ queueFrom i ns) :
    i ≤ e.idx ∧ ∃ n, ns[e.idx - i]? = some n ∧ n.freq = e.freq := by
  induction ns generalizing i with
  | nil => simp [queueFrom] at he
  | cons n ns ih =>
    simp only [queueFrom, List.mem_cons] at he
    rcases he with rfl | he
    · simp
    · obtain ⟨h1, m, h2, h3⟩ := ih he
      refine ⟨by omega, m, ?_, h3⟩
      rw [show e.idx - i = (e.idx - (i + 1)) + 1 by omega, List.getElem?_cons_succ]
      exact h2

/-! ## An arena that grows by one node -/

theorem getElem?_lt {ns : List Node} {m : Node} {k : Nat} (h : ns[k]? = some m) : k < ns.length :=
  (List.getElem?_eq_some_iff.1 h).1

theorem getElem?_snoc_old {ns : List Node} {n m : Node} {k : Nat} (h : ns[k]? = some m) : (ns ++ [n])[k]? = some m := by
  rwa [List.getElem?_append_left (getElem?_lt h)]

theorem getElem?_snoc_new (ns : List Node) (n : Node) : (ns ++ [n])[ns.length]? = some n := by
  rw [List.getElem?_append_right (le_refl _)]
  simp

theorem Tree.childOf_lt {t : Tree} {j k : Nat} (h : t.ChildOf j k) : k < t.nodes.length := by
  obtain ⟨_, _, _, h, _⟩ := h
  exact getElem?_lt h

theorem childOf_snoc {ns : List Node} {f : NodeFreq} {l r : NodeIndex} {j k : Nat}
    (h : (Tree.mk 0 (ns ++ [.internal f l r])).ChildOf j k) :
    (k < ns.length ∧ (Tree.mk 0 ns).ChildOf j k) ∨ (k = ns.length ∧ (l.toNat = j ∨ r.toNat = j)) := by
  obtain ⟨f', l', r', h, hc⟩ := h
  dsimp only at h
  rcases lt_trichotomy k ns.length with hk | rfl | hk
  · rw [List.getElem?_append_left hk] at h
    exact .inl ⟨hk, f', l', r', h, hc⟩
  · rw [getElem?_snoc_new] at h
    cases h
    exact .inr ⟨rfl, hc⟩
  · have := getElem?_lt h
    simp at this
    omega

theorem childOf_snoc_iff {ns : List Node} {n : Node} {j k : Nat} (hk : k < ns.length) :
    (Tree.mk 0 (ns ++ [n])).ChildOf j k ↔ (Tree.mk 0 ns).ChildOf j k := by
  unfold Tree.ChildOf
  dsimp only
  rw [List.getElem?_append_left hk]

theorem inQueue_snoc_iff {ns : List Node} {n : Node} {j k : Nat} (hk : k ≤ ns.length) :
    (Tree.mk 0 (ns ++ [n])).InQueue k j ↔ (Tree.mk 0 ns).InQueue k j :=
  and_congr_right fun _ => forall₂_congr fun _ hm => not_congr (childOf_snoc_iff (by omega))

theorem keyBefore_snoc_iff {ns : List Node} {n : Node} {i j : Nat} (hi : i < ns.length) (hj : j < ns.length) :
    (Tree.mk 0 (ns ++ [n])).KeyBefore i j ↔ (Tree.mk 0 ns).KeyBefore i j := by
  unfold Tree.KeyBefore
  dsimp only
  rw [List.getElem?_append_left hi, List.getElem?_append_left hj]

/-! ## The merge loop -/

/-- What holds of the arena and the queue between two merges, for the leaves `leafNodes` with frequencies adding up to
`total`. -/
structure MergeInv (leafNodes : List Node) (total : Nat) (nodes : List Node) (q : List QueueEntry) : Prop where
  leavesFirst : leafNodes <+: nodes
  leavesLeaf  : ∀ n ∈ leafNodes, n.isLeaf = true
  idxNodup    : (q.map QueueEntry.idx).Nodup
  entry       : ∀ e ∈ q, ∃ n, nodes[e.idx]? = some n ∧ n.freq = e.freq
  /-- the queue is the nodes that are no node's child -/
  inQueue     : ∀ j, j ∈ q.map QueueEntry.idx ↔ (j < nodes.length ∧ ∀ m, ¬ (Tree.mk 0 nodes).ChildOf j m)
  length      : nodes.length + q.length = 2 * leafNodes.length
  lastInQueue : q ≠ [] → nodes.length - 1 ∈ q.map QueueEntry.idx
  sum         : (q.map fun e => e.freq.toNat).sum = total
  internal    : ∀ k, leafNodes.length ≤ k → k < nodes.length → ∃ f l r a b,
    nodes[k]? = some (.internal f l r) ∧ l.toNat < k ∧ r.toNat < k ∧ l ≠ r ∧
    nodes[l.toNat]? = some a ∧ nodes[r.toNat]? = some b ∧ f.toNat = a.freq.toNat + b.freq.toNat
  oneParent   : ∀ j k k', (Tree.mk 0 nodes).ChildOf j k → (Tree.mk 0 nodes).ChildOf j k' → k = k'
  least       : ∀ k f l r, nodes[k]? = some (.internal f l r) →
    (Tree.mk 0 nodes).InQueue k l.toNat ∧ (Tree.mk 0 nodes).InQueue k r.toNat ∧
    (Tree.mk 0 nodes).KeyBefore l.toNat r.toNat ∧
    ∀ j, (Tree.mk 0 nodes).InQueue k j → j ≠ l.toNat → j ≠ r.toNat → (Tree.mk 0 nodes).KeyBefore r.toNat j

/-- One merge keeps the invariant. -/
theorem MergeInv.merge {leafNodes nodes : List Node} {total : Nat} {q q1 q2 : List QueueEntry} {a b : QueueEntry}
    (hI : MergeInv leafNodes total nodes q) (hL : leafNodes.length ≤ 256) (ht : total < 2 ^ 40)
    (h1 : popMin q = some (a, q1)) (h2 : popMin q1 = some (b, q2)) :
    MergeInv leafNodes total
      (nodes ++ [.internal (a.freq + b.freq) (BitVec.ofNat 9 a.idx) (BitVec.ofNat 9 b.idx)])
      (q2 ++ [⟨a.freq + b.freq, nodes.length⟩]) := by
  obtain ⟨hp1, hl1⟩ := popMin_eq_some h1
  obtain ⟨hp2, hl2⟩ := popMin_eq_some h2
  have hp : List.Perm q (a :: b :: q2) := hp1.trans (hp2.cons a)
  have hpi := hp.map QueueEntry.idx
  have hnd : a.idx ∉ (b :: q2).map QueueEntry.idx ∧ b.idx ∉ q2.map QueueEntry.idx ∧ (q2.map QueueEntry.idx).Nodup := by
    have := hpi.nodup_iff.1 hI.idxNodup
    simp only [List.map_cons, List.nodup_cons] at this ⊢
    exact this
  have hlen := hI.length
  rw [hp.length_eq] at hlen
  simp only [List.length_cons] at hlen
  have hin : ∀ j, j ∈ q.map QueueEntry.idx ↔ j = a.idx ∨ j = b.idx ∨ j ∈ q2.map QueueEntry.idx := by
    intro j
    rw [hpi.mem_iff]
    simp only [List.map_cons, List.mem_cons]
  have haq := (hI.inQueue a.idx).1 ((hin _).2 (.inl rfl))
  have hbq := (hI.inQueue b.idx).1 ((hin _).2 (.inr (.inl rfl)))
  have hta : (BitVec.ofNat 9 a.idx).toNat = a.idx := by
    rw [BitVec.toNat_ofNat]
    omega
  have htb : (BitVec.ofNat 9 b.idx).toNat = b.idx := by
    rw [BitVec.toNat_ofNat]
    omega
  have hab : a.idx ≠ b.idx := fun e => hnd.1 (by simp [e])
  obtain ⟨na, hna, hfa⟩ := hI.entry a (hp.mem_iff.2 (by simp))
  obtain ⟨nb, hnb, hfb⟩ := hI.entry b (hp.mem_iff.2 (by simp))
  have hsum := hI.sum
  rw [(hp.map fun e => e.freq.toNat).sum_eq] at hsum
  simp only [List.map_cons, List.sum_cons] at hsum
  have hadd : (a.freq + b.freq).toNat = a.freq.toNat + b.freq.toNat := by
    rw [BitVec.toNat_add, Nat.mod_eq_of_lt]
    omega
  have hblt : ∀ e ∈ q2, b.before e = true := by
    intro e he
    rcases QueueEntry.before_total b e with h | h | h
    · exact h
    · rw [hl2 e he] at h
      cases h
    · exact absurd (List.mem_map.2 ⟨e, he, h.2.symm⟩) hnd.2.1
  have halt : a.before b = true := by
    rcases QueueEntry.before_total a b with h | h | h
    · exact h
    · rw [hl1 b (hp2.mem_iff.2 (by simp))] at h
      cases h
    · exact absurd h.2 hab
  refine ⟨hI.leavesFirst.trans (List.prefix_append _ _), hI.leavesLeaf, ?_, ?_, ?_, ?_, ?_, ?_, ?_, ?_, ?_⟩
  · rw [List.map_append, List.nodup_append]
    refine ⟨hnd.2.2, by simp, fun x hx y hy => ?_⟩
    simp only [List.map_cons, List.map_nil, List.mem_singleton] at hy
    subst hy
    have := (hI.inQueue x).1 ((hin x).2 (.inr (.inr hx)))
    omega
  · intro e he
    rcases List.mem_append.1 he with he | he
    · obtain ⟨n, hn, hf⟩ := hI.entry e (hp.mem_iff.2 (by simp [he]))
      exact ⟨n, getElem?_snoc_old hn, hf⟩
    · rw [List.mem_singleton] at he
      subst he
      exact ⟨_, getElem?_snoc_new _ _, rfl⟩
  · intro j
    rw [List.map_append, List.mem_append]
    simp only [List.map_cons, List.map_nil, List.mem_singleton, List.length_append, List.length_singleton]
    constructor
    · rintro (h | rfl)
      · obtain ⟨hj, hc⟩ := (hI.inQueue j).1 ((hin j).2 (.inr (.inr h)))
        refine ⟨by omega, fun m hm => ?_⟩
        rcases childOf_snoc hm with ⟨_, hm⟩ | ⟨_, hm⟩
        · exact hc m hm
        · rw [hta, htb] at hm
          rcases hm with rfl | rfl
          · exact hnd.1 (List.mem_cons_of_mem _ h)
          · exact hnd.2.1 h
      · refine ⟨by omega, fun m hm => ?_⟩
        rcases childOf_snoc hm with ⟨hk, f', l', r', h, hm⟩ | ⟨_, hm⟩
        · dsimp only at h
          by_cases hkL : leafNodes.length ≤ m
          · obtain ⟨_, _, _, _, _, e, h3, h4, _⟩ := hI.internal m hkL hk
            rw [e] at h
            cases h
            omega
          · obtain ⟨t, rfl⟩ := hI.leavesFirst
            rw [List.getElem?_append_left (by omega)] at h
            have := hI.leavesLeaf _ (List.mem_of_getElem? h)
            cases this
        · rw [hta, htb] at hm
          omega
    · rintro ⟨hj, hc⟩
      by_cases hjn : j = nodes.length
      · exact .inr hjn
      left
      have old : j ∈ q.map QueueEntry.idx :=
        (hI.inQueue j).2 ⟨by omega, fun m hm => hc m ((childOf_snoc_iff (Tree.childOf_lt hm)).2 hm)⟩
      rcases (hin j).1 old with rfl | rfl | h
      · exact absurd ⟨_, _, _, getElem?_snoc_new _ _, .inl hta⟩ (hc nodes.length)
      · exact absurd ⟨_, _, _, getElem?_snoc_new _ _, .inr htb⟩ (hc nodes.length)
      · exact h
  · simp only [List.length_append, List.length_singleton]
    omega
  · intro _
    simp
  · simp only [List.map_append, List.sum_append, List.map_cons, List.map_nil, List.sum_cons, List.sum_nil, hadd]
    omega
  · intro k hk hkn
    simp only [List.length_append, List.length_singleton] at hkn
    by_cases hkk : k < nodes.length
    · obtain ⟨f, l, r, a', b', h1, h2, h3, h4, h5, h6, h7⟩ := hI.internal k hk hkk
      exact ⟨f, l, r, a', b', getElem?_snoc_old h1, h2, h3, h4, getElem?_snoc_old h5, getElem?_snoc_old h6, h7⟩
    · obtain rfl : k = nodes.length := by omega
      refine ⟨_, _, _, na, nb, getElem?_snoc_new _ _, by omega, by omega, fun e => ?_, ?_, ?_, by rw [hadd, hfa, hfb]⟩
      · have := congrArg BitVec.toNat e
        omega
      · rw [hta]
        exact getElem?_snoc_old hna
      · rw [htb]
        exact getElem?_snoc_old hnb
  · intro j k k' hk hk'
    have key : ∀ m, (Tree.mk 0 nodes).ChildOf j m →
        ((BitVec.ofNat 9 a.idx).toNat = j ∨ (BitVec.ofNat 9 b.idx).toNat = j) → False := by
      intro m hm hh
      rw [hta, htb] at hh
      rcases hh with rfl | rfl
      · exact haq.2 m hm
      · exact hbq.2 m hm
    rcases childOf_snoc hk with ⟨_, h⟩ | ⟨rfl, h⟩ <;> rcases childOf_snoc hk' with ⟨_, h'⟩ | ⟨rfl, h'⟩
    · exact hI.oneParent j k k' h h'
    · exact (key _ h h').elim
    · exact (key _ h' h).elim
    · rfl
  · intro k f l r hk
    by_cases hkk : k < nodes.length
    · rw [List.getElem?_append_left hkk] at hk
      obtain ⟨h1, h2, h3, h4⟩ := hI.least k f l r hk
      have := h1.1
      have := h2.1
      refine ⟨(inQueue_snoc_iff (by omega)).2 h1, (inQueue_snoc_iff (by omega)).2 h2,
        (keyBefore_snoc_iff (by omega) (by omega)).2 h3, fun j hj e1 e2 => ?_⟩
      rw [inQueue_snoc_iff (by omega)] at hj
      have := hj.1
      exact (keyBefore_snoc_iff (by omega) (by omega)).2 (h4 j hj e1 e2)
    · have := getElem?_lt hk
      simp only [List.length_append, List.length_singleton] at this
      obtain rfl : k = nodes.length := by omega
      rw [getElem?_snoc_new] at hk
      cases hk
      rw [hta, htb]
      have iq : ∀ j, (Tree.mk 0 (nodes ++ [.internal (a.freq + b.freq) (BitVec.ofNat 9 a.idx)
          (BitVec.ofNat 9 b.idx)])).InQueue nodes.length j ↔ j ∈ q.map QueueEntry.idx := by
        intro j
        rw [inQueue_snoc_iff (le_refl _), hI.inQueue j]
        exact and_congr_right fun _ => ⟨fun h m hm => h m (Tree.childOf_lt hm) hm, fun h m _ => h m⟩
      refine ⟨(iq _).2 ((hin _).2 (.inl rfl)), (iq _).2 ((hin _).2 (.inr (.inl rfl))),
        ⟨na, nb, getElem?_snoc_old hna, getElem?_snoc_old hnb, ?_⟩, fun j hj e1 e2 => ?_⟩
      · rw [hfa, hfb]
        exact (QueueEntry.before_iff _ _).1 halt
      · rcases (hin j).1 ((iq j).1 hj) with h | h | h
        · exact absurd h e1
        · exact absurd h e2
        · obtain ⟨e, he, rfl⟩ := List.mem_map.1 h
          obtain ⟨n, hn, hf⟩ := hI.entry e (hp.mem_iff.2 (by simp [he]))
          refine ⟨nb, n, getElem?_snoc_old hnb, getElem?_snoc_old hn, ?_⟩
          rw [hfb, hf]
          exact (QueueEntry.before_iff _ _).1 (hblt e he)

/-- With fuel for every merge the loop ends with one queue entry, the root. -/
theorem mergeLoop_ends {leafNodes nodes : List Node} {total : Nat} {q : List QueueEntry} (fuel : Nat)
    (hL : leafNodes.length ≤ 256) (ht : total < 2 ^ 40) (hI : MergeInv leafNodes total nodes q) (hq : q ≠ [])
    (hf : q.length ≤ fuel + 1) :
    ∃ e nodes', mergeLoop fuel nodes q = ⟨BitVec.ofNat 9 e.idx, nodes'⟩ ∧ MergeInv leafNodes total nodes' [e] := by
  induction fuel generalizing nodes q with
  | zero =>
    obtain ⟨e, rfl⟩ : ∃ e, q = [e] := by
      match q, hq, hf with
      | [e], _, _ => exact ⟨e, rfl⟩
      | _ :: _ :: _, _, hf => simp at hf
    exact ⟨e, nodes, by simp [mergeLoop, popMin], hI⟩
  | succ fuel ih =>
    rw [mergeLoop]
    split
    · exact absurd (popMin_eq_none ‹_›) hq
    · rename_i a q1 h1
      obtain ⟨hp1, _⟩ := popMin_eq_some h1
      split
      · rename_i h2
        rw [popMin_eq_none h2] at hp1
        obtain rfl := List.perm_singleton.1 hp1
        exact ⟨a, nodes, rfl, hI⟩
      · rename_i b q2 h2
        obtain ⟨hp2, _⟩ := popMin_eq_some h2
        have := hp1.length_eq
        have := hp2.length_eq
        simp only [List.length_cons] at *
        exact ih (hI.merge hL ht h1 h2) (by simp) (by simp; omega)

theorem leaves_isLeaf (f : FreqTable) : ∀ n ∈ leaves f, n.isLeaf = true := by
  intro n hn
  obtain ⟨x, _, rfl⟩ := List.mem_map.1 hn
  rfl

theorem leaves_length (f : FreqTable) : (leaves f).length = (present f).length := by simp [leaves]

theorem MergeInv.start (f : FreqTable) (hne : present f ≠ []) :
    MergeInv (leaves f) (totalCount f) (leaves f) (queueFrom 0 (leaves f)) := by
  have noInternal : ∀ (k : Nat) (fr : NodeFreq) (l r : NodeIndex), (leaves f)[k]? ≠ some (.internal fr l r) := by
    intro k fr l r h
    have := leaves_isLeaf f _ (List.mem_of_getElem? h)
    cases this
  have noChild : ∀ j k, ¬ (Tree.mk 0 (leaves f)).ChildOf j k := by
    rintro j k ⟨_, _, _, h, _⟩
    exact noInternal _ _ _ _ h
  refine ⟨List.prefix_refl _, leaves_isLeaf f, ?_, fun e he => (mem_queueFrom he).2, ?_, ?_, ?_, ?_, ?_, ?_, ?_⟩
  · rw [queueFrom_idx]
    exact List.nodup_range'
  · intro j
    rw [queueFrom_idx]
    simp only [List.mem_range'_1, Nat.zero_le, true_and, Nat.zero_add]
    exact ⟨fun h => ⟨h, fun m => noChild _ _⟩, fun h => h.1⟩
  · rw [queueFrom_length]
    omega
  · intro _
    have := List.length_pos_iff.2 hne
    rw [queueFrom_idx, List.mem_range'_1, leaves_length]
    omega
  · have hf := congrArg (fun l => (l.map BitVec.toNat).sum) (queueFrom_freq 0 (leaves f))
    simp only [List.map_map] at hf
    show ((queueFrom 0 (leaves f)).map (BitVec.toNat ∘ QueueEntry.freq)).sum = _
    rw [hf, ← sum_present]
    simp only [leaves, List.map_map]
    congr 1
  · intro k h1 h2
    omega
  · intro j k k' h
    exact (noChild _ _ h).elim
  · intro k fr l r h
    exact (noInternal _ _ _ _ h).elim

/-- `build` on a table that is not empty: the invariant with one queue entry left, which is the root. -/
theorem build_mergeInv (f : FreqTable) (hne : present f ≠ []) :
    ∃ e, (build f).root = BitVec.ofNat 9 e.idx ∧ MergeInv (leaves f) (totalCount f) (build f).nodes [e] := by
  obtain ⟨e, ns, h, hI⟩ := mergeLoop_ends (leaves f).length (by rw [leaves_length]; exact present_length_le f)
    (totalCount_lt f) (MergeInv.start f hne)
    (by
      intro h
      have := queueFrom_length 0 (leaves f)
      rw [h, leaves_length] at this
      exact hne (List.length_eq_zero_iff.1 this.symm))
    (by rw [queueFrom_length]; omega)
  have hb : build f = ⟨BitVec.ofNat 9 e.idx, ns⟩ := h
  exact ⟨e, by rw [hb], by rw [hb]; exact hI⟩

/-- The size and the root of a built tree (41_tree_builder.md R126 points 1 and 2). -/
theorem build_size {f : FreqTable} (hne : present f ≠ []) :
    (build f).count = 2 * (present f).length - 1 ∧ (build f).root.toNat = 2 * (present f).length - 2 := by
  obtain ⟨e, hr, hI⟩ := build_mergeInv f hne
  have h1 := hI.length
  rw [leaves_length, List.length_singleton] at h1
  have h2 := hI.lastInQueue (by simp)
  simp only [List.map_cons, List.map_nil, List.mem_singleton] at h2
  have := present_length_le f
  have := List.length_pos_iff.2 hne
  refine ⟨by unfold Tree.count; omega, ?_⟩
  rw [hr, BitVec.toNat_ofNat]
  omega

/-- A Leaf of a built tree: one per present symbol, in ascending order, with its counter (41_tree_builder.md R122). -/
theorem build_leaf_iff {f : FreqTable} (hne : present f ≠ []) {k : Nat} {x : Byte} {fr : NodeFreq} :
    (build f).nodes[k]? = some (.leaf x fr) ↔ (present f)[k]? = some x ∧ fr = (countOf f x).setWidth 40 := by
  obtain ⟨e, _, hI⟩ := build_mergeInv f hne
  obtain ⟨rest, hrest⟩ := hI.leavesFirst
  by_cases hk : k < (present f).length
  · rw [← hrest, List.getElem?_append_left (by rw [leaves_length]; exact hk)]
    simp only [leaves, List.getElem?_map, List.getElem?_eq_getElem hk, Option.map_some, Option.some.injEq, Node.leaf.injEq]
    constructor
    · rintro ⟨rfl, rfl⟩
      exact ⟨rfl, rfl⟩
    · rintro ⟨rfl, rfl⟩
      exact ⟨rfl, rfl⟩
  · rw [List.getElem?_eq_none (by omega : (present f).length ≤ k)]
    simp only [reduceCtorEq, false_and, iff_false]
    intro h
    obtain ⟨_, _, _, _, _, h', _⟩ := hI.internal k (by rw [leaves_length]; omega) (getElem?_lt h)
    rw [h] at h'
    cases h'

/-- An Internal node of a built tree (41_tree_builder.md R126 points 3 and 4). -/
theorem build_internal {f : FreqTable} (hne : present f ≠ []) {k : Nat} {fr : NodeFreq} {l r : NodeIndex}
    (h : (build f).nodes[k]? = some (.internal fr l r)) :
    (present f).length ≤ k ∧ k < (build f).count ∧ l.toNat < k ∧ r.toNat < k ∧ l ≠ r := by
  obtain ⟨e, _, hI⟩ := build_mergeInv f hne
  have hk := getElem?_lt h
  have hL : (present f).length ≤ k := by
    by_contra hc
    have := (build_leaf_iff hne).2 ⟨List.getElem?_eq_getElem (Nat.lt_of_not_le hc), rfl⟩
    rw [h] at this
    cases this
  obtain ⟨_, _, _, _, _, h', h1, h2, h3, _⟩ := hI.internal k (by rw [leaves_length]; exact hL) hk
  rw [h] at h'
  cases h'
  exact ⟨hL, hk, h1, h2, h3⟩

/-- Every node of a built tree but the root has a parent (41_tree_builder.md R126 point 3). -/
theorem build_parent {f : FreqTable} (hne : present f ≠ []) {j : Nat} (hj : j < (build f).count)
    (hr : j ≠ (build f).root.toNat) : ∃ k, (build f).ChildOf j k := by
  obtain ⟨e, _, hI⟩ := build_mergeInv f hne
  by_contra hc
  have : j ∈ [e].map QueueEntry.idx := (hI.inQueue j).2 ⟨hj, fun m hm => hc ⟨m, hm⟩⟩
  have h1 := hI.length
  rw [leaves_length, List.length_singleton] at h1
  have h2 := hI.lastInQueue (by simp)
  simp only [List.map_cons, List.map_nil, List.mem_singleton] at this h2
  have := (build_size hne).2
  omega

/-- No node of a built tree has two parents (41_tree_builder.md R126 point 3). -/
theorem build_parent_unique {f : FreqTable} (hne : present f ≠ []) {j k k' : Nat} (h : (build f).ChildOf j k)
    (h' : (build f).ChildOf j k') : k = k' := by
  obtain ⟨e, _, hI⟩ := build_mergeInv f hne
  exact hI.oneParent j k k' h h'

/-- The root counts every symbol (41_tree_builder.md R126 point 4). -/
theorem build_rootFreq {f : FreqTable} (hne : present f ≠ []) : (build f).rootFreq = totalCount f := by
  obtain ⟨e, _, hI⟩ := build_mergeInv f hne
  obtain ⟨n, hn, hf⟩ := hI.entry e (by simp)
  have hs := hI.sum
  simp only [List.map_cons, List.map_nil, List.sum_cons, List.sum_nil, Nat.add_zero] at hs
  have h1 := hI.length
  rw [leaves_length, List.length_singleton] at h1
  have h2 := hI.lastInQueue (by simp)
  simp only [List.map_cons, List.map_nil, List.mem_singleton] at h2
  have hroot : (build f).node? (build f).root = some n := by
    unfold Tree.node?
    rw [(build_size hne).2, show 2 * (present f).length - 2 = e.idx by omega]
    exact hn
  unfold Tree.rootFreq
  rw [hroot]
  show n.freq.toNat = _
  rw [hf, hs]

end Sys2Proof.Machine
end

