-- ==== Sys2Proof/Laws/Codes.lean ====
section
/-! SUPPORT. Paths in a built tree and what `derive` makes of them (42_code_table.md R140 to R145). Each lemma is about
`build f` for a table `f` that is not empty. -/

namespace Sys2Proof.Machine

/-- The index a path from node `i` leads to; `Tree.follow` reads the node there. -/
def Tree.target (t : Tree) (i : NodeIndex) (p : List Bool) : Option NodeIndex :=
  match p with
  | [] => some i
  | b :: rest =>
    match t.node? i with
    | some (.internal _ l r) => t.target (if b then r else l) rest
    | _ => none

theorem Tree.follow_eq_target (t : Tree) (i : NodeIndex) (p : List Bool) :
    t.follow i p = (t.target i p).bind t.node? := by
  induction p generalizing i with
  | nil => rfl
  | cons b p ih =>
    simp only [Tree.follow, Tree.target]
    rcases h : t.node? i with _ | _ | _
    · rfl
    · rfl
    · exact ih _

theorem Tree.target_append (t : Tree) (i : NodeIndex) (p q : List Bool) :
    t.target i (p ++ q) = (t.target i p).bind fun j => t.target j q := by
  induction p generalizing i with
  | nil => rfl
  | cons b p ih =>
    simp only [List.cons_append, Tree.target]
    rcases h : t.node? i with _ | _ | _
    · rfl
    · rfl
    · exact ih _

theorem Tree.follow_append (t : Tree) (i : NodeIndex) (p q : List Bool) :
    t.follow i (p ++ q) = (t.target i p).bind fun j => t.follow j q := by
  rw [follow_eq_target, target_append, Option.bind_assoc]
  congr 1
  funext j
  rw [follow_eq_target]

theorem Tree.target_snoc {t : Tree} {i j : NodeIndex} {p : List Bool} {b : Bool} (h : t.target i (p ++ [b]) = some j) :
    ∃ k fr l r, t.target i p = some k ∧ t.node? k = some (.internal fr l r) ∧ j = if b then r else l := by
  rw [target_append, Option.bind_eq_some_iff] at h
  obtain ⟨k, hk, h⟩ := h
  simp only [Tree.target] at h
  split at h
  · rename_i hn
    exact ⟨k, _, _, _, hk, hn, (Option.some.inj h).symm⟩
  · cases h

variable {f : FreqTable}

theorem present_index_unique {a b : Nat} {x : Byte} (ha : (present f)[a]? = some x) (hb : (present f)[b]? = some x) :
    a = b := by
  obtain ⟨ha', ha⟩ := List.getElem?_eq_some_iff.1 ha
  obtain ⟨hb', hb⟩ := List.getElem?_eq_some_iff.1 hb
  exact (present_nodup f).getElem_inj_iff.1 (ha.trans hb.symm)

/-- A path goes down in the arena. -/
theorem target_lt (hne : present f ≠ []) {i j : NodeIndex} {p : List Bool} (h : (build f).target i p = some j)
    (hp : p ≠ []) : j.toNat < i.toNat := by
  induction p generalizing i with
  | nil => exact absurd rfl hp
  | cons b p ih =>
    simp only [Tree.target] at h
    split at h
    · rename_i fr l r hn
      obtain ⟨_, _, h1, h2, _⟩ := build_internal hne hn
      have hc : (if b then r else l).toNat < i.toNat := by split <;> assumption
      by_cases hp' : p = []
      · subst hp'
        cases h
        exact hc
      · exact (ih h hp').trans hc
    · cases h

/-- No two paths from a node lead to the same node: a tree has no sharing and no cycle (41_tree_builder.md R126). -/
theorem target_inj (hne : present f ≠ []) {i j : NodeIndex} {p q : List Bool} (hp : (build f).target i p = some j)
    (hq : (build f).target i q = some j) : p = q := by
  induction p using List.reverseRecOn generalizing j q with
  | nil =>
    cases hp
    by_contra hc
    exact absurd (target_lt hne hq (Ne.symm hc)) (lt_irrefl _)
  | append_singleton p b ih =>
    rcases List.eq_nil_or_concat q with rfl | ⟨q, c, rfl⟩
    · cases hq
      exact absurd (target_lt hne hp (by simp)) (lt_irrefl _)
    · rw [List.concat_eq_append] at *
      obtain ⟨k, fr, l, r, h1, h2, h3⟩ := Tree.target_snoc hp
      obtain ⟨k', fr', l', r', h1', h2', h3'⟩ := Tree.target_snoc hq
      have c1 : (build f).ChildOf j.toNat k.toNat := ⟨fr, l, r, h2, by rw [h3]; cases b <;> simp⟩
      have c2 : (build f).ChildOf j.toNat k'.toNat := ⟨fr', l', r', h2', by rw [h3']; cases c <;> simp⟩
      have hk : k = k' := BitVec.eq_of_toNat_eq (build_parent_unique hne c1 c2)
      subst hk
      rw [h2] at h2'
      cases h2'
      obtain ⟨_, _, _, _, hlr⟩ := build_internal hne h2
      rw [h3] at h3'
      have hbc : b = c := by cases b <;> cases c <;> simp_all
      rw [hbc, ih h1 h1']

/-- Where a path to a Leaf ends. -/
theorem follow_leaf (hne : present f ≠ []) {i : NodeIndex} {p : List Bool} {x : Byte} {fr : NodeFreq}
    (h : (build f).follow i p = some (.leaf x fr)) :
    ∃ j, (build f).target i p = some j ∧ (present f)[j.toNat]? = some x ∧ fr = (countOf f x).setWidth 40 := by
  rw [Tree.follow_eq_target, Option.bind_eq_some_iff] at h
  obtain ⟨j, hj, h⟩ := h
  exact ⟨j, hj, (build_leaf_iff hne).1 h⟩

/-- A symbol has one path from a node (42_code_table.md R141). -/
theorem follow_leaf_inj (hne : present f ≠ []) {i : NodeIndex} {p q : List Bool} {x : Byte} {fr fr' : NodeFreq}
    (hp : (build f).follow i p = some (.leaf x fr)) (hq : (build f).follow i q = some (.leaf x fr')) : p = q := by
  obtain ⟨a, ha, ha', _⟩ := follow_leaf hne hp
  obtain ⟨b, hb, hb', _⟩ := follow_leaf hne hq
  have hab : a = b := BitVec.eq_of_toNat_eq (present_index_unique ha' hb')
  subst hab
  exact target_inj hne ha hb

/-- Every node is reached from the root. -/
theorem target_root (hne : present f ≠ []) (d : Nat) :
    ∀ j : NodeIndex, (build f).root.toNat = j.toNat + d → ∃ p, (build f).target (build f).root p = some j := by
  induction d using Nat.strong_induction_on with
  | _ d ih =>
    intro j hj
    by_cases hd : d = 0
    · exact ⟨[], congrArg some (BitVec.eq_of_toNat_eq (by omega))⟩
    · have hs := build_size hne
      obtain ⟨k, fr, l, r, hk, hlr⟩ := build_parent hne (j := j.toNat) (by omega) (by omega)
      obtain ⟨_, hkc, hl, hr, _⟩ := build_internal hne hk
      have hjk : j.toNat < k := by rcases hlr with h | h <;> omega
      have hk9 : (BitVec.ofNat 9 k).toNat = k := by
        have := (build f).root.isLt
        rw [BitVec.toNat_ofNat]
        omega
      obtain ⟨p, hp⟩ := ih ((build f).root.toNat - k) (by omega) (BitVec.ofNat 9 k) (by omega)
      have hn : (build f).node? (BitVec.ofNat 9 k) = some (.internal fr l r) := by
        unfold Tree.node?
        rw [hk9]
        exact hk
      rcases hlr with h | h
      · refine ⟨p ++ [false], ?_⟩
        rw [Tree.target_append, hp]
        simp only [Option.bind_some, Tree.target, hn, Bool.false_eq_true, if_false, Option.some.injEq]
        exact BitVec.eq_of_toNat_eq h
      · refine ⟨p ++ [true], ?_⟩
        rw [Tree.target_append, hp]
        simp only [Option.bind_some, Tree.target, hn, if_true, Option.some.injEq]
        exact BitVec.eq_of_toNat_eq h

/-- Every present symbol has a path from the root (41_tree_builder.md R126 point 5). -/
theorem follow_present {x : Byte} (hx : x ∈ present f) :
    ∃ p, (build f).follow (build f).root p = some (.leaf x ((countOf f x).setWidth 40)) := by
  have hne := List.ne_nil_of_mem hx
  obtain ⟨k, hk, hx'⟩ := List.getElem_of_mem hx
  have hs := build_size hne
  have hk9 : (BitVec.ofNat 9 k).toNat = k := by
    have := (build f).root.isLt
    rw [BitVec.toNat_ofNat]
    omega
  obtain ⟨p, hp⟩ := target_root hne ((build f).root.toNat - k) (BitVec.ofNat 9 k) (by omega)
  refine ⟨p, ?_⟩
  rw [Tree.follow_eq_target, hp]
  show (build f).nodes[(BitVec.ofNat 9 k).toNat]? = _
  rw [hk9]
  exact (build_leaf_iff hne).2 ⟨by rw [List.getElem?_eq_getElem hk, hx'], rfl⟩

/-- A path to a Leaf takes one Internal node a bit (41_tree_builder.md R126 point 6). -/
theorem follow_length (hne : present f ≠ []) {i : NodeIndex} {p : List Bool} {x : Byte} {fr : NodeFreq}
    (h : (build f).follow i p = some (.leaf x fr)) : p.length ≤ i.toNat + 1 - (present f).length := by
  induction p generalizing i with
  | nil => simp
  | cons b p ih =>
    simp only [Tree.follow] at h
    split at h
    · rename_i _ l r hn
      obtain ⟨h0, _, h1, h2, _⟩ := build_internal hne hn
      have := ih h
      have hc : (if b then r else l).toNat < i.toNat := by split <;> assumption
      simp only [List.length_cons]
      omega
    · cases h

/-- The walk of `derive` gives each symbol below node `i` its path, appended to `p`, and leaves the other codes
(42_code_table.md R141). -/
theorem deriveWalk_spec (hne : present f ≠ []) (fuel : Nat) : ∀ (i : NodeIndex) (p : List Bool) (c : CodeTable),
    i.toNat < (build f).count → i.toNat < fuel → ∀ x,
    (∀ q fr, (build f).follow i q = some (.leaf x fr) → codeOf (deriveWalk (build f) fuel i p c) x = p ++ q) ∧
    ((∀ q fr, (build f).follow i q ≠ some (.leaf x fr)) → codeOf (deriveWalk (build f) fuel i p c) x = codeOf c x) := by
  induction fuel with
  | zero =>
    intro i p c _ h
    omega
  | succ fuel ih =>
    intro i p c hi hf x
    obtain ⟨n, hn⟩ : ∃ n, (build f).node? i = some n := ⟨_, List.getElem?_eq_getElem hi⟩
    simp only [deriveWalk, hn]
    cases n with
    | leaf s fr =>
      have hroot : (build f).follow i [] = some (.leaf s fr) := hn
      constructor
      · intro q fr' hq
        have hq0 := follow_leaf hne hq
        cases q with
        | nil =>
          rw [hroot] at hq
          cases hq
          simp [codeOf_setCode]
        | cons b q => simp [Tree.follow, hn] at hq
      · intro h
        have hxs : x ≠ s := by
          rintro rfl
          exact h _ _ hroot
        simp [codeOf_setCode, hxs]
    | internal fr l r =>
      obtain ⟨_, _, h1, h2, _⟩ := build_internal hne hn
      have hL := ih l (p ++ [false]) c (by omega) (by omega) x
      have hR := ih r (p ++ [true]) (deriveWalk (build f) fuel l (p ++ [false]) c) (by omega) (by omega) x
      have goL : ∀ q, (build f).follow i (false :: q) = (build f).follow l q := fun q => by simp [Tree.follow, hn]
      have goR : ∀ q, (build f).follow i (true :: q) = (build f).follow r q := fun q => by simp [Tree.follow, hn]
      dsimp only
      constructor
      · intro q fr'' hq
        cases q with
        | nil =>
          rw [Tree.follow, hn] at hq
          cases hq
        | cons b q =>
          cases b with
          | true =>
            rw [goR] at hq
            rw [hR.1 q _ hq, List.append_assoc]
            rfl
          | false =>
            have notRight : ∀ q' fr, (build f).follow r q' ≠ some (.leaf x fr) := by
              intro q' _ h'
              have := follow_leaf_inj hne hq ((goR q').trans h')
              cases this
            rw [goL] at hq
            rw [hR.2 notRight, hL.1 q _ hq, List.append_assoc]
            rfl
      · intro h
        rw [hR.2 (fun q fr h' => h _ _ ((goR q).trans h')), hL.2 (fun q fr h' => h _ _ ((goL q).trans h'))]

/-- With two symbols or more the root is Internal. -/
theorem build_root_internal (h : 2 ≤ (present f).length) :
    ∃ fr l r, (build f).node? (build f).root = some (.internal fr l r) := by
  have hne : present f ≠ [] := fun e => by simp [e] at h
  have hs := build_size hne
  obtain ⟨e, _, hI⟩ := build_mergeInv f hne
  obtain ⟨fr, l, r, _, _, h', _⟩ := hI.internal (build f).root.toNat (by rw [leaves_length]; omega)
    (by unfold Tree.count at hs; omega)
  exact ⟨fr, l, r, h'⟩

/-- With one symbol the root is its Leaf (41_tree_builder.md R125). -/
theorem build_root_leaf {x : Byte} (h : present f = [x]) :
    (build f).node? (build f).root = some (.leaf x ((countOf f x).setWidth 40)) := by
  have hne : present f ≠ [] := by simp [h]
  have hs := (build_size hne).2
  unfold Tree.node?
  rw [hs, h]
  exact (build_leaf_iff hne).2 ⟨by rw [h]; rfl, rfl⟩

/-- The code of a symbol of two or more is its path; a symbol that is not present has none (42_code_table.md R141). -/
theorem derive_path (h2 : 2 ≤ (present f).length) (x : Byte) :
    (∀ q fr, (build f).follow (build f).root q = some (.leaf x fr) → codeOf (derive (build f)) x = q) ∧
    (x ∉ present f → codeOf (derive (build f)) x = []) := by
  have hne : present f ≠ [] := fun e => by simp [e] at h2
  obtain ⟨fr, l, r, hr⟩ := build_root_internal h2
  have hs := build_size hne
  have hlt : (build f).root.toNat < (build f).count := by omega
  have hd : derive (build f) = deriveWalk (build f) (build f).count (build f).root [] noCodes := by simp [derive, hr]
  have hw := deriveWalk_spec hne (build f).count (build f).root [] noCodes hlt hlt x
  rw [hd]
  refine ⟨fun q fr hq => hw.1 q fr hq, fun hx => ?_⟩
  rw [hw.2 ?_, codeOf_noCodes]
  intro q fr hq
  obtain ⟨j, _, hj, _⟩ := follow_leaf hne hq
  exact hx (List.mem_of_getElem? hj)

/-- The code of a symbol that is alone is "0" (42_code_table.md R143). -/
theorem derive_single {x : Byte} (h : present f = [x]) (y : Byte) :
    codeOf (derive (build f)) y = if y = x then [false] else [] := by
  have hd : derive (build f) = setCode noCodes x [false] := by simp [derive, build_root_leaf h]
  rw [hd, codeOf_setCode, codeOf_noCodes]

theorem one_or_more_symbols (hne : present f ≠ []) : (∃ x, present f = [x]) ∨ 2 ≤ (present f).length := by
  match h : present f, hne with
  | [x], _ => exact .inl ⟨x, rfl⟩
  | x :: y :: l, _ =>
    right
    simp

/-- The symbols with a code are the present ones. -/
theorem code_ne_nil_iff (hne : present f ≠ []) (x : Byte) : codeOf (derive (build f)) x ≠ [] ↔ x ∈ present f := by
  rcases one_or_more_symbols hne with ⟨y, hy⟩ | h2
  · rw [derive_single hy, hy]
    by_cases h : x = y <;> simp [h]
  · refine ⟨fun h => by_contra fun hx => h ((derive_path h2 x).2 hx), fun hx => ?_⟩
    obtain ⟨p, hp⟩ := follow_present hx
    rw [(derive_path h2 x).1 p _ hp]
    rintro rfl
    obtain ⟨fr, l, r, hr⟩ := build_root_internal h2
    rw [Tree.follow, hr] at hp
    cases hp

/-- With two symbols or more a code leads from the root to its symbol's Leaf. -/
theorem target_code (h2 : 2 ≤ (present f).length) {x : Byte} (hx : x ∈ present f) :
    ∃ j fr, (build f).target (build f).root (codeOf (derive (build f)) x) = some j ∧
      (build f).node? j = some (.leaf x fr) := by
  obtain ⟨p, hp⟩ := follow_present hx
  rw [(derive_path h2 x).1 p _ hp]
  rw [Tree.follow_eq_target, Option.bind_eq_some_iff] at hp
  obtain ⟨j, h1, h3⟩ := hp
  exact ⟨j, _, h1, h3⟩

end Sys2Proof.Machine
end

