-- ==== Sys2Proof/Laws/State.lean ====
section
/-! SUPPORT. The small lemmas of the updates of State: one per field and update, true by unfolding. -/

namespace Sys2Proof.Machine

/-! `State.syncIrq` writes IRQ only (10_state.md R42). -/

@[simp] theorem State.syncIrq_seq (s : State) : s.syncIrq.seq = s.seq := rfl
@[simp] theorem State.syncIrq_irqEn (s : State) : s.syncIrq.irqEn = s.irqEn := rfl
@[simp] theorem State.syncIrq_done (s : State) : s.syncIrq.done = s.done := rfl
@[simp] theorem State.syncIrq_err (s : State) : s.syncIrq.err = s.err := rfl
@[simp] theorem State.syncIrq_ignored (s : State) : s.syncIrq.ignored = s.ignored := rfl
@[simp] theorem State.syncIrq_errCode (s : State) : s.syncIrq.errCode = s.errCode := rfl
@[simp] theorem State.syncIrq_inLen (s : State) : s.syncIrq.inLen = s.inLen := rfl
@[simp] theorem State.syncIrq_outLen (s : State) : s.syncIrq.outLen = s.outLen := rfl
@[simp] theorem State.syncIrq_bitCount (s : State) : s.syncIrq.bitCount = s.bitCount := rfl
@[simp] theorem State.syncIrq_freq (s : State) : s.syncIrq.freq = s.freq := rfl
@[simp] theorem State.syncIrq_tree (s : State) : s.syncIrq.tree = s.tree := rfl
@[simp] theorem State.syncIrq_code (s : State) : s.syncIrq.code = s.code := rfl
@[simp] theorem State.syncIrq_inp (s : State) : s.syncIrq.inp = s.inp := rfl
@[simp] theorem State.syncIrq_out (s : State) : s.syncIrq.out = s.out := rfl
@[simp] theorem State.syncIrq_irq (s : State) : s.syncIrq.irq = (s.done && s.irqEn) := rfl
@[simp] theorem State.syncIrq_inCap (s : State) : s.syncIrq.inCap = s.inCap := rfl
@[simp] theorem State.syncIrq_outCap (s : State) : s.syncIrq.outCap = s.outCap := rfl
@[simp] theorem State.syncIrq_draws (s : State) : s.syncIrq.draws = s.draws := rfl
@[simp] theorem State.syncIrq_reads (s : State) : s.syncIrq.reads = s.reads := rfl
@[simp] theorem State.syncIrq_agenda (s : State) : s.syncIrq.agenda = s.agenda := rfl

/-! `State.ignore` sets IGNORED only (10_state.md R26). -/

@[simp] theorem State.ignore_seq (s : State) : s.ignore.seq = s.seq := rfl
@[simp] theorem State.ignore_irqEn (s : State) : s.ignore.irqEn = s.irqEn := rfl
@[simp] theorem State.ignore_done (s : State) : s.ignore.done = s.done := rfl
@[simp] theorem State.ignore_err (s : State) : s.ignore.err = s.err := rfl
@[simp] theorem State.ignore_ignored (s : State) : s.ignore.ignored = true := rfl
@[simp] theorem State.ignore_errCode (s : State) : s.ignore.errCode = s.errCode := rfl
@[simp] theorem State.ignore_inLen (s : State) : s.ignore.inLen = s.inLen := rfl
@[simp] theorem State.ignore_outLen (s : State) : s.ignore.outLen = s.outLen := rfl
@[simp] theorem State.ignore_bitCount (s : State) : s.ignore.bitCount = s.bitCount := rfl
@[simp] theorem State.ignore_freq (s : State) : s.ignore.freq = s.freq := rfl
@[simp] theorem State.ignore_tree (s : State) : s.ignore.tree = s.tree := rfl
@[simp] theorem State.ignore_code (s : State) : s.ignore.code = s.code := rfl
@[simp] theorem State.ignore_inp (s : State) : s.ignore.inp = s.inp := rfl
@[simp] theorem State.ignore_out (s : State) : s.ignore.out = s.out := rfl
@[simp] theorem State.ignore_irq (s : State) : s.ignore.irq = s.irq := rfl
@[simp] theorem State.ignore_inCap (s : State) : s.ignore.inCap = s.inCap := rfl
@[simp] theorem State.ignore_outCap (s : State) : s.ignore.outCap = s.outCap := rfl
@[simp] theorem State.ignore_draws (s : State) : s.ignore.draws = s.draws := rfl
@[simp] theorem State.ignore_reads (s : State) : s.ignore.reads = s.reads := rfl
@[simp] theorem State.ignore_agenda (s : State) : s.ignore.agenda = s.agenda := rfl

/-! `State.writeCtrl` writes IRQ_EN and IRQ only (10_state.md R25, R42). -/

@[simp] theorem State.writeCtrl_seq (s : State) (v : Word) : (s.writeCtrl v).seq = s.seq := rfl
@[simp] theorem State.writeCtrl_irqEn (s : State) (v : Word) : (s.writeCtrl v).irqEn = v.getLsbD 0 := rfl
@[simp] theorem State.writeCtrl_done (s : State) (v : Word) : (s.writeCtrl v).done = s.done := rfl
@[simp] theorem State.writeCtrl_err (s : State) (v : Word) : (s.writeCtrl v).err = s.err := rfl
@[simp] theorem State.writeCtrl_ignored (s : State) (v : Word) : (s.writeCtrl v).ignored = s.ignored := rfl
@[simp] theorem State.writeCtrl_errCode (s : State) (v : Word) : (s.writeCtrl v).errCode = s.errCode := rfl
@[simp] theorem State.writeCtrl_inLen (s : State) (v : Word) : (s.writeCtrl v).inLen = s.inLen := rfl
@[simp] theorem State.writeCtrl_outLen (s : State) (v : Word) : (s.writeCtrl v).outLen = s.outLen := rfl
@[simp] theorem State.writeCtrl_bitCount (s : State) (v : Word) : (s.writeCtrl v).bitCount = s.bitCount := rfl
@[simp] theorem State.writeCtrl_freq (s : State) (v : Word) : (s.writeCtrl v).freq = s.freq := rfl
@[simp] theorem State.writeCtrl_tree (s : State) (v : Word) : (s.writeCtrl v).tree = s.tree := rfl
@[simp] theorem State.writeCtrl_code (s : State) (v : Word) : (s.writeCtrl v).code = s.code := rfl
@[simp] theorem State.writeCtrl_inp (s : State) (v : Word) : (s.writeCtrl v).inp = s.inp := rfl
@[simp] theorem State.writeCtrl_out (s : State) (v : Word) : (s.writeCtrl v).out = s.out := rfl
@[simp] theorem State.writeCtrl_irq (s : State) (v : Word) : (s.writeCtrl v).irq = (s.done && v.getLsbD 0) := rfl
@[simp] theorem State.writeCtrl_inCap (s : State) (v : Word) : (s.writeCtrl v).inCap = s.inCap := rfl
@[simp] theorem State.writeCtrl_outCap (s : State) (v : Word) : (s.writeCtrl v).outCap = s.outCap := rfl
@[simp] theorem State.writeCtrl_draws (s : State) (v : Word) : (s.writeCtrl v).draws = s.draws := rfl
@[simp] theorem State.writeCtrl_reads (s : State) (v : Word) : (s.writeCtrl v).reads = s.reads := rfl
@[simp] theorem State.writeCtrl_agenda (s : State) (v : Word) : (s.writeCtrl v).agenda = s.agenda := rfl

/-! `State.writeStatus` writes DONE, ERR, IGNORED and IRQ only (20_memory.md R64). -/

@[simp] theorem State.writeStatus_seq (s : State) (v : Word) : (s.writeStatus v).seq = s.seq := rfl
@[simp] theorem State.writeStatus_irqEn (s : State) (v : Word) : (s.writeStatus v).irqEn = s.irqEn := rfl
@[simp] theorem State.writeStatus_done (s : State) (v : Word) : (s.writeStatus v).done = (s.done && !v.getLsbD 1) := rfl
@[simp] theorem State.writeStatus_err (s : State) (v : Word) : (s.writeStatus v).err = (s.err && !v.getLsbD 2) := rfl
@[simp] theorem State.writeStatus_ignored (s : State) (v : Word) : (s.writeStatus v).ignored = (s.ignored && !v.getLsbD 5) := rfl
@[simp] theorem State.writeStatus_errCode (s : State) (v : Word) : (s.writeStatus v).errCode = s.errCode := rfl
@[simp] theorem State.writeStatus_inLen (s : State) (v : Word) : (s.writeStatus v).inLen = s.inLen := rfl
@[simp] theorem State.writeStatus_outLen (s : State) (v : Word) : (s.writeStatus v).outLen = s.outLen := rfl
@[simp] theorem State.writeStatus_bitCount (s : State) (v : Word) : (s.writeStatus v).bitCount = s.bitCount := rfl
@[simp] theorem State.writeStatus_freq (s : State) (v : Word) : (s.writeStatus v).freq = s.freq := rfl
@[simp] theorem State.writeStatus_tree (s : State) (v : Word) : (s.writeStatus v).tree = s.tree := rfl
@[simp] theorem State.writeStatus_code (s : State) (v : Word) : (s.writeStatus v).code = s.code := rfl
@[simp] theorem State.writeStatus_inp (s : State) (v : Word) : (s.writeStatus v).inp = s.inp := rfl
@[simp] theorem State.writeStatus_out (s : State) (v : Word) : (s.writeStatus v).out = s.out := rfl
@[simp] theorem State.writeStatus_irq (s : State) (v : Word) : (s.writeStatus v).irq = ((s.done && !v.getLsbD 1) && s.irqEn) := rfl
@[simp] theorem State.writeStatus_inCap (s : State) (v : Word) : (s.writeStatus v).inCap = s.inCap := rfl
@[simp] theorem State.writeStatus_outCap (s : State) (v : Word) : (s.writeStatus v).outCap = s.outCap := rfl
@[simp] theorem State.writeStatus_draws (s : State) (v : Word) : (s.writeStatus v).draws = s.draws := rfl
@[simp] theorem State.writeStatus_reads (s : State) (v : Word) : (s.writeStatus v).reads = s.reads := rfl
@[simp] theorem State.writeStatus_agenda (s : State) (v : Word) : (s.writeStatus v).agenda = s.agenda := rfl

/-! `State.clearTables` writes TREE and CODE only. -/

@[simp] theorem State.clearTables_seq (s : State) : s.clearTables.seq = s.seq := rfl
@[simp] theorem State.clearTables_irqEn (s : State) : s.clearTables.irqEn = s.irqEn := rfl
@[simp] theorem State.clearTables_done (s : State) : s.clearTables.done = s.done := rfl
@[simp] theorem State.clearTables_err (s : State) : s.clearTables.err = s.err := rfl
@[simp] theorem State.clearTables_ignored (s : State) : s.clearTables.ignored = s.ignored := rfl
@[simp] theorem State.clearTables_errCode (s : State) : s.clearTables.errCode = s.errCode := rfl
@[simp] theorem State.clearTables_inLen (s : State) : s.clearTables.inLen = s.inLen := rfl
@[simp] theorem State.clearTables_outLen (s : State) : s.clearTables.outLen = s.outLen := rfl
@[simp] theorem State.clearTables_bitCount (s : State) : s.clearTables.bitCount = s.bitCount := rfl
@[simp] theorem State.clearTables_freq (s : State) : s.clearTables.freq = s.freq := rfl
@[simp] theorem State.clearTables_tree (s : State) : s.clearTables.tree = none := rfl
@[simp] theorem State.clearTables_code (s : State) : s.clearTables.code = none := rfl
@[simp] theorem State.clearTables_inp (s : State) : s.clearTables.inp = s.inp := rfl
@[simp] theorem State.clearTables_out (s : State) : s.clearTables.out = s.out := rfl
@[simp] theorem State.clearTables_irq (s : State) : s.clearTables.irq = s.irq := rfl
@[simp] theorem State.clearTables_inCap (s : State) : s.clearTables.inCap = s.inCap := rfl
@[simp] theorem State.clearTables_outCap (s : State) : s.clearTables.outCap = s.outCap := rfl
@[simp] theorem State.clearTables_draws (s : State) : s.clearTables.draws = s.draws := rfl
@[simp] theorem State.clearTables_reads (s : State) : s.clearTables.reads = s.reads := rfl
@[simp] theorem State.clearTables_agenda (s : State) : s.clearTables.agenda = s.agenda := rfl

/-! `State.clearFreq` writes FREQ only. -/

@[simp] theorem State.clearFreq_seq (s : State) : s.clearFreq.seq = s.seq := rfl
@[simp] theorem State.clearFreq_irqEn (s : State) : s.clearFreq.irqEn = s.irqEn := rfl
@[simp] theorem State.clearFreq_done (s : State) : s.clearFreq.done = s.done := rfl
@[simp] theorem State.clearFreq_err (s : State) : s.clearFreq.err = s.err := rfl
@[simp] theorem State.clearFreq_ignored (s : State) : s.clearFreq.ignored = s.ignored := rfl
@[simp] theorem State.clearFreq_errCode (s : State) : s.clearFreq.errCode = s.errCode := rfl
@[simp] theorem State.clearFreq_inLen (s : State) : s.clearFreq.inLen = s.inLen := rfl
@[simp] theorem State.clearFreq_outLen (s : State) : s.clearFreq.outLen = s.outLen := rfl
@[simp] theorem State.clearFreq_bitCount (s : State) : s.clearFreq.bitCount = s.bitCount := rfl
@[simp] theorem State.clearFreq_freq (s : State) : s.clearFreq.freq = emptyTable := rfl
@[simp] theorem State.clearFreq_tree (s : State) : s.clearFreq.tree = s.tree := rfl
@[simp] theorem State.clearFreq_code (s : State) : s.clearFreq.code = s.code := rfl
@[simp] theorem State.clearFreq_inp (s : State) : s.clearFreq.inp = s.inp := rfl
@[simp] theorem State.clearFreq_out (s : State) : s.clearFreq.out = s.out := rfl
@[simp] theorem State.clearFreq_irq (s : State) : s.clearFreq.irq = s.irq := rfl
@[simp] theorem State.clearFreq_inCap (s : State) : s.clearFreq.inCap = s.inCap := rfl
@[simp] theorem State.clearFreq_outCap (s : State) : s.clearFreq.outCap = s.outCap := rfl
@[simp] theorem State.clearFreq_draws (s : State) : s.clearFreq.draws = s.draws := rfl
@[simp] theorem State.clearFreq_reads (s : State) : s.clearFreq.reads = s.reads := rfl
@[simp] theorem State.clearFreq_agenda (s : State) : s.clearFreq.agenda = s.agenda := rfl

/-! `State.redrawOut` writes OUT and the draw counter only (60_exceptions.md R207). -/

@[simp] theorem State.redrawOut_seq (s : State) : s.redrawOut.seq = s.seq := rfl
@[simp] theorem State.redrawOut_irqEn (s : State) : s.redrawOut.irqEn = s.irqEn := rfl
@[simp] theorem State.redrawOut_done (s : State) : s.redrawOut.done = s.done := rfl
@[simp] theorem State.redrawOut_err (s : State) : s.redrawOut.err = s.err := rfl
@[simp] theorem State.redrawOut_ignored (s : State) : s.redrawOut.ignored = s.ignored := rfl
@[simp] theorem State.redrawOut_errCode (s : State) : s.redrawOut.errCode = s.errCode := rfl
@[simp] theorem State.redrawOut_inLen (s : State) : s.redrawOut.inLen = s.inLen := rfl
@[simp] theorem State.redrawOut_outLen (s : State) : s.redrawOut.outLen = s.outLen := rfl
@[simp] theorem State.redrawOut_bitCount (s : State) : s.redrawOut.bitCount = s.bitCount := rfl
@[simp] theorem State.redrawOut_freq (s : State) : s.redrawOut.freq = s.freq := rfl
@[simp] theorem State.redrawOut_tree (s : State) : s.redrawOut.tree = s.tree := rfl
@[simp] theorem State.redrawOut_code (s : State) : s.redrawOut.code = s.code := rfl
@[simp] theorem State.redrawOut_inp (s : State) : s.redrawOut.inp = s.inp := rfl
@[simp] theorem State.redrawOut_out (s : State) : s.redrawOut.out = Memory.redraw s.draws := rfl
@[simp] theorem State.redrawOut_irq (s : State) : s.redrawOut.irq = s.irq := rfl
@[simp] theorem State.redrawOut_inCap (s : State) : s.redrawOut.inCap = s.inCap := rfl
@[simp] theorem State.redrawOut_outCap (s : State) : s.redrawOut.outCap = s.outCap := rfl
@[simp] theorem State.redrawOut_draws (s : State) : s.redrawOut.draws = s.draws + 1 := rfl
@[simp] theorem State.redrawOut_reads (s : State) : s.redrawOut.reads = s.reads := rfl
@[simp] theorem State.redrawOut_agenda (s : State) : s.redrawOut.agenda = s.agenda := rfl

/-! `State.accept` (60_exceptions.md R204). -/

@[simp] theorem State.accept_seq (s : State) (w : Word) : (s.accept w).seq = .pending w := rfl
@[simp] theorem State.accept_irqEn (s : State) (w : Word) : (s.accept w).irqEn = s.irqEn := rfl
@[simp] theorem State.accept_done (s : State) (w : Word) : (s.accept w).done = false := rfl
@[simp] theorem State.accept_err (s : State) (w : Word) : (s.accept w).err = false := rfl
@[simp] theorem State.accept_ignored (s : State) (w : Word) : (s.accept w).ignored = s.ignored := rfl
@[simp] theorem State.accept_errCode (s : State) (w : Word) : (s.accept w).errCode = .none := rfl
@[simp] theorem State.accept_inLen (s : State) (w : Word) : (s.accept w).inLen = s.inLen := rfl
@[simp] theorem State.accept_outLen (s : State) (w : Word) : (s.accept w).outLen = 0#32 := rfl
@[simp] theorem State.accept_bitCount (s : State) (w : Word) : (s.accept w).bitCount = s.bitCount := rfl
@[simp] theorem State.accept_freq (s : State) (w : Word) : (s.accept w).freq = s.freq := rfl
@[simp] theorem State.accept_tree (s : State) (w : Word) : (s.accept w).tree = s.tree := rfl
@[simp] theorem State.accept_code (s : State) (w : Word) : (s.accept w).code = s.code := rfl
@[simp] theorem State.accept_inp (s : State) (w : Word) : (s.accept w).inp = s.inp := rfl
@[simp] theorem State.accept_out (s : State) (w : Word) : (s.accept w).out = s.out := rfl
@[simp] theorem State.accept_irq (s : State) (w : Word) : (s.accept w).irq = false := rfl
@[simp] theorem State.accept_inCap (s : State) (w : Word) : (s.accept w).inCap = s.inCap := rfl
@[simp] theorem State.accept_outCap (s : State) (w : Word) : (s.accept w).outCap = s.outCap := rfl
@[simp] theorem State.accept_draws (s : State) (w : Word) : (s.accept w).draws = s.draws := rfl
@[simp] theorem State.accept_reads (s : State) (w : Word) : (s.accept w).reads = s.reads := rfl
@[simp] theorem State.accept_agenda (s : State) (w : Word) : (s.accept w).agenda = s.agenda := rfl

/-! `State.succeed` (60_exceptions.md R208). -/

@[simp] theorem State.succeed_seq (s : State) (n : Word) : (s.succeed n).seq = .idle := rfl
@[simp] theorem State.succeed_irqEn (s : State) (n : Word) : (s.succeed n).irqEn = s.irqEn := rfl
@[simp] theorem State.succeed_done (s : State) (n : Word) : (s.succeed n).done = true := rfl
@[simp] theorem State.succeed_err (s : State) (n : Word) : (s.succeed n).err = false := rfl
@[simp] theorem State.succeed_ignored (s : State) (n : Word) : (s.succeed n).ignored = s.ignored := rfl
@[simp] theorem State.succeed_errCode (s : State) (n : Word) : (s.succeed n).errCode = .none := rfl
@[simp] theorem State.succeed_inLen (s : State) (n : Word) : (s.succeed n).inLen = s.inLen := rfl
@[simp] theorem State.succeed_outLen (s : State) (n : Word) : (s.succeed n).outLen = n := rfl
@[simp] theorem State.succeed_bitCount (s : State) (n : Word) : (s.succeed n).bitCount = s.bitCount := rfl
@[simp] theorem State.succeed_freq (s : State) (n : Word) : (s.succeed n).freq = s.freq := rfl
@[simp] theorem State.succeed_tree (s : State) (n : Word) : (s.succeed n).tree = s.tree := rfl
@[simp] theorem State.succeed_code (s : State) (n : Word) : (s.succeed n).code = s.code := rfl
@[simp] theorem State.succeed_inp (s : State) (n : Word) : (s.succeed n).inp = s.inp := rfl
@[simp] theorem State.succeed_out (s : State) (n : Word) : (s.succeed n).out = s.out := rfl
@[simp] theorem State.succeed_irq (s : State) (n : Word) : (s.succeed n).irq = s.irqEn := rfl
@[simp] theorem State.succeed_inCap (s : State) (n : Word) : (s.succeed n).inCap = s.inCap := rfl
@[simp] theorem State.succeed_outCap (s : State) (n : Word) : (s.succeed n).outCap = s.outCap := rfl
@[simp] theorem State.succeed_draws (s : State) (n : Word) : (s.succeed n).draws = s.draws := rfl
@[simp] theorem State.succeed_reads (s : State) (n : Word) : (s.succeed n).reads = s.reads := rfl
@[simp] theorem State.succeed_agenda (s : State) (n : Word) : (s.succeed n).agenda = s.agenda := rfl

/-! `State.fail` (60_exceptions.md R205). -/

@[simp] theorem State.fail_seq (s : State) (e : Raise) : (s.fail e).seq = .idle := rfl
@[simp] theorem State.fail_irqEn (s : State) (e : Raise) : (s.fail e).irqEn = s.irqEn := rfl
@[simp] theorem State.fail_done (s : State) (e : Raise) : (s.fail e).done = true := rfl
@[simp] theorem State.fail_err (s : State) (e : Raise) : (s.fail e).err = true := rfl
@[simp] theorem State.fail_ignored (s : State) (e : Raise) : (s.fail e).ignored = s.ignored := rfl
@[simp] theorem State.fail_errCode (s : State) (e : Raise) : (s.fail e).errCode = e.errorCode := rfl
@[simp] theorem State.fail_inLen (s : State) (e : Raise) : (s.fail e).inLen = s.inLen := rfl
@[simp] theorem State.fail_outLen (s : State) (e : Raise) : (s.fail e).outLen = 0#32 := rfl
@[simp] theorem State.fail_bitCount (s : State) (e : Raise) : (s.fail e).bitCount = s.bitCount := rfl
@[simp] theorem State.fail_freq (s : State) (e : Raise) : (s.fail e).freq = s.freq := rfl
@[simp] theorem State.fail_tree (s : State) (e : Raise) : (s.fail e).tree = s.tree := rfl
@[simp] theorem State.fail_code (s : State) (e : Raise) : (s.fail e).code = s.code := rfl
@[simp] theorem State.fail_inp (s : State) (e : Raise) : (s.fail e).inp = s.inp := rfl
@[simp] theorem State.fail_out (s : State) (e : Raise) : (s.fail e).out = s.out := rfl
@[simp] theorem State.fail_irq (s : State) (e : Raise) : (s.fail e).irq = s.irqEn := rfl
@[simp] theorem State.fail_inCap (s : State) (e : Raise) : (s.fail e).inCap = s.inCap := rfl
@[simp] theorem State.fail_outCap (s : State) (e : Raise) : (s.fail e).outCap = s.outCap := rfl
@[simp] theorem State.fail_draws (s : State) (e : Raise) : (s.fail e).draws = s.draws := rfl
@[simp] theorem State.fail_reads (s : State) (e : Raise) : (s.fail e).reads = s.reads := rfl
@[simp] theorem State.fail_agenda (s : State) (e : Raise) : (s.fail e).agenda = s.agenda := rfl

/-! `State.deliver` records one value (30_encoding.md R85). -/

@[simp] theorem State.deliver_seq (s : State) (v : Word) : (s.deliver v).seq = s.seq := rfl
@[simp] theorem State.deliver_irqEn (s : State) (v : Word) : (s.deliver v).irqEn = s.irqEn := rfl
@[simp] theorem State.deliver_done (s : State) (v : Word) : (s.deliver v).done = s.done := rfl
@[simp] theorem State.deliver_err (s : State) (v : Word) : (s.deliver v).err = s.err := rfl
@[simp] theorem State.deliver_ignored (s : State) (v : Word) : (s.deliver v).ignored = s.ignored := rfl
@[simp] theorem State.deliver_errCode (s : State) (v : Word) : (s.deliver v).errCode = s.errCode := rfl
@[simp] theorem State.deliver_inLen (s : State) (v : Word) : (s.deliver v).inLen = s.inLen := rfl
@[simp] theorem State.deliver_outLen (s : State) (v : Word) : (s.deliver v).outLen = s.outLen := rfl
@[simp] theorem State.deliver_bitCount (s : State) (v : Word) : (s.deliver v).bitCount = s.bitCount := rfl
@[simp] theorem State.deliver_freq (s : State) (v : Word) : (s.deliver v).freq = s.freq := rfl
@[simp] theorem State.deliver_tree (s : State) (v : Word) : (s.deliver v).tree = s.tree := rfl
@[simp] theorem State.deliver_code (s : State) (v : Word) : (s.deliver v).code = s.code := rfl
@[simp] theorem State.deliver_inp (s : State) (v : Word) : (s.deliver v).inp = s.inp := rfl
@[simp] theorem State.deliver_out (s : State) (v : Word) : (s.deliver v).out = s.out := rfl
@[simp] theorem State.deliver_irq (s : State) (v : Word) : (s.deliver v).irq = s.irq := rfl
@[simp] theorem State.deliver_inCap (s : State) (v : Word) : (s.deliver v).inCap = s.inCap := rfl
@[simp] theorem State.deliver_outCap (s : State) (v : Word) : (s.deliver v).outCap = s.outCap := rfl
@[simp] theorem State.deliver_draws (s : State) (v : Word) : (s.deliver v).draws = s.draws := rfl
@[simp] theorem State.deliver_reads (s : State) (v : Word) : (s.deliver v).reads = v :: s.reads := rfl
@[simp] theorem State.deliver_agenda (s : State) (v : Word) : (s.deliver v).agenda = s.agenda := rfl

/-! `State.drawn` counts one draw. -/

@[simp] theorem State.drawn_seq (s : State) : s.drawn.seq = s.seq := rfl
@[simp] theorem State.drawn_irqEn (s : State) : s.drawn.irqEn = s.irqEn := rfl
@[simp] theorem State.drawn_done (s : State) : s.drawn.done = s.done := rfl
@[simp] theorem State.drawn_err (s : State) : s.drawn.err = s.err := rfl
@[simp] theorem State.drawn_ignored (s : State) : s.drawn.ignored = s.ignored := rfl
@[simp] theorem State.drawn_errCode (s : State) : s.drawn.errCode = s.errCode := rfl
@[simp] theorem State.drawn_inLen (s : State) : s.drawn.inLen = s.inLen := rfl
@[simp] theorem State.drawn_outLen (s : State) : s.drawn.outLen = s.outLen := rfl
@[simp] theorem State.drawn_bitCount (s : State) : s.drawn.bitCount = s.bitCount := rfl
@[simp] theorem State.drawn_freq (s : State) : s.drawn.freq = s.freq := rfl
@[simp] theorem State.drawn_tree (s : State) : s.drawn.tree = s.tree := rfl
@[simp] theorem State.drawn_code (s : State) : s.drawn.code = s.code := rfl
@[simp] theorem State.drawn_inp (s : State) : s.drawn.inp = s.inp := rfl
@[simp] theorem State.drawn_out (s : State) : s.drawn.out = s.out := rfl
@[simp] theorem State.drawn_irq (s : State) : s.drawn.irq = s.irq := rfl
@[simp] theorem State.drawn_inCap (s : State) : s.drawn.inCap = s.inCap := rfl
@[simp] theorem State.drawn_outCap (s : State) : s.drawn.outCap = s.outCap := rfl
@[simp] theorem State.drawn_draws (s : State) : s.drawn.draws = s.draws + 1 := rfl
@[simp] theorem State.drawn_reads (s : State) : s.drawn.reads = s.reads := rfl
@[simp] theorem State.drawn_agenda (s : State) : s.drawn.agenda = s.agenda := rfl

/-! `State.clearWorking` writes the working state and BIT_COUNT only (45_orchestrator.md R182, R184). -/

@[simp] theorem State.clearWorking_seq (s : State) : s.clearWorking.seq = s.seq := rfl
@[simp] theorem State.clearWorking_irqEn (s : State) : s.clearWorking.irqEn = s.irqEn := rfl
@[simp] theorem State.clearWorking_done (s : State) : s.clearWorking.done = s.done := rfl
@[simp] theorem State.clearWorking_err (s : State) : s.clearWorking.err = s.err := rfl
@[simp] theorem State.clearWorking_ignored (s : State) : s.clearWorking.ignored = s.ignored := rfl
@[simp] theorem State.clearWorking_errCode (s : State) : s.clearWorking.errCode = s.errCode := rfl
@[simp] theorem State.clearWorking_inLen (s : State) : s.clearWorking.inLen = s.inLen := rfl
@[simp] theorem State.clearWorking_outLen (s : State) : s.clearWorking.outLen = s.outLen := rfl
@[simp] theorem State.clearWorking_bitCount (s : State) : s.clearWorking.bitCount = 0#64 := rfl
@[simp] theorem State.clearWorking_freq (s : State) : s.clearWorking.freq = emptyTable := rfl
@[simp] theorem State.clearWorking_tree (s : State) : s.clearWorking.tree = none := rfl
@[simp] theorem State.clearWorking_code (s : State) : s.clearWorking.code = none := rfl
@[simp] theorem State.clearWorking_inp (s : State) : s.clearWorking.inp = s.inp := rfl
@[simp] theorem State.clearWorking_out (s : State) : s.clearWorking.out = s.out := rfl
@[simp] theorem State.clearWorking_irq (s : State) : s.clearWorking.irq = s.irq := rfl
@[simp] theorem State.clearWorking_inCap (s : State) : s.clearWorking.inCap = s.inCap := rfl
@[simp] theorem State.clearWorking_outCap (s : State) : s.clearWorking.outCap = s.outCap := rfl
@[simp] theorem State.clearWorking_draws (s : State) : s.clearWorking.draws = s.draws := rfl
@[simp] theorem State.clearWorking_reads (s : State) : s.clearWorking.reads = s.reads := rfl
@[simp] theorem State.clearWorking_agenda (s : State) : s.clearWorking.agenda = s.agenda := rfl

/-! `State.externalReset` (10_state.md R44, 70_reset_and_hazards.md R230). -/

@[simp] theorem State.externalReset_seq (s : State) : s.externalReset.seq = .idle := rfl
@[simp] theorem State.externalReset_irqEn (s : State) : s.externalReset.irqEn = false := rfl
@[simp] theorem State.externalReset_done (s : State) : s.externalReset.done = false := rfl
@[simp] theorem State.externalReset_err (s : State) : s.externalReset.err = false := rfl
@[simp] theorem State.externalReset_ignored (s : State) : s.externalReset.ignored = false := rfl
@[simp] theorem State.externalReset_errCode (s : State) : s.externalReset.errCode = .none := rfl
@[simp] theorem State.externalReset_inLen (s : State) : s.externalReset.inLen = 0#32 := rfl
@[simp] theorem State.externalReset_outLen (s : State) : s.externalReset.outLen = 0#32 := rfl
@[simp] theorem State.externalReset_bitCount (s : State) : s.externalReset.bitCount = 0#64 := rfl
@[simp] theorem State.externalReset_freq (s : State) : s.externalReset.freq = emptyTable := rfl
@[simp] theorem State.externalReset_tree (s : State) : s.externalReset.tree = none := rfl
@[simp] theorem State.externalReset_code (s : State) : s.externalReset.code = none := rfl
@[simp] theorem State.externalReset_inp (s : State) : s.externalReset.inp = Memory.redraw s.draws := rfl
@[simp] theorem State.externalReset_out (s : State) : s.externalReset.out = Memory.redraw (s.draws + 1) := rfl
@[simp] theorem State.externalReset_irq (s : State) : s.externalReset.irq = false := rfl
@[simp] theorem State.externalReset_inCap (s : State) : s.externalReset.inCap = s.inCap := rfl
@[simp] theorem State.externalReset_outCap (s : State) : s.externalReset.outCap = s.outCap := rfl
@[simp] theorem State.externalReset_draws (s : State) : s.externalReset.draws = s.draws + 2 := rfl
@[simp] theorem State.externalReset_reads (s : State) : s.externalReset.reads = s.reads := rfl
@[simp] theorem State.externalReset_agenda (s : State) : s.externalReset.agenda = s.agenda := rfl

end Sys2Proof.Machine
end

