-- ==== Sys2Proof/Laws/HostAccess.lean ====
section
/-! SUPPORT. Where the registers lie and what a host access can change (10_state.md R23, 20_memory.md R63 to R66). -/

namespace Sys2Proof.Machine

theorem State.busy_eq_true_iff (s : State) : s.busy = true ↔ s.seq ≠ .idle := by
  unfold State.busy
  split <;> simp [*]

theorem State.busy_eq_false_iff (s : State) : s.busy = false ↔ s.seq = .idle := by
  unfold State.busy
  split <;> simp [*]

theorem fixedReg_reserved {k : Nat} (h : 14 ≤ k) : fixedReg k = .reserved := by
  unfold fixedReg
  split <;> first | omega | rfl

theorem regAt_fixed {o : Nat} (h : o < 0x400) : regAt o = fixedReg (o / 4) := by
  unfold regAt
  rw [if_pos h]

theorem regAt_freq {o : Nat} (h : 0x400 ≤ o) (h' : o < 0x800) :
    regAt o = .freq (BitVec.ofNat 8 ((o - 0x0400) / 4)) := by
  unfold regAt
  rw [if_neg (by omega), if_pos h']

theorem regAt_node {o : Nat} (h : 0x1000 ≤ o) (h' : o < 0x3000) :
    regAt o = .node (BitVec.ofNat 9 ((o - 0x1000) / 16)) (BitVec.ofNat 2 (o / 4 % 4)) := by
  unfold regAt
  rw [if_neg (by omega), if_neg (by omega), if_neg (by omega), if_pos h']

theorem regAt_code {o : Nat} (h : 0x4000 ≤ o) (h' : o < 0x8000) :
    regAt o = .code (BitVec.ofNat 8 ((o - 0x4000) / 64)) (BitVec.ofNat 4 (o / 4 % 16)) := by
  unfold regAt
  rw [if_neg (by omega), if_neg (by omega), if_neg (by omega), if_neg (by omega), if_neg (by omega), if_pos h']

theorem regAt_reserved {o : Nat} (h : 0x38 ≤ o ∧ o < 0x400 ∨ 0x800 ≤ o ∧ o < 0x1000 ∨ 0x3000 ≤ o ∧ o < 0x4000) :
    regAt o = .reserved := by
  rcases h with h | h | h
  · rw [regAt_fixed h.2, fixedReg_reserved (by omega)]
  · unfold regAt
    rw [if_neg (by omega), if_neg (by omega), if_pos h.2]
  · unfold regAt
    rw [if_neg (by omega), if_neg (by omega), if_neg (by omega), if_neg (by omega), if_pos h.2]

theorem badRegAccess_eq_false {o : Nat} (h : o % 4 = 0) (h' : o < 0x8000) : badRegAccess 32 o = false := by
  simp only [badRegAccess, h]
  simp
  omega

/-- A 32-bit aligned read of a register returns its value while idle, and in every state when the register is none of
those drawn while BUSY (20_memory.md R64, 70_reset_and_hazards.md R236). -/
theorem hostAccess_readReg {s : State} {o : Nat} (h : o % 4 = 0) (h' : o < 0x8000)
    (hd : s.busy = false ∨ drawnWhileBusy (regAt o) = false) :
    hostAccess s (.readReg 32 o) = { s with reads := s.regValue (regAt o) :: s.reads } := by
  rcases hd with hd | hd <;> simp [hostAccess, hostReadReg, badRegAccess_eq_false h h', readRegister, hd, State.deliver]

/-- A 32-bit aligned read while idle returns the register's value (20_memory.md R64). -/
theorem hostAccess_readReg_idle {s : State} {o : Nat} (hb : s.busy = false) (h : o % 4 = 0) (h' : o < 0x8000) :
    hostAccess s (.readReg 32 o) = { s with reads := s.regValue (regAt o) :: s.reads } :=
  hostAccess_readReg h h' (.inl hb)

/-- STATUS bit 0 is BUSY (10_state.md R26). -/
theorem State.statusWord_busy (s : State) : s.statusWord.getLsbD 0 = s.busy := by
  unfold State.statusWord
  rw [BitVec.getLsbD_append]
  cases s.busy <;> simp

/-- No host access changes the constants, OUT, or the events to come. -/
theorem hostAccess_keeps (s : State) (a : Access) :
    (hostAccess s a).inCap = s.inCap ∧ (hostAccess s a).outCap = s.outCap ∧ (hostAccess s a).out = s.out ∧
    (hostAccess s a).agenda = s.agenda := by
  cases a <;> simp only [hostAccess, hostReadReg, hostWriteReg, hostReadIn, hostWriteIn, hostReadOut, hostWriteOut,
    readRegister, writeRegister, State.ifIdle] <;> (repeat' split) <;> simp_all

/-- While BUSY no host access changes the pending command or anything it works on (70_reset_and_hazards.md R235). -/
theorem hostAccess_busy_keeps {s : State} (a : Access) (h : s.busy = true) :
    (hostAccess s a).seq = s.seq ∧ (hostAccess s a).inp = s.inp ∧ (hostAccess s a).inLen = s.inLen ∧
    (hostAccess s a).bitCount = s.bitCount ∧ (hostAccess s a).freq = s.freq ∧ (hostAccess s a).tree = s.tree ∧
    (hostAccess s a).code = s.code ∧ (hostAccess s a).outLen = s.outLen ∧ (hostAccess s a).errCode = s.errCode := by
  cases a <;> simp only [hostAccess, hostReadReg, hostWriteReg, hostReadIn, hostWriteIn, hostReadOut, hostWriteOut,
    readRegister, writeRegister, State.ifIdle, h] <;> (repeat' split) <;> simp_all

end Sys2Proof.Machine
end

