-- ==== Sys2Proof/Laws/HostScript.lean ====
section
/-! SUPPORT. What a turn of a host program does, and how programs run (30_encoding.md R85, R86). -/

namespace Sys2Proof.Machine

theorem stepOn_host (s : State) (a : Access) : stepOn s (.host a) = .next (hostAccess s a) := rfl

theorem stepOn_engineTurn (s : State) : stepOn s .engineTurn = engineStep s := rfl

theorem stepOn_reset (s : State) : stepOn s .reset = .next s.externalReset := rfl

/-- A host turn makes the transaction of the program's first line, and goes on as what it has read says. -/
@[simp] theorem scriptTurn_host (op : ScriptOp) (rest : List ScriptOp) (s : State) :
    scriptTurn (op :: rest) s .host
      = .next (op.after (hostAccess s op.transaction).lastRead ++ rest, hostAccess s op.transaction) := rfl

@[simp] theorem scriptTurn_host_done (s : State) : scriptTurn [] s .host = .next ([], s) := rfl

@[simp] theorem scriptTurn_engine (ops : List ScriptOp) (s : State) :
    scriptTurn ops s .engine = leaving (fun _ => ops) (engineStep s) := by
  cases ops <;> rfl

@[simp] theorem scriptTurn_reset (ops : List ScriptOp) (s : State) :
    scriptTurn ops s .reset = .next (ops, s.externalReset) := by
  cases ops <;> rfl

@[simp] theorem State.lastRead_cons (s : State) (v : Word) (vs : List Word) :
    { s with reads := v :: vs }.lastRead = v := rfl

/-- One turn more, when the first answers a next state. -/
theorem runScript_cons {t : Turn} {ts : List Turn} {ops ops' : List ScriptOp} {s s' : State}
    (h : scriptTurn ops s t = .next (ops', s')) : runScript (t :: ts) ops s = runScript ts ops' s' := by
  simp only [runScript, h]

/-- A schedule in two parts. -/
theorem runScript_append {ts us : List Turn} {ops ops' : List ScriptOp} {s s' : State}
    (h : runScript ts ops s = .next (ops', s')) : runScript (ts ++ us) ops s = runScript us ops' s' := by
  induction ts generalizing ops s with
  | nil =>
    cases h
    rfl
  | cons t ts ih =>
    simp only [List.cons_append, runScript] at h ⊢
    split at h
    · exact ih h
    · cases h
    · cases h

/-- Plain transactions are made one a turn, in order. -/
theorem runScript_accesses (as : List Access) (rest : List ScriptOp) (s : State) :
    runScript (List.replicate as.length .host) (as.map .access ++ rest) s = .next (rest, as.foldl hostAccess s) := by
  induction as generalizing s with
  | nil => rfl
  | cons a as ih =>
    rw [List.length_cons, List.replicate_succ, List.map_cons, List.cons_append,
      runScript_cons (scriptTurn_host (.access a) _ s)]
    exact ih _

end Sys2Proof.Machine
end

