-- ==== Sys2Proof/Laws/Memory.lean ====
section
/-! SUPPORT. The laws of a byte space: a read after a write, and that every operation keeps the canonical form. -/

namespace Sys2Proof.Machine

theorem findCell_insertCell (a b : Nat) (v : Byte) (cells : List Host.Cell) :
    findCell b (insertCell a v cells) = if b = a then some v else findCell b cells := by
  induction cells with
  | nil => simp [insertCell, findCell, eq_comm]
  | cons c cs ih =>
    unfold insertCell
    split
    · simp [findCell, eq_comm]
    · split
      · subst_vars
        by_cases h : b = c.1 <;> simp [findCell, h, eq_comm]
      · simp only [findCell, ih]
        by_cases h : c.1 = b
        · have : b ≠ a := by omega
          simp [h, this]
        · simp [h]

theorem Memory.read_write (m : Memory) (a b : Nat) (v : Byte) :
    (m.write a v).read b = if b = a then v else m.read b := by
  by_cases h : b = a <;> simp [Memory.read, Memory.write, findCell_insertCell, h]

@[simp] theorem Memory.read_write_same (m : Memory) (a : Nat) (v : Byte) : (m.write a v).read a = v := by
  simp [Memory.read_write]

theorem Memory.read_write_other (m : Memory) (a b : Nat) (v : Byte) (h : b ≠ a) :
    (m.write a v).read b = m.read b := by
  simp [Memory.read_write, h]

@[simp] theorem Memory.read_redraw (n a : Nat) : (Memory.redraw n).read a = Config.freeByte n a := rfl

@[simp] theorem Memory.seed_write (m : Memory) (a : Nat) (v : Byte) : (m.write a v).seed = m.seed := rfl

@[simp] theorem Memory.seed_redraw (n : Nat) : (Memory.redraw n).seed = n := rfl

theorem mem_insertCell {c : Host.Cell} {a : Nat} {v : Byte} {cells : List Host.Cell} (h : c ∈ insertCell a v cells) :
    c = (a, v) ∨ c ∈ cells := by
  induction cells with
  | nil => simpa [insertCell] using h
  | cons d ds ih =>
    unfold insertCell at h
    split at h
    · simpa using h
    · split at h
      · rcases List.mem_cons.1 h with h | h
        · exact .inl h
        · exact .inr (List.mem_cons_of_mem _ h)
      · rcases List.mem_cons.1 h with h | h
        · exact .inr (h ▸ List.mem_cons_self)
        · exact (ih h).imp_right (List.mem_cons_of_mem _)

theorem insertCell_rising (a : Nat) (v : Byte) (cells : List Host.Cell)
    (h : (cells.map Prod.fst).Pairwise (· < ·)) : ((insertCell a v cells).map Prod.fst).Pairwise (· < ·) := by
  induction cells with
  | nil => simp [insertCell]
  | cons c cs ih =>
    rw [List.map_cons, List.pairwise_cons] at h
    unfold insertCell
    split
    · rename_i hlt
      simp only [List.map_cons, List.pairwise_cons]
      refine ⟨fun x hx => ?_, h.1, h.2⟩
      rcases List.mem_cons.1 hx with rfl | hx
      · exact hlt
      · exact lt_trans hlt (h.1 x hx)
    · split
      · subst_vars
        simpa [List.pairwise_cons] using h
      · simp only [List.map_cons, List.pairwise_cons]
        refine ⟨fun x hx => ?_, ih h.2⟩
        obtain ⟨d, hd, rfl⟩ := List.mem_map.1 hx
        rcases mem_insertCell hd with rfl | hd
        · show c.1 < a; omega
        · exact h.1 _ (List.mem_map_of_mem hd)

theorem Memory.wf_write (m : Memory) (a : Nat) (v : Byte) (h : m.wf) : (m.write a v).wf :=
  insertCell_rising a v m.cells h

theorem Memory.within_write (m : Memory) (a cap : Nat) (v : Byte) (h : m.within cap) (ha : a < cap) :
    (m.write a v).within cap := fun _ hc => (mem_insertCell hc).elim (fun e => e ▸ ha) (h _)

theorem Memory.wf_redraw (n : Nat) : (Memory.redraw n).wf := by simp [Memory.wf, Memory.redraw]

theorem Memory.within_redraw (n cap : Nat) : (Memory.redraw n).within cap := by simp [Memory.within, Memory.redraw]

theorem State.reset_memories_wf : State.reset.inp.wf ∧ State.reset.out.wf := ⟨Memory.wf_redraw 0, Memory.wf_redraw 1⟩

end Sys2Proof.Machine
end

