-- ==== Sys2Proof/Laws/Sink.lean ====
section
/-! SUPPORT. What the output cursor can do (20_memory.md R68): one lemma for `emit8`, one for `emitBytes`. -/

namespace Sys2Proof.Machine

/-- What holds of a sink reached from another by accepted bytes: only indices from the old cursor on were written, all
below the capacity, and the space keeps its form. -/
structure Sink.Reaches (cap : Nat) (k k' : Sink) : Prop where
  rising : k.j ≤ k'.j
  fits   : k'.j ≤ cap ∨ k'.j = k.j
  below  : ∀ a, a < k.j ∨ k'.j ≤ a → k'.mem.read a = k.mem.read a
  seed   : k'.mem.seed = k.mem.seed
  wf     : k.mem.wf → k'.mem.wf
  within : k.mem.within cap → k'.mem.within cap

theorem Sink.Reaches.refl (cap : Nat) (k : Sink) : Sink.Reaches cap k k :=
  ⟨le_refl _, .inr rfl, fun _ _ => rfl, rfl, id, id⟩

theorem Sink.Reaches.trans {cap : Nat} {k k' k'' : Sink} (h : Sink.Reaches cap k k') (h' : Sink.Reaches cap k' k'') :
    Sink.Reaches cap k k'' where
  rising := le_trans h.rising h'.rising
  fits := by have := h.fits; have := h'.fits; have := h.rising; have := h'.rising; omega
  below a ha := by
    have := h.rising; have := h'.rising
    rw [h'.below a (by omega), h.below a (by omega)]
  seed := h'.seed.trans h.seed
  wf := h'.wf ∘ h.wf
  within := h'.within ∘ h.within

/-- `emit8` either writes one byte at the cursor, below the capacity, or raises IoFailure(sink full). -/
theorem emit8_cases (cap : Nat) (k : Sink) (v : Byte) :
    (k.j < cap ∧ emit8 cap k v = .ok ⟨k.mem.write k.j v, k.j + 1⟩) ∨
    (cap ≤ k.j ∧ emit8 cap k v = .error (.ioFailure .sinkFull)) := by
  unfold emit8
  split
  · exact .inl ⟨by assumption, rfl⟩
  · exact .inr ⟨by omega, rfl⟩

theorem emit8_reaches {cap : Nat} {k k' : Sink} {v : Byte} (h : emit8 cap k v = .ok k') : Sink.Reaches cap k k' := by
  rcases emit8_cases cap k v with ⟨hj, e⟩ | ⟨_, e⟩ <;> rw [e] at h
  · cases h
    refine ⟨Nat.le_succ _, .inl hj, fun a ha => Memory.read_write_other _ _ _ _ (by dsimp only at ha; omega), rfl,
      Memory.wf_write _ _ _, fun hw => Memory.within_write _ _ _ _ hw hj⟩
  · cases h

/-- `emitBytes` writes the bytes in order from the cursor on if they all fit, and raises IoFailure(sink full) if they
do not. -/
theorem emitBytes_ok {cap : Nat} (vs : List Byte) {k : Sink} (h : k.j + vs.length ≤ cap) :
    ∃ m, emitBytes cap k vs = .ok ⟨m, k.j + vs.length⟩ ∧
      ∀ a, m.read a = if k.j ≤ a then (vs[a - k.j]?).getD (k.mem.read a) else k.mem.read a := by
  induction vs generalizing k with
  | nil => exact ⟨k.mem, rfl, fun a => by simp⟩
  | cons v vs ih =>
    rw [List.length_cons] at h
    have hk : k.j < cap := by omega
    obtain ⟨m, hm, hr⟩ := ih (k := ⟨k.mem.write k.j v, k.j + 1⟩) (by dsimp only; omega)
    refine ⟨m, ?_, fun a => ?_⟩
    · simp only [emitBytes, emit8, hk, if_true, Except.bind, hm, List.length_cons]
      congr 2; omega
    · rw [hr a]
      dsimp only
      rcases lt_trichotomy a k.j with ha | rfl | ha
      · rw [if_neg (by omega), if_neg (by omega), Memory.read_write_other _ _ _ _ (by omega)]
      · simp
      · obtain ⟨d, rfl⟩ : ∃ d, a = k.j + 1 + d := ⟨a - (k.j + 1), by omega⟩
        rw [if_pos (by omega), if_pos (by omega), Memory.read_write_other _ _ _ _ (by omega)]
        rw [show k.j + 1 + d - (k.j + 1) = d by omega, show k.j + 1 + d - k.j = d + 1 by omega, List.getElem?_cons_succ]

theorem emitBytes_full {cap : Nat} (vs : List Byte) {k : Sink} (hk : k.j ≤ cap) (h : cap < k.j + vs.length) :
    emitBytes cap k vs = .error (.ioFailure .sinkFull) := by
  induction vs generalizing k with
  | nil => simp at h; omega
  | cons v vs ih =>
    rw [List.length_cons] at h
    rcases emit8_cases cap k v with ⟨hj, e⟩ | ⟨_, e⟩
    · simp only [emitBytes, e, Except.bind]
      exact ih (by dsimp only; omega) (by dsimp only; omega)
    · simp only [emitBytes, e, Except.bind]

theorem emitBytes_reaches {cap : Nat} (vs : List Byte) {k k' : Sink} (h : emitBytes cap k vs = .ok k') :
    Sink.Reaches cap k k' := by
  induction vs generalizing k with
  | nil => cases h; exact .refl cap _
  | cons v vs ih =>
    rcases emit8_cases cap k v with ⟨_, e⟩ | ⟨_, e⟩ <;> simp only [emitBytes, e, Except.bind] at h
    · exact (emit8_reaches e).trans (ih h)
    · cases h

end Sys2Proof.Machine
end

