-- ==== Sys2Proof/Laws/Packing.lean ====
section
/-! SUPPORT. What the packer and the header writer can do (43_bit_packer.md R152, 45_orchestrator.md R181): one lemma for
`packInto`, one for `emitHeader`, one for `emitStream`. -/

namespace Sys2Proof.Machine

/-! ## Payload bytes -/

/-- Bit `i` of payload byte `m` is payload bit 8m + 7 - i (20_memory.md R70). -/
theorem payloadByte_getLsbD (bits : List Bool) (m i : Nat) (hi : i < 8) :
    (payloadByte bits m).getLsbD i = bits.getD (8 * m + (7 - i)) false := by
  unfold payloadByte
  obtain ⟨g, hg⟩ : ∃ g : Nat → Bool, ∀ t, bits.getD (8 * m + t) false = g t := ⟨_, fun _ => rfl⟩
  simp only [hg]
  rw [show List.range 8 = [0, 1, 2, 3, 4, 5, 6, 7] from rfl]
  simp only [List.map_cons, List.map_nil, List.sum_cons, List.sum_nil]
  generalize h0 : g 0 = b0
  generalize h1 : g 1 = b1
  generalize h2 : g 2 = b2
  generalize h3 : g 3 = b3
  generalize h4 : g 4 = b4
  generalize h5 : g 5 = b5
  generalize h6 : g 6 = b6
  generalize h7 : g 7 = b7
  interval_cases i <;> simp only [Nat.sub_self, Nat.reduceSub, h0, h1, h2, h3, h4, h5, h6, h7] <;> clear * - <;>
    revert b0 b1 b2 b3 b4 b5 b6 b7 <;> decide

theorem getD_append_bits (l l' : List Bool) (i : Nat) :
    (l ++ l').getD i false = if i < l.length then l.getD i false else l'.getD (i - l.length) false := by
  split
  · rw [List.getD_append _ _ _ _ (by assumption)]
  · rw [List.getD_append_right _ _ _ _ (by omega)]

/-- A whole byte does not depend on the bits after it. -/
theorem payloadByte_append (l l' : List Bool) (m : Nat) (h : 8 * m + 8 ≤ l.length) :
    payloadByte (l ++ l') m = payloadByte l m := by
  apply BitVec.eq_of_getLsbD_eq
  intro i hi
  rw [payloadByte_getLsbD _ _ _ hi, payloadByte_getLsbD _ _ _ hi, getD_append_bits, if_pos (by omega)]

/-- One more bit goes below the bits the byte has. -/
theorem payloadByte_snoc (l : List Bool) (b : Bool) :
    payloadByte l (l.length / 8) ||| ((BitVec.ofBool b).setWidth 8 <<< (7 - l.length % 8))
      = payloadByte (l ++ [b]) (l.length / 8) := by
  apply BitVec.eq_of_getLsbD_eq
  intro i hi
  rw [BitVec.getLsbD_or, payloadByte_getLsbD _ _ _ hi, payloadByte_getLsbD _ _ _ hi, BitVec.getLsbD_shiftLeft,
    BitVec.getLsbD_setWidth, BitVec.getLsbD_ofBool, getD_append_bits]
  rcases lt_trichotomy (8 * (l.length / 8) + (7 - i)) l.length with h | h | h
  · have hs : i - (7 - l.length % 8) ≠ 0 := by omega
    rw [if_pos h]
    simp [hs]
  · have h1 : ¬ (i < 7 - l.length % 8) := by omega
    have h2 : i - (7 - l.length % 8) = 0 := by omega
    rw [if_neg (by omega), h, List.getD_eq_default _ _ (le_refl _), Nat.sub_self]
    simp [h1, h2, hi]
  · have h1 : i < 7 - l.length % 8 := by omega
    rw [if_neg (by omega), List.getD_eq_default _ _ (by omega), List.getD_eq_default _ _ (by simp; omega)]
    simp [h1]

theorem payloadByte_empty (l : List Bool) (h : l.length % 8 = 0) : payloadByte l (l.length / 8) = 0#8 := by
  apply BitVec.eq_of_getLsbD_eq
  intro i hi
  rw [payloadByte_getLsbD _ _ _ hi, List.getD_eq_default _ _ (by omega)]
  simp

theorem ceil8_eq (n : Nat) : ceil8 n = (n + 7) / 8 := by
  unfold ceil8
  split <;> omega

theorem payloadBytes_length (l : List Bool) : (payloadBytes l).length = ceil8 l.length := by simp [payloadBytes]

theorem payloadBytes_getElem? (l : List Bool) (k : Nat) :
    (payloadBytes l)[k]? = if k < ceil8 l.length then some (payloadByte l k) else none := by
  simp only [payloadBytes, List.getElem?_map]
  split
  · rw [List.getElem?_range (by assumption)]
    rfl
  · rw [List.getElem?_eq_none (by simp; omega)]
    rfl

/-! ## The packer -/

/-- The packer `p` has taken the bits `d`, from the sink `k0` on. -/
structure Packer.Holds (cap : Nat) (k0 : Sink) (d : List Bool) (p : Packer) : Prop where
  cursor : p.sink.j = k0.j + d.length / 8
  fits   : k0.j + d.length / 8 ≤ cap
  acc    : p.acc = payloadByte d (d.length / 8)
  fill   : p.fill = d.length % 8
  bits   : p.bits = BitVec.ofNat 64 d.length
  mem    : ∀ a, p.sink.mem.read a
    = if k0.j ≤ a ∧ a < k0.j + d.length / 8 then payloadByte d (a - k0.j) else k0.mem.read a

theorem packerStart_holds (cap : Nat) (k : Sink) (h : k.j ≤ cap) : Packer.Holds cap k [] (packerStart k) := by
  refine ⟨by simp [packerStart], by simpa using h, (payloadByte_empty [] rfl).symm, by simp [packerStart],
    by simp [packerStart], fun a => ?_⟩
  rw [if_neg (by simp)]
  rfl

/-- One bit is taken, or the byte it completes meets a full sink. -/
theorem packBit_spec {cap : Nat} {k0 : Sink} {d : List Bool} {p : Packer} (h : p.Holds cap k0 d) (b : Bool) :
    (k0.j + (d.length + 1) / 8 ≤ cap → ∃ p', packBit cap p b = .ok p' ∧ Packer.Holds cap k0 (d ++ [b]) p') ∧
    (cap < k0.j + (d.length + 1) / 8 → packBit cap p b = .error (.ioFailure .sinkFull)) := by
  have hf := h.fits
  have hbits : p.bits + 1#64 = BitVec.ofNat 64 (d.length + 1) := by rw [h.bits, BitVec.ofNat_add]
  have hl : (d ++ [b]).length = d.length + 1 := by simp
  by_cases h8 : p.fill + 1 = 8
  · have h8' := h8
    rw [h.fill] at h8'
    constructor
    · intro hc
      have hj : p.sink.j < cap := by
        rw [h.cursor]
        omega
      refine ⟨⟨⟨p.sink.mem.write p.sink.j (accumulate p b), p.sink.j + 1⟩, 0#8, 0, p.bits + 1#64⟩,
        by simp [packBit, h8, emit8, hj, Except.bind], ?_, ?_, ?_, ?_, ?_, fun a => ?_⟩
      · rw [hl]
        show p.sink.j + 1 = _
        rw [h.cursor]
        omega
      · rw [hl]
        omega
      · exact (payloadByte_empty _ (by rw [hl]; omega)).symm
      · rw [hl]
        show 0 = _
        omega
      · rw [hl]
        exact hbits
      · dsimp only
        rw [hl, Memory.read_write, h.cursor]
        rcases lt_trichotomy a (k0.j + d.length / 8) with ha | rfl | ha
        · rw [if_neg (by omega), h.mem]
          by_cases hk : k0.j ≤ a
          · rw [if_pos (by omega), if_pos (by omega), payloadByte_append _ _ _ (by omega)]
          · rw [if_neg (by omega), if_neg (by omega)]
        · rw [if_pos rfl, if_pos (by omega), show k0.j + d.length / 8 - k0.j = d.length / 8 by omega,
            ← payloadByte_snoc, accumulate, h.acc, h.fill]
        · rw [if_neg (by omega), h.mem, if_neg (by omega), if_neg (by omega)]
    · intro hc
      have hj : ¬ p.sink.j < cap := by
        rw [h.cursor]
        omega
      simp [packBit, h8, emit8, hj, Except.bind]
  · have h8' := h8
    rw [h.fill] at h8'
    have hd : (d.length + 1) / 8 = d.length / 8 := by omega
    refine ⟨fun hc => ?_, fun hc => by omega⟩
    refine ⟨⟨p.sink, accumulate p b, p.fill + 1, p.bits + 1#64⟩, by simp [packBit, h8], ?_, ?_, ?_, ?_, ?_, fun a => ?_⟩
    · rw [hl, hd]
      exact h.cursor
    · rw [hl, hd]
      omega
    · rw [hl, hd]
      show accumulate p b = _
      rw [accumulate, h.acc, h.fill, payloadByte_snoc]
    · rw [hl]
      show p.fill + 1 = _
      rw [h.fill]
      omega
    · rw [hl]
      exact hbits
    · dsimp only
      rw [hl, hd, h.mem]
      by_cases hk : k0.j ≤ a ∧ a < k0.j + d.length / 8
      · rw [if_pos hk, if_pos hk, payloadByte_append _ _ _ (by omega)]
      · rw [if_neg hk, if_neg hk]

theorem packBits_spec {cap : Nat} {k0 : Sink} (bs : List Bool) {d : List Bool} {p : Packer} (h : p.Holds cap k0 d) :
    (k0.j + (d ++ bs).length / 8 ≤ cap → ∃ p', packBits cap p bs = .ok p' ∧ Packer.Holds cap k0 (d ++ bs) p') ∧
    (cap < k0.j + (d ++ bs).length / 8 → packBits cap p bs = .error (.ioFailure .sinkFull)) := by
  induction bs generalizing d p with
  | nil =>
    have := h.fits
    rw [List.append_nil]
    exact ⟨fun _ => ⟨p, rfl, h⟩, fun hc => by omega⟩
  | cons b bs ih =>
    have hl : (d ++ b :: bs).length = d.length + 1 + bs.length := by
      simp
      omega
    have hd : d ++ [b] ++ bs = d ++ b :: bs := by simp
    obtain ⟨h1, h2⟩ := packBit_spec h b
    by_cases hc : k0.j + (d.length + 1) / 8 ≤ cap
    · obtain ⟨p', hp, hr⟩ := h1 hc
      have := ih hr
      rw [hd] at this
      simpa only [packBits, hp, Except.bind] using this
    · refine ⟨fun hh => ?_, fun _ => by simp only [packBits, h2 (by omega), Except.bind]⟩
      rw [hl] at hh
      omega

theorem payloadOf_cons (c : CodeTable) (x : Byte) (xs : List Byte) :
    payloadOf c (x :: xs) = codeOf c x ++ payloadOf c xs := List.flatMap_cons

/-- Symbols that all have codes are taken, or the sink is full first. -/
theorem packSymbols_spec {cap : Nat} {k0 : Sink} {c : CodeTable} (bs : List Byte) {d : List Bool} {p : Packer}
    (h : p.Holds cap k0 d) (hb : ∀ x ∈ bs, codeOf c x ≠ []) :
    (k0.j + (d ++ payloadOf c bs).length / 8 ≤ cap →
      ∃ p', packSymbols cap c p bs = .ok p' ∧ Packer.Holds cap k0 (d ++ payloadOf c bs) p') ∧
    (cap < k0.j + (d ++ payloadOf c bs).length / 8 → packSymbols cap c p bs = .error (.ioFailure .sinkFull)) := by
  induction bs generalizing d p with
  | nil =>
    have := h.fits
    simp only [payloadOf, List.flatMap_nil, List.append_nil]
    exact ⟨fun _ => ⟨p, rfl, h⟩, fun hc => by omega⟩
  | cons b bs ih =>
    have hpay : d ++ payloadOf c (b :: bs) = d ++ codeOf c b ++ payloadOf c bs := by
      rw [payloadOf_cons, List.append_assoc]
    obtain ⟨h1, h2⟩ := packBits_spec (codeOf c b) h
    rw [hpay]
    by_cases hc : k0.j + (d ++ codeOf c b).length / 8 ≤ cap
    · obtain ⟨p', hp, hr⟩ := h1 hc
      have := ih hr fun x hx => hb x (List.mem_cons_of_mem _ hx)
      simpa only [packSymbols, hb b List.mem_cons_self, if_false, hp, Except.bind] using this
    · refine ⟨fun hh => ?_, fun _ => ?_⟩
      · rw [List.length_append] at hh
        omega
      · simp only [packSymbols, hb b List.mem_cons_self, if_false, h2 (by omega), Except.bind]

theorem packSymbols_append {cap : Nat} {c : CodeTable} (xs ys : List Byte) (p : Packer) :
    packSymbols cap c p (xs ++ ys) = (packSymbols cap c p xs).bind fun p' => packSymbols cap c p' ys := by
  induction xs generalizing p with
  | nil => rfl
  | cons x xs ih =>
    simp only [List.cons_append, packSymbols]
    split
    · rfl
    · cases packBits cap p (codeOf c x) with
      | error e => rfl
      | ok p' => exact ih p'

/-- `pack_into` of symbols that all have codes writes the payload's bytes from the cursor on and counts its bits, or the
sink is full first (43_bit_packer.md R152). -/
theorem packInto_spec {cap : Nat} {c : CodeTable} (k : Sink) (hk : k.j ≤ cap) (bs : List Byte)
    (hb : ∀ x ∈ bs, codeOf c x ≠ []) :
    (k.j + ceil8 (payloadOf c bs).length ≤ cap →
      ∃ m, packInto cap c k bs
          = .ok (⟨m, k.j + ceil8 (payloadOf c bs).length⟩, BitVec.ofNat 64 (payloadOf c bs).length) ∧
        ∀ a, m.read a = if k.j ≤ a then ((payloadBytes (payloadOf c bs))[a - k.j]?).getD (k.mem.read a)
          else k.mem.read a) ∧
    (cap < k.j + ceil8 (payloadOf c bs).length → packInto cap c k bs = .error (.ioFailure .sinkFull)) := by
  obtain ⟨h1, h2⟩ := packSymbols_spec (c := c) bs (packerStart_holds cap k hk) hb
  simp only [List.nil_append] at h1 h2
  generalize payloadOf c bs = d at *
  have hcc := ceil8_eq d.length
  by_cases hc : k.j + d.length / 8 ≤ cap
  · obtain ⟨p, hp, hr⟩ := h1 hc
    by_cases hz : d.length % 8 = 0
    · have hf : ¬ 0 < p.fill := by
        rw [hr.fill]
        omega
      have hce : ceil8 d.length = d.length / 8 := by omega
      refine ⟨fun _ => ⟨p.sink.mem, ?_, fun a => ?_⟩, fun _ => by omega⟩
      · simp only [packInto, hp, Except.bind, packFlush, hf, if_false, hr.bits, hce, ← hr.cursor]
      · rw [hr.mem, payloadBytes_getElem?, hce]
        by_cases hka : k.j ≤ a
        · by_cases hlt : a - k.j < d.length / 8
          · rw [if_pos (by omega), if_pos hka, if_pos hlt]
            rfl
          · rw [if_neg (by omega), if_pos hka, if_neg hlt]
            rfl
        · rw [if_neg (by omega), if_neg hka]
    · have hf : 0 < p.fill := by
        rw [hr.fill]
        omega
      have hce : ceil8 d.length = d.length / 8 + 1 := by omega
      refine ⟨fun hh => ?_, fun hh => ?_⟩
      · have hj : p.sink.j < cap := by
          rw [hr.cursor]
          omega
        refine ⟨p.sink.mem.write p.sink.j p.acc, ?_, fun a => ?_⟩
        · simp only [packInto, hp, Except.bind, packFlush, hf, if_true, emit8, hj, hr.bits, hce]
          rw [hr.cursor]
          rfl
        · rw [Memory.read_write, hr.mem, payloadBytes_getElem?, hce, hr.acc, hr.cursor]
          by_cases hka : k.j ≤ a
          · rcases lt_trichotomy a (k.j + d.length / 8) with h | h | h
            · rw [if_neg (by omega), if_pos (by omega), if_pos hka, if_pos (by omega)]
              rfl
            · rw [if_pos h, if_pos hka, if_pos (by omega), h, Nat.add_sub_cancel_left]
              rfl
            · rw [if_neg (by omega), if_neg (by omega), if_pos hka, if_neg (by omega)]
              rfl
          · rw [if_neg (by omega), if_neg (by omega), if_neg hka]
      · have hj : ¬ p.sink.j < cap := by
          rw [hr.cursor]
          omega
        simp only [packInto, hp, Except.bind, packFlush, hf, if_true, emit8, hj, if_false]
  · refine ⟨fun hh => by omega, fun _ => ?_⟩
    simp only [packInto, h2 (by omega), Except.bind]

theorem packBit_reaches {cap : Nat} {p p' : Packer} {b : Bool} (h : packBit cap p b = .ok p') :
    Sink.Reaches cap p.sink p'.sink := by
  unfold packBit at h
  split at h
  · cases he : emit8 cap p.sink (accumulate p b) with
    | error e =>
      rw [he] at h
      cases h
    | ok k =>
      rw [he] at h
      cases h
      exact emit8_reaches he
  · cases h
    exact .refl _ _

theorem packBits_reaches {cap : Nat} (bs : List Bool) {p p' : Packer} (h : packBits cap p bs = .ok p') :
    Sink.Reaches cap p.sink p'.sink := by
  induction bs generalizing p with
  | nil =>
    cases h
    exact .refl _ _
  | cons b bs ih =>
    simp only [packBits] at h
    cases he : packBit cap p b with
    | error e =>
      rw [he] at h
      cases h
    | ok q =>
      rw [he] at h
      exact (packBit_reaches he).trans (ih h)

theorem packSymbols_reaches {cap : Nat} {c : CodeTable} (bs : List Byte) {p p' : Packer}
    (h : packSymbols cap c p bs = .ok p') : Sink.Reaches cap p.sink p'.sink := by
  induction bs generalizing p with
  | nil =>
    cases h
    exact .refl _ _
  | cons b bs ih =>
    simp only [packSymbols] at h
    split at h
    · cases h
    · cases he : packBits cap p (codeOf c b) with
      | error e =>
        rw [he] at h
        cases h
      | ok q =>
        rw [he] at h
        exact (packBits_reaches _ he).trans (ih h)

/-- Whatever the input, `pack_into` only writes from the cursor on and below the capacity. -/
theorem packInto_reaches {cap : Nat} {c : CodeTable} {k k' : Sink} {bs : List Byte} {n : BitCount}
    (h : packInto cap c k bs = .ok (k', n)) : Sink.Reaches cap k k' := by
  unfold packInto at h
  cases he : packSymbols cap c (packerStart k) bs with
  | error e =>
    rw [he] at h
    cases h
  | ok p =>
    rw [he] at h
    have h1 : Sink.Reaches cap k p.sink := packSymbols_reaches bs he
    simp only [Except.bind, packFlush] at h
    split at h
    · cases he' : emit8 cap p.sink p.acc with
      | error e =>
        rw [he'] at h
        cases h
      | ok k2 =>
        rw [he'] at h
        cases h
        exact h1.trans (emit8_reaches he')
    · cases h
      exact h1

/-! ## The header and the stream -/

theorem emitBytes_append {cap : Nat} (xs ys : List Byte) (k : Sink) :
    emitBytes cap k (xs ++ ys) = (emitBytes cap k xs).bind fun k' => emitBytes cap k' ys := by
  induction xs generalizing k with
  | nil => rfl
  | cons x xs ih =>
    simp only [List.cons_append, emitBytes]
    cases emit8 cap k x with
    | error e => rfl
    | ok k' => exact ih k'

/-- The bytes before the payload, for a bit count `n` (30_encoding.md R90). -/
def headerBytes (f : FreqTable) (n : Nat) : List Byte :=
  bytesLE 4 (present f).length ++ (present f).flatMap (entryBytes f) ++ bytesLE 8 n

theorem streamOf_eq (f : FreqTable) (c : CodeTable) (bs : List Byte) :
    streamOf f c bs = headerBytes f (payloadOf c bs).length ++ payloadBytes (payloadOf c bs) := rfl

/-- `emit_header` emits the header's bytes (45_orchestrator.md R181). -/
theorem emitHeader_eq (cap : Nat) (f : FreqTable) (c : CodeTable) (k : Sink) :
    emitHeader cap f c k = emitBytes cap k (headerBytes f (headerBitCount f c)) := by
  rw [headerBytes, emitBytes_append, emitBytes_append]
  unfold emitHeader emit32 emit64
  cases emitBytes cap k (bytesLE 4 (present f).length) with
  | error e => rfl
  | ok k1 => rfl

/-- The header of an empty stream is twelve zero bytes (45_orchestrator.md R187). -/
theorem emitEmptyHeader_eq (cap : Nat) (k : Sink) : emitEmptyHeader cap k = emitBytes cap k (List.replicate 12 0#8) := by
  rw [show List.replicate 12 0#8 = bytesLE 4 0 ++ bytesLE 8 0 from rfl, emitBytes_append]
  rfl

/-- ENCODE's stages 4 and 5 for a header whose bit count is the payload's: the whole stream from the cursor on, or the
sink is full first (45_orchestrator.md R182). -/
theorem emitStream_spec {cap : Nat} {f : FreqTable} {c : CodeTable} {bs : List Byte} (k : Sink) (hk : k.j ≤ cap)
    (hB : headerBitCount f c = (payloadOf c bs).length) (hb : ∀ x ∈ bs, codeOf c x ≠ []) :
    (k.j + (streamOf f c bs).length ≤ cap →
      ∃ m, emitStream cap f c k bs = .ok ⟨m, k.j + (streamOf f c bs).length⟩ ∧
        ∀ a, m.read a = if k.j ≤ a then ((streamOf f c bs)[a - k.j]?).getD (k.mem.read a) else k.mem.read a) ∧
    (cap < k.j + (streamOf f c bs).length → emitStream cap f c k bs = .error (.ioFailure .sinkFull)) := by
  rw [streamOf_eq, List.length_append, payloadBytes_length]
  unfold emitStream
  rw [emitHeader_eq, hB]
  generalize headerBytes f (payloadOf c bs).length = header
  by_cases hh : k.j + header.length ≤ cap
  · obtain ⟨m1, hm1, hr1⟩ := emitBytes_ok header hh
    obtain ⟨h1, h2⟩ := packInto_spec (cap := cap) (c := c) ⟨m1, k.j + header.length⟩ hh bs hb
    simp only [hm1, Except.bind]
    constructor
    · intro hf
      obtain ⟨m, hm, hr⟩ := h1 (by dsimp only; omega)
      refine ⟨m, by simp only [hm, Nat.add_assoc], fun a => ?_⟩
      rw [hr]
      dsimp only
      by_cases ha : k.j ≤ a
      · rw [if_pos ha]
        by_cases ha2 : k.j + header.length ≤ a
        · have e : header[a - k.j]? = none := List.getElem?_eq_none (by omega)
          rw [if_pos ha2, List.getElem?_append_right (by omega), hr1, if_pos ha, e,
            show a - k.j - header.length = a - (k.j + header.length) by omega]
          rfl
        · rw [if_neg ha2, List.getElem?_append_left (by omega), hr1, if_pos ha]
      · rw [if_neg (by omega), if_neg ha, hr1, if_neg ha]
    · intro hf
      simp only [h2 (by dsimp only; omega)]
  · refine ⟨fun hf => by omega, fun hf => ?_⟩
    rw [emitBytes_full header hk (by omega)]
    rfl

theorem emitStream_reaches {cap : Nat} {f : FreqTable} {c : CodeTable} {k k' : Sink} {bs : List Byte}
    (h : emitStream cap f c k bs = .ok k') : Sink.Reaches cap k k' := by
  unfold emitStream at h
  rw [emitHeader_eq] at h
  cases he : emitBytes cap k (headerBytes f (headerBitCount f c)) with
  | error e =>
    rw [he] at h
    cases h
  | ok k1 =>
    rw [he] at h
    simp only [Except.bind] at h
    cases hp : packInto cap c k1 bs with
    | error e =>
      rw [hp] at h
      cases h
    | ok r =>
      rw [hp] at h
      cases h
      exact (emitBytes_reaches _ he).trans (packInto_reaches (n := r.2) hp)

end Sys2Proof.Machine
end

