-- ==== Sys2Proof/Laws/Parsing.lean ====
section
/-! SUPPORT. What `parse` can do (45_orchestrator.md R183): it accepts exactly the well-formed headers. -/

namespace Sys2Proof.Machine

theorem memRead_lt (m : Memory) (n a : Nat) : memRead m a n < 2 ^ (8 * n) := by
  induction n generalizing a with
  | zero => simp [memRead]
  | succ n ih =>
    have := ih (a + 1)
    have := (m.read a).isLt
    rw [memRead, show 8 * (n + 1) = 8 * n + 8 by ring, pow_add]
    omega

theorem memRead_congr {m m' : Memory} (n a : Nat) (h : ∀ k, a ≤ k → k < a + n → m.read k = m'.read k) :
    memRead m a n = memRead m' a n := by
  induction n generalizing a with
  | zero => rfl
  | succ n ih =>
    rw [memRead, memRead, h a (by omega) (by omega), ih (a + 1) fun k h1 h2 => h k (by omega) (by omega)]

/-- Reading back little-endian bytes gives the number (20_memory.md R67, R68). -/
theorem memRead_bytesLE {m : Memory} (n a v : Nat) (h : ∀ k < n, m.read (a + k) = byteOf v k) :
    memRead m a n = v % 2 ^ (8 * n) := by
  induction n generalizing a v with
  | zero => simp [memRead, Nat.mod_one]
  | succ n ih =>
    have hrest : ∀ k < n, m.read (a + 1 + k) = byteOf (v / 2 ^ 8) k := by
      intro k hk
      rw [show a + 1 + k = a + (k + 1) by omega, h (k + 1) (by omega)]
      unfold byteOf
      rw [show 8 * (k + 1) = 8 + 8 * k by ring, pow_add, ← Nat.div_div_eq_div_mul]
    have h0 := h 0 (by omega)
    rw [Nat.add_zero] at h0
    rw [memRead, ih (a + 1) (v / 2 ^ 8) hrest, h0, byteOf, BitVec.toNat_ofNat, Nat.mul_zero, pow_zero, Nat.div_one,
      show 8 * (n + 1) = 8 + 8 * n by ring, pow_add, Nat.mod_mul]

theorem entryFreq_toNat (m : Memory) (k : Nat) : (entryFreq m k).toNat = memRead m (5 + 5 * k) 4 := by
  unfold entryFreq
  rw [BitVec.toNat_ofNat, Nat.mod_eq_of_lt (memRead_lt m 4 _)]

theorem entryFreq_ne_zero (m : Memory) (k : Nat) : entryFreq m k ≠ 0#32 ↔ memRead m (5 + 5 * k) 4 ≠ 0 := by
  rw [← entryFreq_toNat, ne_eq, ne_eq, ← BitVec.toNat_inj]
  simp

/-- Entries with different symbols, none seen before, and no zero frequency are all entered. -/
theorem parseEntries_ok (m : Memory) (ks : List Nat) (seen : List Byte) (f : FreqTable)
    (hn : (ks.map (entrySymbol m)).Nodup) (hs : ∀ k ∈ ks, entrySymbol m k ∉ seen) (hf : ∀ k ∈ ks, entryFreq m k ≠ 0#32) :
    ∃ g, parseEntries m seen f ks = .ok g ∧ (∀ k ∈ ks, countOf g (entrySymbol m k) = entryFreq m k) ∧
      ∀ x, (∀ k ∈ ks, entrySymbol m k ≠ x) → countOf g x = countOf f x := by
  induction ks generalizing seen f with
  | nil => exact ⟨f, rfl, by simp, by simp⟩
  | cons k ks ih =>
    simp only [List.map_cons, List.nodup_cons] at hn
    have hs' : ∀ j ∈ ks, entrySymbol m j ∉ entrySymbol m k :: seen := by
      intro j hj
      rw [List.mem_cons, not_or]
      exact ⟨fun e => hn.1 (List.mem_map.2 ⟨j, hj, e⟩), hs j (List.mem_cons_of_mem _ hj)⟩
    obtain ⟨g, hg, h1, h2⟩ := ih (entrySymbol m k :: seen) (setCount f (entrySymbol m k) (entryFreq m k)) hn.2 hs'
      fun j hj => hf j (List.mem_cons_of_mem _ hj)
    refine ⟨g, ?_, fun j hj => ?_, fun x hx => ?_⟩
    · simp only [parseEntries, hs k List.mem_cons_self, hf k List.mem_cons_self, if_false, hg]
    · rcases List.mem_cons.1 hj with rfl | hj
      · rw [h2 _ fun i hi e => hn.1 (List.mem_map.2 ⟨i, hi, e⟩), countOf_setCount, if_pos rfl]
      · exact h1 j hj
    · rw [h2 x fun j hj => hx j (List.mem_cons_of_mem _ hj), countOf_setCount,
        if_neg (Ne.symm (hx k List.mem_cons_self))]

/-- Any other entries are MalformedStream. -/
theorem parseEntries_malformed (m : Memory) (ks : List Nat) (seen : List Byte) (f : FreqTable)
    (h : ¬ ((ks.map (entrySymbol m)).Nodup ∧ (∀ k ∈ ks, entrySymbol m k ∉ seen) ∧ ∀ k ∈ ks, entryFreq m k ≠ 0#32)) :
    ∃ c, parseEntries m seen f ks = .error (.malformedStream c) := by
  induction ks generalizing seen f with
  | nil => simp at h
  | cons k ks ih =>
    by_cases h1 : entrySymbol m k ∈ seen
    · exact ⟨.duplicateSymbol, by simp only [parseEntries, h1, if_true]⟩
    by_cases h2 : entryFreq m k = 0#32
    · exact ⟨.zeroFrequency, by simp only [parseEntries, h1, h2, if_true, if_false]⟩
    obtain ⟨c, hc⟩ := ih (entrySymbol m k :: seen) (setCount f (entrySymbol m k) (entryFreq m k)) (by
      rintro ⟨a, b, d⟩
      refine h ⟨?_, fun j hj => ?_, fun j hj => ?_⟩
      · simp only [List.map_cons, List.nodup_cons]
        refine ⟨fun hm => ?_, a⟩
        obtain ⟨j, hj, e⟩ := List.mem_map.1 hm
        exact b j hj (by simp [e])
      · rcases List.mem_cons.1 hj with rfl | hj
        · exact h1
        · exact fun hs => b j hj (List.mem_cons_of_mem _ hs)
      · rcases List.mem_cons.1 hj with rfl | hj
        · exact h2
        · exact d j hj)
    exact ⟨c, by simp only [parseEntries, h1, h2, if_false, hc]⟩

theorem nodup_map_range {g : Nat → Byte} {n : Nat} :
    ((List.range n).map g).Nodup ↔ ∀ j k, j < k → k < n → g j ≠ g k := by
  rw [List.Nodup, List.pairwise_map, List.pairwise_iff_getElem]
  constructor
  · intro h j k hjk hk
    have := h j k (by rw [List.length_range]; omega) (by rw [List.length_range]; omega) hjk
    simpa using this
  · intro h i j hi hj hij
    rw [List.length_range] at hi hj
    simpa using h i j hij hj

/-- A well-formed header is parsed to its table, its bit count and the payload's start (45_orchestrator.md R183). -/
theorem parse_ok {m : Memory} {len : Nat} (H : WellFormedHeader m len) :
    ∃ f, parse m len = .ok ⟨f, memRead m (4 + 5 * memRead m 0 4) 8, 12 + 5 * memRead m 0 4⟩ ∧ IsStreamTable m f := by
  obtain ⟨h1, h2, h3, h4, h5, h6, h7⟩ := H
  obtain ⟨g, hg, e1, e2⟩ := parseEntries_ok m (List.range (memRead m 0 4)) [] emptyTable (nodup_map_range.2 h4)
    (by simp) fun k hk => (entryFreq_ne_zero m k).2 (h5 k (List.mem_range.1 hk))
  refine ⟨g, ?_, fun k hk => ?_, fun x hx => ?_⟩
  · unfold parse parseBody
    rw [if_neg (by omega), if_neg (by omega), if_neg (by omega), hg]
    show parseTail _ _ _ _ = _
    unfold parseTail
    rw [if_neg (by rintro ⟨a, b⟩; rw [a] at b; exact b (h6 a)), if_neg (by omega), if_neg (by omega)]
  · rw [← entryFreq_toNat, ← e1 k (List.mem_range.2 hk)]
    rfl
  · rw [e2 x fun k hk => hx k (List.mem_range.1 hk), countOf_emptyTable]

/-- Any other header is MalformedStream (45_orchestrator.md R183). -/
theorem parse_malformed {m : Memory} {len : Nat} (H : ¬ WellFormedHeader m len) :
    ∃ c, parse m len = .error (.malformedStream c) := by
  by_contra hc
  have hno : ∀ c, parse m len ≠ .error (.malformedStream c) := fun c h => hc ⟨c, h⟩
  apply H
  unfold parse parseBody at hno
  have h1 : ¬ len < 4 := by
    intro h
    rw [if_pos h] at hno
    exact hno _ rfl
  rw [if_neg h1] at hno
  have h2 : ¬ 256 < memRead m 0 4 := by
    intro h
    rw [if_pos h] at hno
    exact hno _ rfl
  rw [if_neg h2] at hno
  have h3 : ¬ len < 12 + 5 * memRead m 0 4 := by
    intro h
    rw [if_pos h] at hno
    exact hno _ rfl
  rw [if_neg h3] at hno
  have h4 : ((List.range (memRead m 0 4)).map (entrySymbol m)).Nodup ∧
      (∀ k ∈ List.range (memRead m 0 4), entrySymbol m k ∉ ([] : List Byte)) ∧
      ∀ k ∈ List.range (memRead m 0 4), entryFreq m k ≠ 0#32 := by
    by_contra hb
    obtain ⟨c, e⟩ := parseEntries_malformed m _ [] emptyTable hb
    rw [e] at hno
    exact hno _ rfl
  obtain ⟨g, hg, _⟩ := parseEntries_ok m _ [] emptyTable h4.1 h4.2.1 h4.2.2
  rw [hg] at hno
  have hno : ∀ c, parseTail len (memRead m 0 4) (memRead m (4 + 5 * memRead m 0 4) 8) g ≠ .error (.malformedStream c) :=
    hno
  unfold parseTail at hno
  have h5 : ¬ (memRead m 0 4 = 0 ∧ memRead m (4 + 5 * memRead m 0 4) 8 ≠ 0) := by
    intro h
    rw [if_pos h] at hno
    exact hno _ rfl
  rw [if_neg h5] at hno
  have h6 : ¬ len - (12 + 5 * memRead m 0 4) < ceil8 (memRead m (4 + 5 * memRead m 0 4) 8) := by
    intro h
    rw [if_pos h] at hno
    exact hno _ rfl
  rw [if_neg h6] at hno
  have h7 : ¬ ceil8 (memRead m (4 + 5 * memRead m 0 4) 8) < len - (12 + 5 * memRead m 0 4) := by
    intro h
    rw [if_pos h] at hno
    exact hno _ rfl
  refine ⟨by omega, by omega, by omega, nodup_map_range.1 h4.1,
    fun k hk => (entryFreq_ne_zero m k).1 (h4.2.2 k (List.mem_range.2 hk)), fun h0 => ?_, by omega⟩
  by_contra hb
  apply h5
  rw [h0]
  exact ⟨rfl, hb⟩

/-- A stream has one table. -/
theorem streamTable_unique {m : Memory} {f g : FreqTable} (hf : IsStreamTable m f) (hg : IsStreamTable m g) : f = g := by
  apply FreqTable.ext_countOf
  intro x
  by_cases h : ∃ k < memRead m 0 4, m.read (4 + 5 * k) = x
  · obtain ⟨k, hk, rfl⟩ := h
    apply BitVec.eq_of_toNat_eq
    rw [hf.1 k hk, hg.1 k hk]
  · have h' : ∀ k < memRead m 0 4, m.read (4 + 5 * k) ≠ x := fun k hk e => h ⟨k, hk, e⟩
    rw [hf.2 x h', hg.2 x h']

/-- The table of a well-formed header is empty iff it has no entry. -/
theorem streamTable_empty_iff {m : Memory} {len : Nat} {f : FreqTable} (H : WellFormedHeader m len)
    (hf : IsStreamTable m f) : present f = [] ↔ memRead m 0 4 = 0 := by
  rw [present_eq_nil_iff]
  constructor
  · intro h
    by_contra hc
    have h0 := hf.1 0 (by omega)
    rw [h] at h0
    exact H.noZeroFreq 0 (by omega) (by simpa using h0.symm)
  · intro h x
    exact hf.2 x fun k hk => by omega

end Sys2Proof.Machine
end

