-- ==== Sys2Proof/Laws/PerInstr.lean ====
section
/-! SUPPORT. The statements made per instruction: what is true of each command's word (30_encoding.md R81, R82, R84). -/

namespace Sys2Proof.Laws.EncodingLaw

/-- The command's word is legal, carries the opcode in bits 3:0 with every other bit 0, decodes to the command, and its
four bytes decode to it with nothing left over. -/
def Statement (i : Instr) : Prop :=
  i.wellFormed = true ∧ legalWord (encode i) = true ∧ opcodeField (encode i) = opcodeOf i ∧ rsvdField (encode i) = 0#28 ∧
  decode (encode i) = .ok i ∧ decodeBytes (encodeBytes i) = .ok (i, [])

theorem collect : Statement .collect := by refine ⟨?_, ?_, ?_, ?_, ?_, ?_⟩ <;> rfl
theorem build : Statement .build := by refine ⟨?_, ?_, ?_, ?_, ?_, ?_⟩ <;> rfl
theorem derive : Statement .derive := by refine ⟨?_, ?_, ?_, ?_, ?_, ?_⟩ <;> rfl
theorem pack : Statement .pack := by refine ⟨?_, ?_, ?_, ?_, ?_, ?_⟩ <;> rfl
theorem unpack : Statement .unpack := by refine ⟨?_, ?_, ?_, ?_, ?_, ?_⟩ <;> rfl
theorem encode : Statement .encode := by refine ⟨?_, ?_, ?_, ?_, ?_, ?_⟩ <;> rfl
theorem decode : Statement .decode := by refine ⟨?_, ?_, ?_, ?_, ?_, ?_⟩ <;> rfl
theorem clear : Statement .clear := by refine ⟨?_, ?_, ?_, ?_, ?_, ?_⟩ <;> rfl

end Sys2Proof.Laws.EncodingLaw
end

