-- ==== Sys2Proof/Laws/Step.lean ====
section
/-! SUPPORT. What a step can do: one inversion lemma for `step`, one for each command, and how a command ends. -/

namespace Sys2Proof.Machine

/-- A success ends as `ended` says (60_exceptions.md R208). -/
theorem State.succeed_eq_ended (s : State) (n : Nat) : s.succeed (BitVec.ofNat 32 n) = ended s n := by
  simp [State.succeed, State.syncIrq, ended]

/-- An error ends as `failed` says (60_exceptions.md R205). -/
theorem State.fail_eq_failed (s : State) (e : Raise) : s.fail e = failed s e.errorCode := by
  simp [State.fail, State.syncIrq, failed]

theorem Raise.errorCode_ne_none (e : Raise) : e.errorCode ≠ .none := by cases e <;> simp [Raise.errorCode]

theorem runCollect_cases (s : State) :
    (s.sourceTooLong = true ∧ runCollect s = s.fail (.ioFailure .sourceLength)) ∨
    (s.sourceTooLong = false ∧
      ((∃ e, collect s.input = .error e ∧ runCollect s = s.clearTables.clearFreq.fail e) ∨
       (∃ f, collect s.input = .ok f ∧ runCollect s = State.succeed { s.clearTables with freq := f } 0#32))) := by
  unfold runCollect
  split
  · exact .inl ⟨‹_›, rfl⟩
  · refine .inr ⟨Bool.eq_false_of_not_eq_true ‹_›, ?_⟩
    split
    · exact .inl ⟨_, ‹_›, rfl⟩
    · exact .inr ⟨_, ‹_›, rfl⟩

theorem runBuild_cases (s : State) :
    (present s.freq = [] ∧ runBuild s = s.clearTables.fail .emptyAlphabet) ∨
    (present s.freq ≠ [] ∧ runBuild s = State.succeed { s with tree := some (build s.freq), code := none } 0#32) := by
  unfold runBuild
  split
  · exact .inl ⟨List.isEmpty_iff.1 ‹_›, rfl⟩
  · exact .inr ⟨mt List.isEmpty_iff.2 ‹_›, rfl⟩

theorem runDerive_cases (s : State) :
    (s.tree = none ∧ runDerive s = s.fail .stateInvalid) ∨
    (∃ t, s.tree = some t ∧ runDerive s = State.succeed { s with code := some (derive t) } 0#32) := by
  unfold runDerive
  split
  · exact .inl ⟨‹_›, rfl⟩
  · exact .inr ⟨_, ‹_›, rfl⟩

theorem runPack_cases (s : State) :
    (s.code = none ∧ runPack s = s.fail .stateInvalid) ∨
    (∃ c, s.code = some c ∧
      ((s.sourceTooLong = true ∧ runPack s = s.fail (.ioFailure .sourceLength)) ∨
       (s.sourceTooLong = false ∧
         ((∃ e, packInto s.outCap.toNat c ⟨s.out, 0⟩ s.input = .error e ∧
            runPack s = State.fail { s.redrawOut with bitCount := 0 } e) ∨
          (∃ k n, packInto s.outCap.toNat c ⟨s.out, 0⟩ s.input = .ok (k, n) ∧
            runPack s = State.succeed { s with out := k.mem, bitCount := n } (BitVec.ofNat 32 k.j)))))) := by
  unfold runPack
  split
  · exact .inl ⟨‹_›, rfl⟩
  · refine .inr ⟨_, ‹_›, ?_⟩
    split
    · exact .inl ⟨‹_›, rfl⟩
    · refine .inr ⟨Bool.eq_false_of_not_eq_true ‹_›, ?_⟩
      split
      · exact .inl ⟨_, ‹_›, rfl⟩
      · exact .inr ⟨_, _, ‹_›, rfl⟩

theorem runUnpack_cases (s : State) :
    (s.tree = none ∧ runUnpack s = s.fail .stateInvalid) ∨
    (∃ t, s.tree = some t ∧
      ((s.sourceTooLong = true ∧ runUnpack s = s.fail (.ioFailure .sourceLength)) ∨
       (s.sourceTooLong = false ∧
         ((s.inLen.toNat < ceil8 s.bitCount.toNat ∧ runUnpack s = s.fail (.malformedStream .payloadShort)) ∨
          (ceil8 s.bitCount.toNat ≤ s.inLen.toNat ∧
            ((∃ e, walkDecode t s.outCap.toNat ⟨s.out, 0⟩ (payloadBits s.inp 0 s.bitCount.toNat) = .error e ∧
               runUnpack s = s.redrawOut.fail e) ∨
             (∃ k, walkDecode t s.outCap.toNat ⟨s.out, 0⟩ (payloadBits s.inp 0 s.bitCount.toNat) = .ok k ∧
               runUnpack s = State.succeed { s with out := k.mem } (BitVec.ofNat 32 k.j)))))))) := by
  unfold runUnpack
  split
  · exact .inl ⟨‹_›, rfl⟩
  · refine .inr ⟨_, ‹_›, ?_⟩
    split
    · exact .inl ⟨‹_›, rfl⟩
    · refine .inr ⟨Bool.eq_false_of_not_eq_true ‹_›, ?_⟩
      split
      · exact .inl ⟨‹_›, rfl⟩
      · refine .inr ⟨Nat.le_of_not_lt ‹_›, ?_⟩
        split
        · exact .inl ⟨_, ‹_›, rfl⟩
        · exact .inr ⟨_, ‹_›, rfl⟩

/-- The state ENCODE has after stage 1 (45_orchestrator.md R182). -/
def encodeStage1 (s : State) (f : FreqTable) : State := { s.clearWorking with freq := f }

/-- The state ENCODE has after stage 3 (45_orchestrator.md R182). -/
def encodeStage3 (s : State) (f : FreqTable) : State :=
  { encodeStage1 s f with tree := some (build f), code := some (derive (build f)) }

theorem runEncode_cases (s : State) :
    (s.sourceTooLong = true ∧ runEncode s = s.fail (.ioFailure .sourceLength)) ∨
    (s.sourceTooLong = false ∧
      ((∃ e, collect s.input = .error e ∧ runEncode s = s.clearWorking.fail e) ∨
       (∃ f, collect s.input = .ok f ∧
         ((present f = [] ∧
            ((∃ e, emitEmptyHeader s.outCap.toNat ⟨s.out, 0⟩ = .error e ∧
               runEncode s = (encodeStage1 s f).redrawOut.fail e) ∨
             (∃ k, emitEmptyHeader s.outCap.toNat ⟨s.out, 0⟩ = .ok k ∧
               runEncode s = State.succeed { encodeStage1 s f with out := k.mem } (BitVec.ofNat 32 k.j)))) ∨
          (present f ≠ [] ∧
            ((∃ e, emitStream s.outCap.toNat f (derive (build f)) ⟨s.out, 0⟩ s.input = .error e ∧
               runEncode s = (encodeStage3 s f).redrawOut.fail e) ∨
             (∃ k, emitStream s.outCap.toNat f (derive (build f)) ⟨s.out, 0⟩ s.input = .ok k ∧
               runEncode s = State.succeed
                 { encodeStage3 s f with
                   out := k.mem, bitCount := BitVec.ofNat 64 (headerBitCount f (derive (build f))) }
                 (BitVec.ofNat 32 k.j)))))))) := by
  unfold runEncode
  split
  · exact .inl ⟨‹_›, rfl⟩
  · refine .inr ⟨Bool.eq_false_of_not_eq_true ‹_›, ?_⟩
    split
    · exact .inl ⟨_, ‹_›, rfl⟩
    · refine .inr ⟨_, ‹_›, ?_⟩
      unfold encodeCollected
      split
      · refine .inl ⟨List.isEmpty_iff.1 ‹_›, ?_⟩
        unfold encodeEmpty
        split
        · exact .inl ⟨_, ‹_›, rfl⟩
        · exact .inr ⟨_, ‹_›, rfl⟩
      · refine .inr ⟨mt List.isEmpty_iff.2 ‹_›, ?_⟩
        unfold encodeTable encodeStaged
        split
        · exact .inl ⟨_, ‹_›, rfl⟩
        · exact .inr ⟨_, ‹_›, rfl⟩

/-- The state DECODE has after stage 1 (45_orchestrator.md R184). -/
def decodeStage1 (s : State) (h : Header) : State :=
  { s.clearWorking with freq := h.freq, bitCount := BitVec.ofNat 64 h.bitCount }

/-- The state DECODE has after stage 2 (45_orchestrator.md R184). -/
def decodeStage2 (s : State) (h : Header) : State := { decodeStage1 s h with tree := some (build h.freq) }

theorem runDecode_cases (s : State) :
    (s.sourceTooLong = true ∧ runDecode s = s.fail (.ioFailure .sourceLength)) ∨
    (s.sourceTooLong = false ∧
      ((∃ e, parse s.inp s.inLen.toNat = .error e ∧ runDecode s = s.clearWorking.fail e) ∨
       (∃ h, parse s.inp s.inLen.toNat = .ok h ∧
         ((present h.freq = [] ∧ runDecode s = (decodeStage1 s h).succeed 0#32) ∨
          (present h.freq ≠ [] ∧
            ((∃ e, walkDecode (build h.freq) s.outCap.toNat ⟨s.out, 0⟩ (payloadBits s.inp h.start h.bitCount) = .error e ∧
               runDecode s = (decodeStage2 s h).redrawOut.fail e) ∨
             (∃ k, walkDecode (build h.freq) s.outCap.toNat ⟨s.out, 0⟩ (payloadBits s.inp h.start h.bitCount) = .ok k ∧
               runDecode s = State.succeed { decodeStage2 s h with out := k.mem } (BitVec.ofNat 32 k.j)))))))) := by
  unfold runDecode
  split
  · exact .inl ⟨‹_›, rfl⟩
  · refine .inr ⟨Bool.eq_false_of_not_eq_true ‹_›, ?_⟩
    split
    · exact .inl ⟨_, ‹_›, rfl⟩
    · refine .inr ⟨_, ‹_›, ?_⟩
      unfold decodeParsed
      split
      · exact .inl ⟨List.isEmpty_iff.1 ‹_›, rfl⟩
      · refine .inr ⟨mt List.isEmpty_iff.2 ‹_›, ?_⟩
        unfold decodeStaged
        split
        · exact .inl ⟨_, ‹_›, rfl⟩
        · exact .inr ⟨_, ‹_›, rfl⟩

/-- A step is a host access, a reset, an engine step, or an engine's turn passed over while IDLE. -/
theorem step_cases {s t : State} (h : step s = .next t) :
    (∃ a rest, s.agenda = .host a :: rest ∧ t = hostAccess { s with agenda := rest } a) ∨
    (∃ rest, s.agenda = .reset :: rest ∧ t = State.externalReset { s with agenda := rest }) ∨
    (∃ rest, (s.agenda = .engineTurn :: rest ∨ (s.agenda = [] ∧ rest = [])) ∧
      ((s.seq = .idle ∧ t = { s with agenda := rest }) ∨
       (∃ w i, s.seq = .pending w ∧ decode w = .ok i ∧ exec i { s with agenda := rest } = .next t) ∨
       (∃ w e, s.seq = .pending w ∧ decode w = .error e ∧
         t = State.fail { s with agenda := rest } .illegalCommand))) := by
  have engine : ∀ s' : State, engineStep s' = .next t →
      (s'.seq = .idle ∧ t = s') ∨ (∃ w i, s'.seq = .pending w ∧ decode w = .ok i ∧ exec i s' = .next t) ∨
      (∃ w e, s'.seq = .pending w ∧ decode w = .error e ∧ t = s'.fail .illegalCommand) := by
    intro s' h
    unfold engineStep at h
    split at h
    · cases h; exact .inl ⟨‹_›, rfl⟩
    · unfold runWord at h
      split at h
      · exact .inr (.inl ⟨_, _, ‹_›, ‹_›, h⟩)
      · cases h; exact .inr (.inr ⟨_, _, ‹_›, ‹_›, rfl⟩)
  unfold step at h
  split at h
  · rename_i ha
    have hs : { s with agenda := [] } = s := by rw [← ha]
    exact .inr (.inr ⟨[], .inr ⟨ha, rfl⟩, by simpa only [hs] using engine s h⟩)
  · rename_i rest ha
    exact .inr (.inr ⟨rest, .inl ha, engine _ h⟩)
  · cases h; exact .inl ⟨_, _, ‹_›, rfl⟩
  · cases h; exact .inr (.inl ⟨_, ‹_›, rfl⟩)

end Sys2Proof.Machine
end

