-- ==== Sys2Proof/Laws/Walking.lean ====
section
/-! SUPPORT. What the decode walk can do (44_bit_reader.md R162, R164): the symbols it emits, when the sink is full first,
and when it raises MalformedStream. -/

namespace Sys2Proof.Machine

/-- The bytes `ys` lie from index `j` on, and the rest is as in `old`. -/
def OverlaidAt (m old : Memory) (j : Nat) (ys : List Byte) : Prop :=
  ∀ a, m.read a = if j ≤ a then (ys[a - j]?).getD (old.read a) else old.read a

theorem OverlaidAt.nil (m : Memory) (j : Nat) : OverlaidAt m m j [] := fun a => by simp

theorem OverlaidAt.cons {m old : Memory} {j : Nat} {y : Byte} {ys : List Byte}
    (h : OverlaidAt m (old.write j y) (j + 1) ys) : OverlaidAt m old j (y :: ys) := by
  intro a
  rw [h a]
  rcases lt_trichotomy a j with ha | rfl | ha
  · rw [if_neg (by omega), if_neg (by omega), Memory.read_write_other _ _ _ _ (by omega)]
  · simp
  · obtain ⟨d, rfl⟩ : ∃ d, a = j + 1 + d := ⟨a - (j + 1), by omega⟩
    rw [if_pos (by omega), if_pos (by omega), Memory.read_write_other _ _ _ _ (by omega),
      show j + 1 + d - (j + 1) = d by omega, show j + 1 + d - j = d + 1 by omega, List.getElem?_cons_succ]

theorem OverlaidAt.overlaid {m old : Memory} {ys : List Byte} (h : OverlaidAt m old 0 ys) : Overlaid m old ys := by
  intro a
  rw [h a]
  simp

/-- A symbol is emitted at the cursor, or the sink is full. -/
theorem walkEmit_cases (t : Tree) (cap : Nat) (w : Walker) (x : Byte) :
    (w.sink.j < cap ∧
      walkEmit t cap w x = .ok ⟨t.root, ⟨w.sink.mem.write w.sink.j x, w.sink.j + 1⟩, w.emitted + 1⟩) ∨
    (cap ≤ w.sink.j ∧ walkEmit t cap w x = .error (.ioFailure .sinkFull)) := by
  rcases emit8_cases cap w.sink x with ⟨hj, e⟩ | ⟨hj, e⟩
  · exact .inl ⟨hj, by simp only [walkEmit, e, Except.bind]⟩
  · exact .inr ⟨hj, by simp only [walkEmit, e, Except.bind]⟩

variable {f : FreqTable}

/-- The walk in a tree of two or more symbols, from the Internal node that path `p` leads to: the bits of `p` and the
payload bits are the codes of the emitted symbols `ys` and a path `p'` to the Internal node where the walk ends. -/
theorem walkBits_spec (h2 : 2 ≤ (present f).length) (cap : Nat) (bs : List Bool) (w : Walker) (p : List Bool)
    (hp : (build f).target (build f).root p = some w.cur)
    (hi : ∃ fr l r, (build f).node? w.cur = some (.internal fr l r)) (hj : w.sink.j ≤ cap) :
    ∃ ys p' cur', p ++ bs = payloadOf (derive (build f)) ys ++ p' ∧ (build f).target (build f).root p' = some cur' ∧
      (∃ fr l r, (build f).node? cur' = some (.internal fr l r)) ∧ (∀ y ∈ ys, y ∈ present f) ∧ ys.length ≤ bs.length ∧
      (w.sink.j + ys.length ≤ cap →
        ∃ m, walkBits (build f) cap w bs = .ok ⟨cur', ⟨m, w.sink.j + ys.length⟩, w.emitted + ys.length⟩ ∧
          OverlaidAt m w.sink.mem w.sink.j ys) ∧
      (cap < w.sink.j + ys.length → walkBits (build f) cap w bs = .error (.ioFailure .sinkFull)) := by
  have hne : present f ≠ [] := fun e => by simp [e] at h2
  obtain ⟨_, _, _, hroot⟩ := build_root_internal h2
  induction bs generalizing w p with
  | nil =>
    exact ⟨[], p, w.cur, by simp [payloadOf], hp, hi, by simp, by simp, fun _ => ⟨w.sink.mem, rfl, .nil _ _⟩,
      fun h => by simp at h; omega⟩
  | cons b bs ih =>
    obtain ⟨fr, l, r, hn⟩ := hi
    have hc : (build f).target (build f).root (p ++ [b]) = some (if b then r else l) := by
      rw [Tree.target_append, hp]
      simp [Tree.target, hn]
    have hcl : (if b then r else l).toNat < (build f).count := by
      obtain ⟨_, h3, h1, h2, _⟩ := build_internal hne hn
      split <;> omega
    obtain ⟨n, hn'⟩ : ∃ n, (build f).node? (if b then r else l) = some n := ⟨_, List.getElem?_eq_getElem hcl⟩
    have hstep : walkBits (build f) cap w (b :: bs)
        = (walkDescend (build f) cap w (if b then r else l)).bind fun w' => walkBits (build f) cap w' bs := by
      simp only [walkBits, walkBit, hn]
    have hpb : p ++ b :: bs = p ++ [b] ++ bs := by simp
    rw [hstep, hpb]
    cases n with
    | internal fr' l' r' =>
      obtain ⟨ys, p', cur', e1, e2, e3, e4, e5, e6, e7⟩ :=
        ih { w with cur := (if b then r else l) } (p ++ [b]) hc ⟨_, _, _, hn'⟩ hj
      have hd : walkDescend (build f) cap w (if b then r else l) = .ok { w with cur := (if b then r else l) } := by
        simp only [walkDescend, hn']
      rw [hd]
      exact ⟨ys, p', cur', e1, e2, e3, e4, by simp; omega, e6, e7⟩
    | leaf x fr' =>
      have hd : walkDescend (build f) cap w (if b then r else l) = walkEmit (build f) cap w x := by
        simp only [walkDescend, hn']
      have hfol : (build f).follow (build f).root (p ++ [b]) = some (.leaf x fr') := by
        rw [Tree.follow_eq_target, hc]
        exact hn'
      have hcode := (derive_path h2 x).1 _ _ hfol
      have hx : x ∈ present f := List.mem_of_getElem? ((build_leaf_iff hne).1 hn').1
      have hmem : ∀ {ys : List Byte}, (∀ y ∈ ys, y ∈ present f) → ∀ y ∈ x :: ys, y ∈ present f := by
        intro ys h y hy
        rcases List.mem_cons.1 hy with rfl | hy
        · exact hx
        · exact h y hy
      have hpay : ∀ {ys p'}, [] ++ bs = payloadOf (derive (build f)) ys ++ p' →
          p ++ [b] ++ bs = payloadOf (derive (build f)) (x :: ys) ++ p' := by
        intro ys p' e
        rw [List.nil_append] at e
        rw [e]
        simp [payloadOf, hcode]
      rw [hd]
      rcases walkEmit_cases (build f) cap w x with ⟨hjc, he⟩ | ⟨hjc, he⟩
      · obtain ⟨ys, p', cur', e1, e2, e3, e4, e5, e6, e7⟩ :=
          ih ⟨(build f).root, ⟨w.sink.mem.write w.sink.j x, w.sink.j + 1⟩, w.emitted + 1⟩ [] rfl ⟨_, _, _, hroot⟩ hjc
        rw [he]
        refine ⟨x :: ys, p', cur', hpay e1, e2, e3, hmem e4, by simp; omega, fun h => ?_, fun h => ?_⟩
        · simp only [List.length_cons] at h
          obtain ⟨m, hm, ho⟩ := e6 (by dsimp only; omega)
          refine ⟨m, ?_, ho.cons⟩
          show walkBits (build f) cap _ bs = _
          rw [hm, List.length_cons]
          dsimp only
          rw [show w.sink.j + 1 + ys.length = w.sink.j + (ys.length + 1) by omega,
            show w.emitted + 1 + ys.length = w.emitted + (ys.length + 1) by omega]
        · simp only [List.length_cons] at h
          exact e7 (by dsimp only; omega)
      · obtain ⟨ys, p', cur', e1, e2, e3, e4, e5, _, _⟩ :=
          ih ⟨(build f).root, ⟨w.sink.mem, 0⟩, 0⟩ [] rfl ⟨_, _, _, hroot⟩ (Nat.zero_le _)
        rw [he]
        exact ⟨x :: ys, p', cur', hpay e1, e2, e3, hmem e4, by simp; omega, fun h => by simp at h; omega, fun _ => rfl⟩

/-- No present symbol's code is a prefix of another's (42_code_table.md R144). -/
theorem code_prefix_eq (hne : present f ≠ []) {x y : Byte} (hx : x ∈ present f) (hy : y ∈ present f)
    (h : codeOf (derive (build f)) x <+: codeOf (derive (build f)) y) : x = y := by
  rcases one_or_more_symbols hne with ⟨z, hz⟩ | h2
  · rw [hz, List.mem_singleton] at hx hy
    rw [hx, hy]
  · obtain ⟨c, hc⟩ := h
    obtain ⟨jx, frx, hjx, hnx⟩ := target_code h2 hx
    obtain ⟨jy, fry, hjy, hny⟩ := target_code h2 hy
    rw [← hc, Tree.target_append, hjx] at hjy
    cases c with
    | nil =>
      cases hjy
      rw [hnx] at hny
      cases hny
      rfl
    | cons d c => simp [Tree.target, hnx] at hjy

/-- A path to an Internal node begins with no symbol's code. -/
theorem no_code_of_internal (h2 : 2 ≤ (present f).length) {p : List Bool} {cur : NodeIndex}
    (hp : (build f).target (build f).root p = some cur) (hi : ∃ fr l r, (build f).node? cur = some (.internal fr l r)) :
    ∀ x ∈ present f, ¬ codeOf (derive (build f)) x <+: p := by
  rintro x hx ⟨c, rfl⟩
  obtain ⟨j, fr, hj, hn⟩ := target_code h2 hx
  rw [Tree.target_append, hj] at hp
  obtain ⟨fr', l, r, hi⟩ := hi
  cases c with
  | nil =>
    cases hp
    rw [hn] at hi
    cases hi
  | cons d c => simp [Tree.target, hn] at hp

/-- Bits begin with the codes of one sequence of symbols only. -/
theorem PayloadBegins.unique (hne : present f ≠ []) {bits : List Bool} {ys ys' : List Byte} {p p' : List Bool}
    (h : PayloadBegins f bits ys p) (h' : PayloadBegins f bits ys' p') : ys = ys' ∧ p = p' := by
  obtain ⟨h1, h2, h3⟩ := h
  obtain ⟨h1', h2', h3'⟩ := h'
  rw [h2] at h2'
  clear h2 bits
  induction ys generalizing ys' with
  | nil =>
    cases ys' with
    | nil => exact ⟨rfl, h2'⟩
    | cons y ys' =>
      exact absurd ⟨payloadOf (derive (build f)) ys' ++ p', by simpa [payloadOf] using h2'.symm⟩
        (h3 y (h1' y List.mem_cons_self))
  | cons x ys ih =>
    cases ys' with
    | nil =>
      exact absurd ⟨payloadOf (derive (build f)) ys ++ p, by simpa [payloadOf] using h2'⟩
        (h3' x (h1 x List.mem_cons_self))
    | cons y ys' =>
      have hh : codeOf (derive (build f)) x ++ (payloadOf (derive (build f)) ys ++ p)
          = codeOf (derive (build f)) y ++ (payloadOf (derive (build f)) ys' ++ p') := by
        simpa [payloadOf] using h2'
      have hx := h1 x List.mem_cons_self
      have hy := h1' y List.mem_cons_self
      have hxy : x = y := by
        rcases List.append_eq_append_iff.1 hh with ⟨c, hc, _⟩ | ⟨c, hc, _⟩
        · exact code_prefix_eq hne hx hy ⟨c, hc.symm⟩
        · exact (code_prefix_eq hne hy hx ⟨c, hc.symm⟩).symm
      subst hxy
      obtain ⟨rfl, rfl⟩ := ih (fun z hz => h1 z (List.mem_cons_of_mem _ hz))
        (fun z hz => h1' z (List.mem_cons_of_mem _ hz)) (List.append_cancel_left hh)
      exact ⟨rfl, rfl⟩

/-- A payload that spells `xs` begins with the codes of `xs`, and nothing is left. -/
theorem PayloadSpells.begins (hne : present f ≠ []) {bits : List Bool} {xs : List Byte} (h : PayloadSpells f bits xs) :
    PayloadBegins f bits xs [] :=
  ⟨h.1, by rw [List.append_nil]; exact h.2.1, fun x hx hp =>
    (code_ne_nil_iff hne x).2 hx (List.prefix_nil.1 hp)⟩

/-- Any bits begin with the codes of some symbols, at most one a bit, and then no code. -/
theorem payload_begins (hne : present f ≠ []) (bits : List Bool) :
    ∃ ys p, PayloadBegins f bits ys p ∧ ys.length ≤ bits.length := by
  induction hn : bits.length using Nat.strong_induction_on generalizing bits with
  | _ n ih =>
    by_cases h : ∃ x ∈ present f, codeOf (derive (build f)) x <+: bits
    · obtain ⟨x, hx, rest, rfl⟩ := h
      have hl := List.length_pos_iff.2 ((code_ne_nil_iff hne x).2 hx)
      rw [List.length_append] at hn
      obtain ⟨ys, p, ⟨h1, rfl, h3⟩, h4⟩ := ih rest.length (by omega) rest rfl
      refine ⟨x :: ys, p, ⟨?_, by simp [payloadOf], h3⟩, by rw [List.length_cons]; omega⟩
      intro y hy
      rcases List.mem_cons.1 hy with rfl | hy
      · exact hx
      · exact h1 y hy
    · exact ⟨[], bits, ⟨by simp, by simp [payloadOf], fun x hx hp => h ⟨x, hx, hp⟩⟩, by simp⟩

/-- The walk at a Leaf root: a 0 bit emits its symbol, and a 1 bit is MalformedStream unless the sink is full first
(44_bit_reader.md R164). -/
theorem walkBits_leafRoot {t : Tree} {x : Byte} {fr : NodeFreq} (hr : t.node? t.root = some (.leaf x fr)) (cap : Nat)
    (bs : List Bool) (w : Walker) (hw : w.cur = t.root) (hj : w.sink.j ≤ cap) :
    ((∀ b ∈ bs, b = false) →
      (w.sink.j + bs.length ≤ cap →
        ∃ m, walkBits t cap w bs = .ok ⟨t.root, ⟨m, w.sink.j + bs.length⟩, w.emitted + bs.length⟩ ∧
          OverlaidAt m w.sink.mem w.sink.j (List.replicate bs.length x)) ∧
      (cap < w.sink.j + bs.length → walkBits t cap w bs = .error (.ioFailure .sinkFull))) ∧
    ((∃ b ∈ bs, b = true) → w.sink.j + bs.length ≤ cap → walkBits t cap w bs = .error (.malformedStream .absentChild)) := by
  induction bs generalizing w with
  | nil =>
    refine ⟨fun _ => ⟨fun _ => ⟨w.sink.mem, ?_, .nil _ _⟩, fun h => by simp at h; omega⟩, by simp⟩
    simp only [walkBits, ← hw]
    rfl
  | cons b bs ih =>
    have hstep : walkBits t cap w (b :: bs) = (if b then .error (.malformedStream .absentChild)
        else walkEmit t cap w x).bind fun w' => walkBits t cap w' bs := by
      simp only [walkBits, walkBit, hw, hr]
    rw [hstep]
    cases b with
    | true => exact ⟨fun h => absurd (h true List.mem_cons_self) (by simp), fun _ _ => rfl⟩
    | false =>
      simp only [Bool.false_eq_true, if_false]
      rcases walkEmit_cases t cap w x with ⟨hjc, he⟩ | ⟨hjc, he⟩
      · rw [he]
        obtain ⟨h1, h2⟩ := ih ⟨t.root, ⟨w.sink.mem.write w.sink.j x, w.sink.j + 1⟩, w.emitted + 1⟩ rfl hjc
        constructor
        · intro hb
          obtain ⟨h3, h4⟩ := h1 fun b hb' => hb b (List.mem_cons_of_mem _ hb')
          refine ⟨fun h => ?_, fun h => h4 (by simp at h; dsimp only; omega)⟩
          obtain ⟨m, hm, ho⟩ := h3 (by simp at h; dsimp only; omega)
          refine ⟨m, ?_, ho.cons⟩
          show walkBits t cap _ bs = _
          rw [hm, List.length_cons]
          dsimp only
          rw [show w.sink.j + 1 + bs.length = w.sink.j + (bs.length + 1) by omega,
            show w.emitted + 1 + bs.length = w.emitted + (bs.length + 1) by omega]
        · rintro ⟨b, hb, rfl⟩ h
          exact h2 ⟨true, by simpa using hb, rfl⟩ (by simp at h; dsimp only; omega)
      · rw [he]
        exact ⟨fun _ => ⟨fun h => by simp at h; omega, fun _ => rfl⟩, fun _ h => by simp at h; omega⟩

/-- The payload of a symbol that is alone is one 0 bit per occurrence (42_code_table.md R143). -/
theorem payloadOf_single {x : Byte} (h : present f = [x]) (xs : List Byte) (hx : ∀ y ∈ xs, y ∈ present f) :
    payloadOf (derive (build f)) xs = List.replicate xs.length false ∧ xs = List.replicate xs.length x := by
  induction xs with
  | nil => simp [payloadOf]
  | cons y ys ih =>
    obtain ⟨h1, h2⟩ := ih fun z hz => hx z (List.mem_cons_of_mem _ hz)
    have hy : y = x := by simpa [h] using hx y List.mem_cons_self
    subst hy
    constructor
    · unfold payloadOf at *
      rw [List.flatMap_cons, h1, derive_single h]
      simp [List.replicate_succ]
    · rw [List.length_cons, List.replicate_succ, ← h2]

theorem walkBits_append (t : Tree) (cap : Nat) (w : Walker) (as bs : List Bool) :
    walkBits t cap w (as ++ bs) = (walkBits t cap w as).bind fun w' => walkBits t cap w' bs := by
  induction as generalizing w with
  | nil => rfl
  | cons a as ih =>
    simp only [List.cons_append, walkBits]
    cases walkBit t cap w a with
    | error e => rfl
    | ok w' => exact ih w'

theorem walkDecode_of_ok {t : Tree} {cap : Nat} {k : Sink} {bs : List Bool} {w : Walker}
    (h : walkBits t cap ⟨t.root, k, 0⟩ bs = .ok w) : walkDecode t cap k bs = walkEnd t w := by
  rw [walkDecode, h]
  rfl

theorem walkDecode_of_error {t : Tree} {cap : Nat} {k : Sink} {bs : List Bool} {e : Raise}
    (h : walkBits t cap ⟨t.root, k, 0⟩ bs = .error e) : walkDecode t cap k bs = .error e := by
  rw [walkDecode, h]
  rfl

/-- `walk_decode` of bits that spell `xs` emits `xs`, or the sink is full first (44_bit_reader.md R162, R165). -/
theorem walkDecode_spells (hne : present f ≠ []) (cap : Nat) (m0 : Memory) {bs : List Bool} {xs : List Byte}
    (h : PayloadSpells f bs xs) :
    (xs.length ≤ cap → ∃ m, walkDecode (build f) cap ⟨m0, 0⟩ bs = .ok ⟨m, xs.length⟩ ∧ Overlaid m m0 xs) ∧
    (cap < xs.length → walkDecode (build f) cap ⟨m0, 0⟩ bs = .error (.ioFailure .sinkFull)) := by
  obtain ⟨g1, g2, g3⟩ := h
  rcases one_or_more_symbols hne with ⟨x, hx⟩ | h2
  · obtain ⟨e1, e2⟩ := payloadOf_single hx xs g1
    have hbs : bs = List.replicate xs.length false := g2.trans e1
    have hl : bs.length = xs.length := by rw [hbs, List.length_replicate]
    obtain ⟨h1, h2⟩ := (walkBits_leafRoot (build_root_leaf hx) cap bs ⟨(build f).root, ⟨m0, 0⟩, 0⟩ rfl
      (Nat.zero_le _)).1 (fun b hb => List.eq_of_mem_replicate (hbs ▸ hb))
    simp only [Nat.zero_add, hl] at h1 h2
    refine ⟨fun hc => ?_, fun hc => walkDecode_of_error (h2 hc)⟩
    obtain ⟨m, hm, ho⟩ := h1 hc
    refine ⟨m, ?_, ?_⟩
    · rw [walkDecode_of_ok hm]
      simp [walkEnd, build_rootFreq hne, g3]
    · rw [← e2] at ho
      exact ho.overlaid
  · obtain ⟨_, _, _, hroot⟩ := build_root_internal h2
    obtain ⟨ys, p', cur', e1, e2, e3, e4, _, e6, e7⟩ :=
      walkBits_spec h2 cap bs ⟨(build f).root, ⟨m0, 0⟩, 0⟩ [] rfl ⟨_, _, _, hroot⟩ (Nat.zero_le _)
    simp only [Nat.zero_add, List.nil_append] at e1 e6 e7
    obtain ⟨rfl, rfl⟩ := (PayloadSpells.begins hne ⟨g1, g2, g3⟩).unique hne ⟨e4, e1, no_code_of_internal h2 e2 e3⟩
    have hcur : cur' = (build f).root := (Option.some.inj e2).symm
    refine ⟨fun hc => ?_, fun hc => walkDecode_of_error (e7 hc)⟩
    obtain ⟨m, hm, ho⟩ := e6 hc
    refine ⟨m, ?_, ho.overlaid⟩
    rw [walkDecode_of_ok hm]
    simp [walkEnd, build_rootFreq hne, g3, hcur]

/-- `walk_decode` of bits that begin with the codes of `ys` and then no code, and are not the payload of the tree's own
symbols: MalformedStream, or IoFailure when `ys` does not fit, as the walk reaches the sink's end first (44_bit_reader.md
R162, R164, 60_exceptions.md R210). -/
theorem walkDecode_begins (hne : present f ≠ []) (cap : Nat) (m0 : Memory) {bs : List Bool} {ys : List Byte}
    {p : List Bool} (h : PayloadBegins f bs ys p) (hbad : p ≠ [] ∨ ys.length ≠ totalCount f) :
    ∃ e, walkDecode (build f) cap ⟨m0, 0⟩ bs = .error e ∧
      e.errorCode = if ys.length ≤ cap then .malformedStream else .ioFailure := by
  rcases one_or_more_symbols hne with ⟨x, hx⟩ | h2
  · obtain ⟨g1, g2, g3⟩ := h
    have hroot := build_root_leaf hx
    obtain ⟨h1, h4⟩ := (walkBits_leafRoot hroot cap (List.replicate ys.length false) ⟨(build f).root, ⟨m0, 0⟩, 0⟩ rfl
      (Nat.zero_le _)).1 fun b hb => List.eq_of_mem_replicate hb
    simp only [Nat.zero_add, List.length_replicate] at h1 h4
    rw [(payloadOf_single hx ys g1).1] at g2
    split
    · rename_i hc
      obtain ⟨m, hm, _⟩ := h1 hc
      cases p with
      | nil =>
        refine ⟨.malformedStream .symbolCountMismatch, ?_, rfl⟩
        rw [List.append_nil] at g2
        rw [g2, walkDecode_of_ok hm]
        simp [walkEnd, build_rootFreq hne, hbad.resolve_left (by simp)]
      | cons b q =>
        have hb : b = true := by
          have := g3 x (by rw [hx]; exact List.mem_singleton_self x)
          rw [derive_single hx, if_pos rfl] at this
          cases b
          · exact absurd ⟨q, rfl⟩ this
          · rfl
        subst hb
        refine ⟨.malformedStream .absentChild, walkDecode_of_error ?_, rfl⟩
        rw [g2, walkBits_append, hm]
        simp only [Except.bind, walkBits, walkBit, hroot, if_true]
    · rename_i hc
      refine ⟨.ioFailure .sinkFull, walkDecode_of_error ?_, rfl⟩
      rw [g2, walkBits_append, h4 (by omega)]
      rfl
  · obtain ⟨_, _, _, hroot⟩ := build_root_internal h2
    obtain ⟨ys', p', cur', e1, e2, e3, e4, _, e6, e7⟩ :=
      walkBits_spec h2 cap bs ⟨(build f).root, ⟨m0, 0⟩, 0⟩ [] rfl ⟨_, _, _, hroot⟩ (Nat.zero_le _)
    simp only [Nat.zero_add, List.nil_append] at e1 e6 e7
    obtain ⟨rfl, rfl⟩ := h.unique hne ⟨e4, e1, no_code_of_internal h2 e2 e3⟩
    split
    · rename_i hc
      obtain ⟨m, hm, _⟩ := e6 hc
      rw [walkDecode_of_ok hm]
      by_cases hcur : cur' = (build f).root
      · have hp : p = [] := target_inj hne (hcur ▸ e2) rfl
        exact ⟨.malformedStream .symbolCountMismatch,
          by simp [walkEnd, build_rootFreq hne, hcur, hbad.resolve_left (fun h => h hp)], rfl⟩
      · exact ⟨.malformedStream .endsMidPath, by simp [walkEnd, hcur], rfl⟩
    · exact ⟨.ioFailure .sinkFull, walkDecode_of_error (e7 (by omega)), rfl⟩

/-- `walk_decode` of bits that spell no sequence of symbols raises MalformedStream, unless the sink could be full first
(44_bit_reader.md R162, R164). -/
theorem walkDecode_rejects (hne : present f ≠ []) (cap : Nat) (m0 : Memory) {bs : List Bool} (hc : bs.length ≤ cap)
    (hno : ¬ ∃ xs, PayloadSpells f bs xs) :
    ∃ e, walkDecode (build f) cap ⟨m0, 0⟩ bs = .error e ∧ e.errorCode = .malformedStream := by
  obtain ⟨ys, p, h, hl⟩ := payload_begins hne bs
  obtain ⟨e, he, hcode⟩ := walkDecode_begins hne cap m0 h (by
    by_contra hb
    rw [not_or, not_not, not_not] at hb
    exact hno ⟨ys, h.1, by rw [h.2.1, hb.1, List.append_nil], hb.2⟩)
  exact ⟨e, he, by rw [hcode, if_pos (by omega)]⟩

/-- Whatever the tree and the bits, the walk only writes from the cursor on and below the capacity. -/
theorem walkDecode_reaches {t : Tree} {cap : Nat} {k k' : Sink} {bs : List Bool} (h : walkDecode t cap k bs = .ok k') :
    Sink.Reaches cap k k' := by
  have emit : ∀ {w w' : Walker} {x : Byte}, walkEmit t cap w x = .ok w' → Sink.Reaches cap w.sink w'.sink := by
    intro w w' x h
    unfold walkEmit at h
    cases he : emit8 cap w.sink x with
    | error e =>
      rw [he] at h
      cases h
    | ok k =>
      rw [he] at h
      cases h
      exact emit8_reaches he
  have one : ∀ {w w' : Walker} {b : Bool}, walkBit t cap w b = .ok w' → Sink.Reaches cap w.sink w'.sink := by
    intro w w' b h
    unfold walkBit at h
    split at h
    · cases h
    · split at h
      · cases h
      · exact emit h
    · unfold walkDescend at h
      split at h
      · cases h
      · exact emit h
      · cases h
        exact .refl _ _
  have all : ∀ (bs : List Bool) {w w' : Walker}, walkBits t cap w bs = .ok w' → Sink.Reaches cap w.sink w'.sink := by
    intro bs
    induction bs with
    | nil =>
      intro w w' h
      cases h
      exact .refl _ _
    | cons b bs ih =>
      intro w w' h
      simp only [walkBits] at h
      cases he : walkBit t cap w b with
      | error e =>
        rw [he] at h
        cases h
      | ok q =>
        rw [he] at h
        exact (one he).trans (ih h)
  cases he : walkBits t cap ⟨t.root, k, 0⟩ bs with
  | error e =>
    rw [walkDecode_of_error he] at h
    cases h
  | ok w =>
    rw [walkDecode_of_ok he, walkEnd] at h
    split at h
    · cases h
    · split at h
      · cases h
      · cases h
        exact all bs he

/-- The walk raises nothing but IoFailure and MalformedStream. -/
theorem walkDecode_error {t : Tree} {cap : Nat} {k : Sink} {bs : List Bool} {e : Raise}
    (h : walkDecode t cap k bs = .error e) : (∃ c, e = .ioFailure c) ∨ ∃ c, e = .malformedStream c := by
  have emit : ∀ {w : Walker} {x : Byte} {e : Raise}, walkEmit t cap w x = .error e →
      (∃ c, e = .ioFailure c) ∨ ∃ c, e = .malformedStream c := by
    intro w x e h
    rcases walkEmit_cases t cap w x with ⟨_, h'⟩ | ⟨_, h'⟩ <;> rw [h'] at h <;> cases h
    exact .inl ⟨_, rfl⟩
  have all : ∀ (bs : List Bool) {w : Walker} {e : Raise}, walkBits t cap w bs = .error e →
      (∃ c, e = .ioFailure c) ∨ ∃ c, e = .malformedStream c := by
    intro bs
    induction bs with
    | nil =>
      intro w e h
      cases h
    | cons b bs ih =>
      intro w e h
      simp only [walkBits] at h
      cases hb : walkBit t cap w b with
      | ok w' =>
        rw [hb] at h
        exact ih h
      | error e' =>
        rw [hb] at h
        cases h
        unfold walkBit at hb
        split at hb
        · cases hb
          exact .inr ⟨_, rfl⟩
        · split at hb
          · cases hb
            exact .inr ⟨_, rfl⟩
          · exact emit hb
        · unfold walkDescend at hb
          split at hb
          · cases hb
            exact .inr ⟨_, rfl⟩
          · exact emit hb
          · cases hb
  cases hb : walkBits t cap ⟨t.root, k, 0⟩ bs with
  | error e' =>
    rw [walkDecode_of_error hb] at h
    cases h
    exact all bs hb
  | ok w =>
    rw [walkDecode_of_ok hb, walkEnd] at h
    split at h
    · cases h
      exact .inr ⟨_, rfl⟩
    · split at h
      · cases h
        exact .inr ⟨_, rfl⟩
      · cases h

end Sys2Proof.Machine
end

