-- ==== Sys2Proof/Tests/Slice0.lean ====
section
/-! SUPPORT. Tests of the model and the witnesses of the statements' hypotheses. Expected results are the spec's own:
30_encoding.md R82 and the vectors of 95_test_vectors.md (L1 to L3), named at each test. -/

open Sys2Proof Sys2Proof.Machine

namespace Sys2Proof.Tests

-- One theorem after another: many at once can run out of threads.
set_option Elab.async false

/-! ## Words -/

theorem test_rsvd_clear_refuses_bit_4 : rsvdClear 0x00000011#32 = false := by decide
theorem test_rsvd_clear_refuses_bit_31 : rsvdClear 0x80000006#32 = false := by decide
theorem test_opcode_defined_refuses_0 : opcodeDefined 0x00000000#32 = false := by decide
theorem test_opcode_defined_refuses_9 : opcodeDefined 0x00000009#32 = false := by decide
/-- L2.9, all five words. -/
theorem test_legal_word_refuses :
    [0x00000000#32, 0x00000009#32, 0x0000000F#32, 0x00000011#32, 0x80000006#32].map legalWord
      = [false, false, false, false, false] := by decide
/-- R82, by hand: the opcode in bits 3:0 of the first byte, the three bytes above it 0. -/
theorem test_decode_collect : decodeBytes [0b00000001, 0, 0, 0] = .ok (.collect, []) := by decide
theorem test_decode_build : decodeBytes [0b00000010, 0, 0, 0] = .ok (.build, []) := by decide
theorem test_decode_derive : decodeBytes [0b00000011, 0, 0, 0] = .ok (.derive, []) := by decide
theorem test_decode_pack : decodeBytes [0b00000100, 0, 0, 0] = .ok (.pack, []) := by decide
theorem test_decode_unpack : decodeBytes [0b00000101, 0, 0, 0] = .ok (.unpack, []) := by decide
theorem test_decode_encode : decodeBytes [0b00000110, 0, 0, 0] = .ok (.encode, []) := by decide
theorem test_decode_decode : decodeBytes [0b00000111, 0, 0, 0] = .ok (.decode, []) := by decide
theorem test_decode_clear : decodeBytes [0b00001000, 0, 0, 0] = .ok (.clear, []) := by decide
theorem test_decode_truncated : decodeBytes [0x08, 0, 0] = .error .truncated := by decide
theorem test_decode_opcode_9 : decodeBytes [0x09, 0, 0, 0] = .error .reservedOpcode := by decide
theorem test_decode_opcode_0 : decodeBytes [0x00, 0, 0, 0] = .error .reservedOpcode := by decide
theorem test_decode_bit_31 : decodeBytes [0x06, 0, 0, 0x80] = .error .reservedBits := by decide
theorem test_table_word_decodes : (List.range 10).map (decodeTableWord 32) =
    [none, some .collect, some .build, some .derive, some .pack, some .unpack, some .encode, some .decode, some .clear,
      none] := by decide

/-! ## Small states -/

/-- The state an outcome gives, if it gives one. -/
def nextOf (o : Host.Outcome State Fault Refusal) : Option State :=
  match o with
  | .next t => some t
  | .fault _ => none
  | .refused _ => none

/-- The cells of bytes from index `a` on. -/
def cellsFrom (a : Nat) (bs : List Byte) : List Host.Cell :=
  match bs with
  | [] => []
  | b :: rest => (a, b) :: cellsFrom (a + 1) rest

/-- An idle block of capacities 64 and `outCap`, with `bs` in IN and their number in IN_LEN. -/
def loaded (outCap : Word) (bs : List Byte) : State :=
  { State.resetWith 64#32 outCap 0 1 2 with inp := ⟨0, cellsFrom 0 bs⟩, inLen := BitVec.ofNat 32 bs.length }

/-- The input "aaab" in a block whose OUT has `outCap` bytes. -/
def aaab (outCap : Word) : State := loaded outCap [0x61, 0x61, 0x61, 0x62]

/-- The table of L1.1: 0x61 three times, 0x62 once. -/
def freqAaab : FreqTable := setCount (setCount emptyTable 0x61#8 3#32) 0x62#8 1#32

/-- The tree of L2.2, vector 1, written out from it. -/
def treeAaab : Tree := ⟨2, [.leaf 0x61#8 3#40, .leaf 0x62#8 1#40, .internal 4#40 1#9 0#9]⟩

/-- The codes of L2.3, vector 1: 'a' is "1", 'b' is "0". -/
def codeAaab : CodeTable := setCode (setCode noCodes 0x62#8 [false]) 0x61#8 [true]

/-- The table of L2.2, vector 3: 0x41 five times. -/
def freqFive : FreqTable := setCount emptyTable 0x41#8 5#32

theorem countOf_freqAaab (x : Byte) :
    countOf freqAaab x = if x = 0x62#8 then 1#32 else if x = 0x61#8 then 3#32 else 0#32 := by
  rw [freqAaab, countOf_setCount, countOf_setCount, countOf_emptyTable]
theorem countOf_freqFive (x : Byte) : countOf freqFive x = if x = 0x41#8 then 5#32 else 0#32 := by
  rw [freqFive, countOf_setCount, countOf_emptyTable]
theorem present_freqAaab : present freqAaab = [0x61, 0x62] := by rw [present, funext countOf_freqAaab]; decide +kernel
theorem totalCount_freqAaab : totalCount freqAaab = 4 := by rw [← sum_present, present_freqAaab]; decide +kernel
theorem present_freqFive : present freqFive = [0x41] := by rw [present, funext countOf_freqFive]; decide +kernel
theorem totalCount_freqFive : totalCount freqFive = 5 := by rw [← sum_present, present_freqFive]; decide +kernel

/-- L2.2, vector 1. -/
theorem test_build : build freqAaab = treeAaab := by rw [build, leaves, present_freqAaab]; decide +kernel
/-- L2.2, vector 3. -/
theorem test_build_single : build freqFive = ⟨0, [.leaf 0x41#8 5#40]⟩ := by
  rw [build, leaves, present_freqFive]; decide +kernel
/-- L2.3, vectors 1 and 2. -/
theorem test_derive : derive treeAaab = codeAaab := by
  simp [derive, deriveWalk, treeAaab, Tree.node?, Tree.count, codeAaab]
theorem test_derive_single : derive ⟨0, [.leaf 0x41#8 5#40]⟩ = setCode noCodes 0x41#8 [false] := by
  simp [derive, Tree.node?]

/-- A block with the tables of "aaab". -/
def withTables (outCap : Word) (bs : List Byte) (n : BitCount) : State :=
  { loaded outCap bs with freq := freqAaab, tree := some treeAaab, code := some codeAaab, bitCount := n }

/-- The stream S of L1.1. -/
def streamS : List Byte :=
  [0x02, 0, 0, 0, 0x61, 3, 0, 0, 0, 0x62, 1, 0, 0, 0, 4, 0, 0, 0, 0, 0, 0, 0, 0xE0]

/-- ERR_CODE and the output OUT[0 .. OUT_LEN-1] of a command. -/
def resultOf (i : Instr) (s : State) : Option (ErrorCode × List Byte) :=
  (nextOf (exec i s)).map fun t => (t.errCode, bytesAt t.out 0 t.outLen.toNat)

/-- STATUS after a command. -/
def statusOf (i : Instr) (s : State) : Option Word := (nextOf (exec i s)).map State.statusWord

/-! ## Commands -/

/-- L2.1, vector 1. -/
theorem test_collect : (nextOf (exec .collect (aaab 64#32))).map
    (fun t => (countOf t.freq 0x61#8, countOf t.freq 0x62#8, t.statusWord)) = some (3#32, 1#32, 0x02#32) := by decide +kernel
/-- L2.1, vector 4: overwritten, not added. -/
theorem test_collect_overwrites : (nextOf (exec .collect (withTables 64#32 [0x41] 0#64))).map
    (fun t => (countOf t.freq 0x41#8, countOf t.freq 0x61#8, t.statusWord)) = some (1#32, 0#32, 0x02#32) := by decide +kernel
/-- L2.4, vectors 2 and 5. -/
theorem test_pack : resultOf .pack { loaded 64#32 [0x61, 0x62, 0x62, 0x61] with code := some codeAaab }
    = some (.none, [0x90]) := by decide +kernel
theorem test_pack_nine : resultOf .pack { loaded 64#32 (List.replicate 9 0x61) with code := some codeAaab }
    = some (.none, [0xFF, 0x80]) := by decide +kernel
/-- L2.5, vectors 2 and 5. -/
theorem test_unpack : resultOf .unpack { loaded 64#32 [0xEF] with tree := some treeAaab, bitCount := 4#64 }
    = some (.none, [0x61, 0x61, 0x61, 0x62]) := by decide +kernel
theorem test_unpack_mismatch : resultOf .unpack { loaded 64#32 [0xE0] with tree := some treeAaab, bitCount := 5#64 }
    = some (.malformedStream, []) := by decide +kernel
/-- L1.1, the stream of "aaab", in an OUT that it fills. -/
theorem test_encode : resultOf .encode (aaab 23#32) = some (.none, streamS) := by
  decide +kernel
/-- L2.7, vectors 1 and 5. -/
theorem test_decode_stream : resultOf .decode (loaded 64#32 streamS) = some (.none, [0x61, 0x61, 0x61, 0x62]) := by
  decide +kernel
theorem test_decode_short : statusOf .decode (loaded 64#32 (streamS.take 22)) = some 0x06#32 := by decide +kernel
/-- L2.8, vector 1. -/
theorem test_clear : statusOf .clear (withTables 64#32 [] 4#64) = some 0x02#32 := by decide +kernel

/-! ## Host accesses -/

/-- Some values read, newest first. -/
def readsOf (s : State) (as : List Access) : List Word := (as.foldl hostAccess s).reads

/-- P3's NODE reads, on the tree of L2.2 vector 1: NODE2 = (0x00000100, 4), ROOT 2, NODE_COUNT 3. -/
theorem test_node_window : readsOf (withTables 64#32 [] 0#64)
    [.readReg 32 0x1020, .readReg 32 0x1024, .readReg 32 0x1000, .readReg 32 0x002C, .readReg 32 0x0030, .readReg 32 0x1030]
    = [0#32, 3#32, 2#32, 0x80000061#32, 4#32, 0x00000100#32] := by decide +kernel
/-- P3's formats, on the codes of L2.3 vector 1: 0x61 is (1, 0x1), 0x62 is (1, 0x0). -/
theorem test_code_window : readsOf (withTables 64#32 [] 0#64)
    [.readReg 32 0x5840, .readReg 32 0x5844, .readReg 32 0x5880, .readReg 32 0x5884]
    = [0#32, 1#32, 1#32, 1#32] := by decide +kernel
/-- L2.10, vectors 3, 4 and 5: only the third leaves IGNORED. -/
theorem test_ignored_accesses :
    ((hostAccess (loaded 64#32 []) (.writeReg 32 0x0002 0#32)).ignored,
     (hostAccess (loaded 64#32 []) (.writeReg 32 0x0018 0#32)).ignored,
     (hostAccess (loaded 64#32 []) (.writeReg 32 0x0100 0#32)).ignored) = (true, true, false) := by decide +kernel
/-- L2.10, vector 10. -/
theorem test_bit_count_hi :
    (hostAccess (withTables 64#32 [] 4#64) (.writeReg 32 0x0028 1#32)).bitCount = 0x0000000100000004#64 := by
  decide +kernel

/-! ## Steps -/

/-- Every legal word, placed as the next command, is run by the next step from reset. -/
theorem test_fetched_word_runs : ∀ w ∈ [1, 2, 3, 4, 5, 6, 7, 8], ∃ i, decodeTableWord 32 w = some i ∧
    step (State.reset.withFetchWord 32 w) = exec i (State.reset.accept (tableWord 32 w)) := by
  intro w hw
  fin_cases hw
  exacts [⟨.collect, rfl, rfl⟩, ⟨.build, rfl, rfl⟩, ⟨.derive, rfl, rfl⟩, ⟨.pack, rfl, rfl⟩, ⟨.unpack, rfl, rfl⟩,
    ⟨.encode, rfl, rfl⟩, ⟨.decode, rfl, rfl⟩, ⟨.clear, rfl, rfl⟩]

/-- P5, both orders of the engine's turn and the IN_LEN write: (STATUS, IN_LEN) at the end. -/
def raceEnd (es : List Event) : Option (Word × Word) :=
  match core.run 2 { loaded 64#32 [0x61] with seq := .pending 1#32, agenda := es } with
  | .next t => some (State.statusWord t, State.inLen t)
  | .fault _ => none
  | .refused _ => none

theorem test_race_engine_first : raceEnd [.engineTurn, .host (.writeReg 32 0x0014 0#32)] = some (0x02#32, 0#32) := by
  decide +kernel
theorem test_race_write_first : raceEnd [.host (.writeReg 32 0x0014 0#32), .engineTurn] = some (0x22#32, 1#32) := by
  decide +kernel

/-- What a host program has left, and what it has read, newest first. -/
def scriptEnd (ts : List Turn) (ops : List ScriptOp) (s : State) : Option (List ScriptOp × List Word) :=
  match runScript ts ops s with
  | .next r => some (r.1, r.2.reads)
  | .fault _ => none
  | .refused _ => none

/-- P6, its last lines: CMD CLEAR, WAIT, RD STATUS; two polls before the engine's turn read BUSY. -/
theorem test_script_wait : scriptEnd [.host, .host, .host, .engine, .host, .host]
    ((scriptCmd .clear).map .access ++ [.wait, .access (.readReg 32 0x000C)]) (loaded 64#32 [])
      = some ([], [0x02#32, 0x02#32, 0x01#32, 0x01#32]) := by decide +kernel
/-- P3, READOUT of DF D4 00, by the OUT_LEN it reads. -/
theorem test_script_readout : scriptEnd (List.replicate 4 .host) [.readOut]
    { loaded 64#32 [] with out := ⟨1, cellsFrom 0 [0xDF, 0xD4, 0x00]⟩, outLen := 3#32 }
      = some ([], [0x00#32, 0xD4#32, 0xDF#32, 3#32]) := by decide +kernel

/-! ## Witnesses: states and operands that meet the statements' hypotheses -/

/-- A block with a pending DERIVE and no event to come. -/
def busyBlock : State := { loaded 64#32 [0x61] with seq := .pending 3#32 }

/-- A block whose host still polls and writes before the engine's turn. -/
def racingBlock : State :=
  { busyBlock with agenda := [Access.readReg 32 0x000C, .writeIn 0 0#8, .readOut 63].map .host }

/-- A legal word pending with and without an event, an illegal one (bit 4 set, L2.9), an idle block, a host event. -/
theorem witness_EngineTurnRunsDecodedCommand :
    (busyBlock.seq = .pending 3#32 ∧ decode 3#32 = .ok .derive ∧ busyBlock.agenda = []) ∧
    ({ busyBlock with seq := .pending 0x11#32, agenda := [.engineTurn] }.seq = .pending 0x11#32 ∧ ∀ i, 0x11#32 ≠ encode i) ∧
    { busyBlock with agenda := [.engineTurn] }.agenda = .engineTurn :: [] ∧
    ((loaded 0#32 []).seq = .idle ∧ (loaded 0#32 []).agenda = []) ∧
    racingBlock.agenda = .host (.readReg 32 0x000C) :: [.host (.writeIn 0 0#8), .host (.readOut 63)] := by
  refine ⟨by decide +kernel, ⟨rfl, ?_⟩, by decide +kernel, by decide +kernel, by decide +kernel⟩
  intro i; cases i <;> decide
/-- `exec i s = .next t` has its `t` for every command: CommandsReportOnlyTheirErrors, CommandsLeaveHostState. -/
theorem witness_commands_complete : ∀ i, (nextOf (exec i (loaded 64#32 [0x61]))).isSome = true := by
  intro i; cases i <;> rfl
/-- AcceptedCommandCompletes and OperandsAreFixedWhileBusy. -/
theorem witness_racing : racingBlock.seq = .pending 3#32 ∧
    racingBlock.agenda = [Access.readReg 32 0x000C, .writeIn 0 0#8, .readOut 63].map .host := by decide +kernel
/-- The busy and the idle block of CmdWriteAccepted, BusyWrites, BusyReads, FreqWriteClearsTables, BitCountHalves,
SymCountReads, NodeWindowReads, CodeWindowReads. -/
theorem witness_busy_and_idle : busyBlock.seq ≠ .idle ∧ (loaded 64#32 []).seq = .idle ∧ busyBlock.errCode = .none := by
  decide +kernel
/-- BusyWrites: the first and last read-only and reserved offsets, and the ends of FREQ. -/
theorem witness_BusyWrites_offsets :
    (regAccess (regAt 0x0000) = .readOnly ∧ regAccess (regAt 0x0034) = .readOnly ∧ regAccess (regAt 0x1000) = .readOnly ∧
      regAccess (regAt 0x7FFC) = .readOnly) ∧
    (regAccess (regAt 0x0038) = .reserved ∧ regAccess (regAt 0x03FC) = .reserved ∧ regAccess (regAt 0x0800) = .reserved ∧
      regAccess (regAt 0x3FFC) = .reserved) ∧
    (regAccess (regAt 0x0400) = .readWrite ∧ regAccess (regAt 0x07FC) = .readWrite) := by decide +kernel
/-- RegisterMap: the first and last offsets of the windows. -/
theorem witness_RegisterMap :
    [0x0000, 0x0034, 0x0400, 0x07FC, 0x1000, 0x2FFC, 0x4000, 0x7FFC].map (fun o => offsetOf (regAt o)) =
      [0x0000, 0x0034, 0x0400, 0x07FC, 0x1000, 0x2FFC, 0x4000, 0x7FFC].map some := by decide +kernel
/-- ReservedAndBadAccesses: the ends of the reserved ranges, a wrong width, a wrong alignment. -/
theorem witness_ReservedAndBadAccesses :
    (∀ o ∈ [0x0038, 0x03FC, 0x0800, 0x0FFC, 0x3000, 0x3FFC], o % 4 = 0 ∧
      (0x0038 ≤ o ∧ o < 0x0400 ∨ 0x0800 ≤ o ∧ o < 0x1000 ∨ 0x3000 ≤ o ∧ o < 0x4000)) ∧
    (8 ≠ 32 ∨ 0 % 4 ≠ 0) ∧ (32 ≠ 32 ∨ 2 % 4 ≠ 0) := by decide
/-- InAccess and OutAccess: the last index inside and the first outside, of both spaces. -/
theorem witness_byte_accesses :
    (63 < busyBlock.inCap.toNat ∧ busyBlock.inCap.toNat ≤ 64) ∧ (63 < busyBlock.outCap.toNat ∧ busyBlock.outCap.toNat ≤ 64) ∧
    (63 < (loaded 64#32 []).inCap.toNat ∧ (loaded 64#32 []).outCap.toNat ≤ 64) ∧ (loaded 0#32 []).outCap.toNat ≤ 0 := by
  decide +kernel
/-- BusyReads: the ends of the ranges of drawn reads. -/
theorem witness_BusyReads : ∀ o ∈ [0x0024, 0x0034, 0x0400, 0x07FC, 0x1000, 0x2FFC, 0x4000, 0x7FFC], o % 4 = 0 ∧
    (o ∈ [0x0024, 0x0028, 0x002C, 0x0030, 0x0034] ∨ 0x0400 ≤ o ∧ o < 0x0800 ∨ 0x1000 ≤ o ∧ o < 0x3000 ∨
      0x4000 ≤ o ∧ o < 0x8000) := by decide
/-- RegisterAccess: the ends of the read-only ranges; witness_busy_and_idle has the states. -/
theorem witness_RegisterAccess : ∀ o ∈ [0x0000, 0x0034, 0x1000, 0x2FFC, 0x4000, 0x7FFC],
    o ∈ [0x0000, 0x0010, 0x0018, 0x001C, 0x0020, 0x002C, 0x0030, 0x0034] ∨
      o % 4 = 0 ∧ (0x1000 ≤ o ∧ o < 0x3000 ∨ 0x4000 ≤ o ∧ o < 0x8000) := by decide
theorem witness_ReadsHaveNoSideEffect : ∀ a ∈ [Access.readReg 32 0x7FFC, .readReg 32 0, .readIn 63, .readOut 63],
    goodRead (loaded 64#32 []) a = true := by decide +kernel
theorem witness_ConstantRegisters : (nextOf (step (loaded 64#32 []))).isSome = true := by decide +kernel
/-- NodeWindowReads and CodeWindowReads: slot 2 holds a node, slot 3 none; a code of one bit; words 0, 8, 9 and 15. -/
theorem witness_windows :
    ((withTables 64#32 [] 0#64).seq = .idle ∧ (withTables 64#32 [] 0#64).tree = some treeAaab ∧ treeAaab.count ≤ 511 ∧
      treeAaab.nodes[(2#9).toNat]? = some (.internal 4#40 1#9 0#9) ∧ treeAaab.count ≤ (3#9).toNat) ∧
    ((withTables 64#32 [] 0#64).code = some codeAaab ∧ (codeOf codeAaab 0x61#8).length ≤ 255 ∧ ∀ k ∈ [0, 1, 8, 9, 15], k < 16) ∧
    ((loaded 64#32 []).tree = none ∧ (loaded 64#32 []).code = none) :=
  ⟨⟨rfl, rfl, by decide, rfl, by decide⟩, ⟨rfl, by decide +kernel, by decide⟩, rfl, rfl⟩
theorem witness_ResetEventResets : { busyBlock with agenda := [.reset, .engineTurn] }.agenda = .reset :: [.engineTurn] := by
  decide +kernel

/-- CollectCounts, EmptyInputRoundTrip and the premise of every command that reads IN: no input, some, and as much as IN
holds. -/
theorem witness_source_fits :
    (loaded 64#32 []).inLen.toNat ≤ (loaded 64#32 []).inCap.toNat ∧
    (loaded 64#32 streamS).inLen.toNat ≤ (loaded 64#32 streamS).inCap.toNat ∧
    (loaded 64#32 (List.replicate 64 0#8)).inLen.toNat = (loaded 64#32 (List.replicate 64 0#8)).inCap.toNat := by
  decide +kernel
theorem witness_FrequenciesAreConserved : (∃ f, collect [0x61, 0x61, 0x61, 0x62] = .ok f) ∧
    [0x61#8, 0x61, 0x61, 0x62].length ≤ 2 ^ 32 - 1 ∧ (∃ f, collect [] = .ok f) :=
  ⟨(collect_ok _ (by decide)).imp fun _ h => h.1, by decide, (collect_ok _ (by decide)).imp fun _ h => h.1⟩
/-- PrechecksCommitNothing: an illegal word, no tables, and one byte too many with and without tables. -/
theorem witness_PrechecksCommitNothing :
    (∀ i, 0x11#32 ≠ encode i) ∧
    ((loaded 64#32 []).tree = none ∧ (loaded 64#32 []).code = none) ∧
    { withTables 64#32 [] 0#64 with inLen := 65#32 }.inCap.toNat < { withTables 64#32 [] 0#64 with inLen := 65#32 }.inLen.toNat ∧
    (withTables 64#32 [] 0#64).code ≠ none ∧ (withTables 64#32 [] 0#64).tree ≠ none := by
  refine ⟨?_, ⟨rfl, rfl⟩, by decide +kernel, nofun, nofun⟩
  intro i; cases i <;> decide
theorem witness_BuildEmptyAlphabet : ∀ x, countOf (loaded 64#32 []).freq x = 0#32 := countOf_emptyTable
/-- BuildMakesFullTree, CodesArePrefixFree and CodeLengthsBounded: one symbol, and two. -/
theorem witness_present : (present freqFive ≠ [] ∧ (present freqFive).length = 1) ∧
    present freqAaab ≠ [] ∧ 2 ≤ (present freqAaab).length := by
  rw [present_freqFive, present_freqAaab]; decide
theorem witness_BuildMergesTwoLeast : (build freqAaab).nodes[2]? = some (Node.internal 4#40 1#9 0#9) := by
  rw [test_build]; rfl
theorem witness_BuildSingleLeaf : countOf freqFive 0x41#8 ≠ 0#32 ∧ ∀ y, y ≠ 0x41#8 → countOf freqFive y = 0#32 :=
  ⟨(mem_present ..).1 (by rw [present_freqFive]; decide), fun y hy => by simp [countOf_freqFive, hy]⟩
theorem witness_DeriveRecordsPaths :
    (withTables 64#32 [] 0#64).tree = some (build freqAaab) ∧ 2 ≤ (present freqAaab).length ∧
    (build freqAaab).follow (build freqAaab).root [true] = some (.leaf 0x61#8 3#40) := by
  rw [test_build, present_freqAaab]; decide +kernel
theorem witness_DeriveSingleLeaf : (build freqFive).nodes[(build freqFive).root.toNat]? = some (.leaf 0x41#8 5#40) := by
  rw [test_build_single]; rfl

/-- Nine 'a', nine payload bits. -/
def nineA (outCap : Word) : State := withTables outCap (List.replicate 9 0x61) 0#64
/-- PackWritesPayload (L2.4, vector 5): nine bits in an OUT of two bytes, and of one. -/
theorem witness_PackWritesPayload :
    (nineA 2#32).code = some codeAaab ∧ (nineA 2#32).inLen.toNat ≤ (nineA 2#32).inCap.toNat ∧
    (nineA 2#32).input.all (fun x => codeOf codeAaab x ≠ []) = true ∧
    ceil8 (payloadOf codeAaab (nineA 2#32).input).length = (nineA 2#32).outCap.toNat ∧
    (nineA 1#32).code = some codeAaab ∧ (nineA 1#32).outCap.toNat < ceil8 (payloadOf codeAaab (nineA 1#32).input).length :=
  ⟨rfl, by decide +kernel, by decide +kernel, by decide +kernel, rfl, by decide +kernel⟩
/-- PackUncodedSymbol (L2.4, vector 6): the whole bytes before it fit, and with eight bits before it and no OUT do not. -/
theorem witness_PackUncodedSymbol :
    (withTables 0#32 [0x61, 0x62, 0x63] 0#64).code = some codeAaab ∧
    (withTables 0#32 [0x61, 0x62, 0x63] 0#64).input = [0x61, 0x62] ++ 0x63 :: [] ∧
    [0x61#8, 0x62].all (fun y => codeOf codeAaab y ≠ []) = true ∧ codeOf codeAaab 0x63 = [] ∧
    (payloadOf codeAaab [0x61, 0x62]).length / 8 ≤ (0#32).toNat ∧
    (withTables 0#32 (List.replicate 8 0x61 ++ [0x63]) 0#64).input = List.replicate 8 0x61 ++ 0x63 :: [] ∧
    (0#32).toNat < (payloadOf codeAaab (List.replicate 8 0x61)).length / 8 :=
  ⟨rfl, by decide +kernel, by decide +kernel, by decide +kernel, by decide +kernel, by decide +kernel, by decide +kernel⟩

/-- UnpackWritesSymbols (L2.5, vectors 1 and 13): the four symbols in an OUT of four bytes; three are too few. -/
theorem witness_UnpackWritesSymbols :
    (withTables 4#32 [0xE0] 4#64).tree = some (build freqAaab) ∧ present freqAaab ≠ [] ∧
    (withTables 4#32 [0xE0] 4#64).inLen.toNat ≤ (withTables 4#32 [0xE0] 4#64).inCap.toNat ∧
    ceil8 (withTables 4#32 [0xE0] 4#64).bitCount.toNat ≤ (withTables 4#32 [0xE0] 4#64).inLen.toNat ∧
    PayloadSpells freqAaab (payloadBits (withTables 4#32 [0xE0] 4#64).inp 0 4) [0x61, 0x61, 0x61, 0x62] ∧
    [0x61#8, 0x61, 0x61, 0x62].length = (withTables 4#32 [0xE0] 4#64).outCap.toNat ∧
    (withTables 3#32 [0xE0] 4#64).outCap.toNat < [0x61#8, 0x61, 0x61, 0x62].length := by
  refine ⟨by rw [test_build]; exact rfl, by rw [present_freqAaab]; decide, by decide +kernel, by decide +kernel,
    ⟨?_, ?_, ?_⟩, by decide +kernel, by decide +kernel⟩
  · rw [present_freqAaab]; decide
  · rw [test_build, test_derive]; decide +kernel
  · rw [totalCount_freqAaab]; rfl
/-- UnpackRejectsTheRest (L2.5, vectors 3 and 6): no bit spells no symbol, not four; nine bits need two bytes. -/
theorem witness_UnpackRejectsTheRest :
    (withTables 0#32 [0xE0] 0#64).tree = some (build freqAaab) ∧
    ceil8 (withTables 0#32 [0xE0] 0#64).bitCount.toNat ≤ (withTables 0#32 [0xE0] 0#64).inLen.toNat ∧
    (withTables 0#32 [0xE0] 0#64).bitCount.toNat ≤ (withTables 0#32 [0xE0] 0#64).outCap.toNat ∧
    (¬ ∃ xs, PayloadSpells freqAaab (payloadBits (withTables 0#32 [0xE0] 0#64).inp 0 0) xs) ∧
    (withTables 0#32 [0xE0] 9#64).inLen.toNat < ceil8 (withTables 0#32 [0xE0] 9#64).bitCount.toNat := by
  refine ⟨by rw [test_build]; exact rfl, by decide +kernel, by decide +kernel, ?_, by decide +kernel⟩
  rintro ⟨xs, hp, hb, hl⟩
  have hc1 : codeOf (derive (build freqAaab)) 0x61#8 = [true] := by rw [test_build]; decide +kernel
  have hc2 : codeOf (derive (build freqAaab)) 0x62#8 = [false] := by rw [test_build]; decide +kernel
  cases xs with
  | nil => rw [totalCount_freqAaab] at hl; cases hl
  | cons x rest =>
    have hx : x ∈ [0x61#8, 0x62#8] := present_freqAaab ▸ hp x (List.mem_cons_self ..)
    simp only [List.mem_cons, List.not_mem_nil, or_false] at hx
    rcases hx with rfl | rfl <;> simp [payloadBits, payloadOf, hc1, hc2] at hb
/-- UnpackRejectsTheRest: three bits 1 1 1 begin with three symbols of four and leave nothing (L2.5, vector 4), in an OUT
of three bytes, and of two. -/
theorem witness_UnpackRejectsTheRest_begins :
    ceil8 (withTables 3#32 [0xE0] 3#64).bitCount.toNat ≤ (withTables 3#32 [0xE0] 3#64).inLen.toNat ∧
    PayloadBegins freqAaab (payloadBits (withTables 3#32 [0xE0] 3#64).inp 0 3) [0x61, 0x61, 0x61] [] ∧
    [0x61#8, 0x61, 0x61].length ≠ totalCount freqAaab ∧
    [0x61#8, 0x61, 0x61].length = (withTables 3#32 [0xE0] 3#64).outCap.toNat ∧
    (withTables 2#32 [0xE0] 3#64).outCap.toNat < [0x61#8, 0x61, 0x61].length := by
  refine ⟨by decide +kernel, ⟨by rw [present_freqAaab]; decide, by rw [test_build, test_derive]; decide +kernel, ?_⟩,
    by rw [totalCount_freqAaab]; decide, by decide +kernel, by decide +kernel⟩
  rw [present_freqAaab, test_build, test_derive]
  decide +kernel
/-- UnpackRejectsTheRest: a Leaf root, the bits 0 1 begin with one symbol and leave a 1 (L2.5, vector 9). -/
theorem witness_UnpackRejectsTheRest_left :
    PayloadBegins freqFive (payloadBits (loaded 8#32 [0x40]).inp 0 2) [0x41] [true] := by
  refine ⟨by rw [present_freqFive]; decide, by rw [test_build_single, test_derive_single]; decide +kernel, ?_⟩
  rw [present_freqFive, test_build_single, test_derive_single]
  decide +kernel
/-- A block whose tree is the Leaf of 0x41, five times. -/
def leafBlock (b : Byte) (n : BitCount) : State :=
  { loaded 5#32 [b] with tree := some ⟨0, [.leaf 0x41#8 5#40]⟩, bitCount := n }
/-- UnpackLeafRoot (L2.5, vectors 8, 9 and 10): five 0 bits; a 1 bit among them; four bits. -/
theorem witness_UnpackLeafRoot :
    (leafBlock 0x00 5#64).inLen.toNat ≤ (leafBlock 0x00 5#64).inCap.toNat ∧
    ceil8 (leafBlock 0x00 5#64).bitCount.toNat ≤ (leafBlock 0x00 5#64).inLen.toNat ∧
    (leafBlock 0x00 5#64).bitCount.toNat ≤ (leafBlock 0x00 5#64).outCap.toNat ∧
    ((leafBlock 0x00 5#64).bitCount.toNat = (5#40).toNat ∧ ∀ i < 5, payloadBit (leafBlock 0x00 5#64).inp 0 i = false) ∧
    ¬ ((leafBlock 0x40 5#64).bitCount.toNat = (5#40).toNat ∧ ∀ i < 5, payloadBit (leafBlock 0x40 5#64).inp 0 i = false) ∧
    ¬ (leafBlock 0x00 4#64).bitCount.toNat = (5#40).toNat := by decide +kernel

/-- EncodeWritesStream and EncodeThenDecodeIsIdentity (L1.1; L2.6, vector 9): the counts, and the stream's 23 bytes in an
OUT of 23 bytes, and of 22. -/
theorem witness_EncodeWritesStream :
    (aaab 23#32).inLen.toNat ≤ (aaab 23#32).inCap.toNat ∧ (aaab 23#32).inLen.toNat ≠ 0 ∧
    (∀ x, (countOf freqAaab x).toNat = (aaab 23#32).input.count x) ∧
    streamOf freqAaab (derive (build freqAaab)) (aaab 23#32).input = streamS ∧
    streamS.length = (aaab 23#32).outCap.toNat ∧ (aaab 22#32).outCap.toNat < streamS.length ∧
    (12 + 5 * (present freqAaab).length + ceil8 (payloadOf (derive (build freqAaab)) (aaab 23#32).input).length
      = (aaab 23#32).outCap.toNat) := by
  rw [streamOf, present_freqAaab, test_build, test_derive]
  refine ⟨by decide +kernel, by decide +kernel, fun x => ?_, by decide +kernel, by decide +kernel, by decide +kernel,
    by decide +kernel⟩
  have hin : (aaab 23#32).input = [0x61, 0x61, 0x61, 0x62] := by decide +kernel
  rw [hin]
  by_cases h1 : x = 0x61#8
  · subst h1; decide +kernel
  by_cases h2 : x = 0x62#8
  · subst h2; decide +kernel
  rw [List.count_eq_zero.2 (by simp [h1, h2])]
  simp [countOf_freqAaab, h1, h2]
/-- EncodeThenDecodeIsIdentity: a second block holds the first one's output (L1.1) and has room for four symbols. -/
theorem witness_EncodeThenDecodeIsIdentity :
    resultOf .encode (aaab 23#32) = some (.none, streamS) ∧ (loaded 4#32 streamS).input = streamS ∧
    (loaded 4#32 streamS).inLen.toNat ≤ (loaded 4#32 streamS).inCap.toNat ∧
    (aaab 23#32).inLen.toNat ≤ (loaded 4#32 streamS).outCap.toNat :=
  ⟨test_encode, by decide +kernel, by decide +kernel, by decide +kernel⟩
/-- EncodeThenDecodeIsIdentity: the empty input too has its counts, and needs twelve bytes. -/
theorem witness_EncodeThenDecodeIsIdentity_empty :
    (∀ x, (countOf emptyTable x).toNat = (loaded 12#32 []).input.count x) ∧
    12 + 5 * (present emptyTable).length + ceil8 (payloadOf (derive (build emptyTable)) (loaded 12#32 []).input).length
      = (loaded 12#32 []).outCap.toNat := by
  rw [present_emptyTable]
  exact ⟨fun x => by rw [countOf_emptyTable]; rfl, rfl⟩
theorem witness_EmptyInputRoundTrip :
    ((loaded 12#32 []).inLen.toNat = 0 ∧ 12 ≤ (loaded 12#32 []).outCap.toNat) ∧
    ((loaded 11#32 []).inLen.toNat = 0 ∧ (loaded 11#32 []).outCap.toNat < 12) ∧
    (loaded 12#32 (List.replicate 12 0#8)).inLen.toNat = 12 ∧
    ∀ a < 12, (loaded 12#32 (List.replicate 12 0#8)).inp.read a = 0#8 := by decide +kernel
/-- CodecIgnoresEarlierTables: two blocks with the same input, one with earlier tables. -/
theorem witness_CodecIgnoresEarlierTables :
    (loaded 64#32 [0x61]).inLen = (withTables 64#32 [0x61] 4#64).inLen ∧
    (loaded 64#32 [0x61]).inCap = (withTables 64#32 [0x61] 4#64).inCap ∧
    (loaded 64#32 [0x61]).outCap = (withTables 64#32 [0x61] 4#64).outCap ∧
    (∀ k < 1, (loaded 64#32 [0x61]).inp.read k = (withTables 64#32 [0x61] 4#64).inp.read k) ∧
    (loaded 64#32 [0x61]).tree = none ∧ (withTables 64#32 [0x61] 4#64).tree = some treeAaab :=
  ⟨rfl, rfl, rfl, fun _ _ => rfl, rfl, rfl⟩

/-- S meets the header conditions of R96. -/
theorem streamS_header : WellFormedHeader (loaded 64#32 streamS).inp (loaded 64#32 streamS).inLen.toNat where
  longEnough := by decide +kernel
  symbolCount := by decide +kernel
  headerFits := by decide +kernel
  noDuplicate := by
    have h : memRead (loaded 64#32 streamS).inp 0 4 = 2 := by decide +kernel
    rw [h]
    intro j k hjk hk
    obtain ⟨rfl, rfl⟩ : j = 0 ∧ k = 1 := by omega
    decide +kernel
  noZeroFreq := by
    have h : memRead (loaded 64#32 streamS).inp 0 4 = 2 := by decide +kernel
    rw [h]
    decide +kernel
  emptyNoBits := by decide +kernel
  exactLength := by decide +kernel

/-- DecodeWritesSymbols (L2.7, vectors 1 and 20): S and its four symbols, in an OUT of four bytes, and of three. -/
theorem witness_DecodeWritesSymbols :
    memRead (loaded 64#32 streamS).inp 0 4 ≠ 0 ∧ IsStreamTable (loaded 64#32 streamS).inp freqAaab ∧
    PayloadSpells freqAaab (payloadBits (loaded 64#32 streamS).inp (12 + 5 * memRead (loaded 64#32 streamS).inp 0 4)
      (memRead (loaded 64#32 streamS).inp (4 + 5 * memRead (loaded 64#32 streamS).inp 0 4) 8)) [0x61, 0x61, 0x61, 0x62] ∧
    (loaded 3#32 streamS).outCap.toNat < [0x61#8, 0x61, 0x61, 0x62].length ∧
    [0x61#8, 0x61, 0x61, 0x62].length = (loaded 4#32 streamS).outCap.toNat := by
  refine ⟨by decide +kernel, ⟨by decide +kernel, fun x hx => ?_⟩, ⟨?_, ?_, ?_⟩, by decide +kernel, by decide +kernel⟩
  · have h0 := hx 0 (by decide +kernel)
    have h1 := hx 1 (by decide +kernel)
    have e0 : (loaded 64#32 streamS).inp.read (4 + 5 * 0) = 0x61#8 := by decide +kernel
    have e1 : (loaded 64#32 streamS).inp.read (4 + 5 * 1) = 0x62#8 := by decide +kernel
    rw [e0] at h0
    rw [e1] at h1
    simp [countOf_freqAaab, h0.symm, h1.symm]
  · rw [present_freqAaab]; decide
  · rw [test_build, test_derive]; decide +kernel
  · rw [totalCount_freqAaab]; rfl
/-- DecodeRejectsBadHeader (L2.7, vectors 5 and 10): S without its last byte, and three bytes. -/
theorem witness_DecodeRejectsBadHeader :
    ¬ WellFormedHeader (loaded 64#32 (streamS.take 22)).inp (loaded 64#32 (streamS.take 22)).inLen.toNat ∧
    ¬ WellFormedHeader (loaded 64#32 [0, 0, 0]).inp (loaded 64#32 [0, 0, 0]).inLen.toNat :=
  ⟨fun h => absurd h.exactLength (by decide +kernel), fun h => absurd h.longEnough (by decide +kernel)⟩

/-- The twelve-byte header of one symbol 0x41, five times, and no bits (as L2.7 vector 17, with bit_count 0). -/
def noBits : List Byte := [0x01, 0, 0, 0, 0x41, 5, 0, 0, 0, 0, 0, 0, 0, 0, 0, 0, 0]

/-- DecodeRejectsBadPayload: a sound header, and no bits for its five symbols. -/
theorem witness_DecodeRejectsBadPayload :
    WellFormedHeader (loaded 0#32 noBits).inp (loaded 0#32 noBits).inLen.toNat ∧
    memRead (loaded 0#32 noBits).inp 0 4 ≠ 0 ∧ IsStreamTable (loaded 0#32 noBits).inp freqFive ∧
    memRead (loaded 0#32 noBits).inp (4 + 5 * memRead (loaded 0#32 noBits).inp 0 4) 8 ≤ (loaded 0#32 noBits).outCap.toNat ∧
    ¬ ∃ xs, PayloadSpells freqFive (payloadBits (loaded 0#32 noBits).inp (12 + 5 * memRead (loaded 0#32 noBits).inp 0 4)
      (memRead (loaded 0#32 noBits).inp (4 + 5 * memRead (loaded 0#32 noBits).inp 0 4) 8)) xs := by
  have hsc : memRead (loaded 0#32 noBits).inp 0 4 = 1 := by decide +kernel
  have hbc : memRead (loaded 0#32 noBits).inp 9 8 = 0 := by decide +kernel
  have hc1 : codeOf (derive (build freqFive)) 0x41#8 = [false] := by rw [test_build_single]; decide +kernel
  refine ⟨⟨by decide +kernel, by decide +kernel, by decide +kernel, ?_, ?_, ?_, by decide +kernel⟩, by rw [hsc]; decide,
    ⟨?_, ?_⟩, by decide +kernel, ?_⟩
  · rw [hsc]; intro j k _ _; omega
  · rw [hsc]; decide +kernel
  · rw [hsc]; intro h; cases h
  · decide +kernel
  · intro x hx
    have h0 := hx 0 (by rw [hsc]; decide)
    have e0 : (loaded 0#32 noBits).inp.read (4 + 5 * 0) = 0x41#8 := by decide +kernel
    rw [e0] at h0
    simp [countOf_freqFive, h0.symm]
  · rintro ⟨xs, hp, hb, hl⟩
    rw [hsc, show 4 + 5 * 1 = 9 from rfl, hbc] at hb
    cases xs with
    | nil => rw [totalCount_freqFive] at hl; cases hl
    | cons x rest =>
      have hx : x ∈ [0x41#8] := present_freqFive ▸ hp x (List.mem_cons_self ..)
      simp only [List.mem_cons, List.not_mem_nil, or_false] at hx
      subst hx
      simp [payloadBits, payloadOf, hc1] at hb

/-- The header of one symbol 0x41, five times, and the two bits 0 0 (as L2.7, vector 17). -/
def twoBits : List Byte := [0x01, 0, 0, 0, 0x41, 5, 0, 0, 0, 2, 0, 0, 0, 0, 0, 0, 0, 0x00]

/-- DecodeRejectsBadPayload: two symbols of five, in an OUT of two bytes, and of one. -/
theorem witness_DecodeRejectsBadPayload_begins :
    WellFormedHeader (loaded 2#32 twoBits).inp (loaded 2#32 twoBits).inLen.toNat ∧
    memRead (loaded 2#32 twoBits).inp 0 4 ≠ 0 ∧ IsStreamTable (loaded 2#32 twoBits).inp freqFive ∧
    PayloadBegins freqFive (payloadBits (loaded 2#32 twoBits).inp (12 + 5 * memRead (loaded 2#32 twoBits).inp 0 4)
      (memRead (loaded 2#32 twoBits).inp (4 + 5 * memRead (loaded 2#32 twoBits).inp 0 4) 8)) [0x41, 0x41] [] ∧
    [0x41#8, 0x41].length ≠ totalCount freqFive ∧ [0x41#8, 0x41].length = (loaded 2#32 twoBits).outCap.toNat ∧
    (loaded 1#32 twoBits).outCap.toNat < [0x41#8, 0x41].length := by
  have hsc : memRead (loaded 2#32 twoBits).inp 0 4 = 1 := by decide +kernel
  refine ⟨⟨by decide +kernel, by decide +kernel, by decide +kernel, ?_, ?_, ?_, by decide +kernel⟩, by rw [hsc]; decide,
    ⟨by decide +kernel, ?_⟩, ⟨by rw [present_freqFive]; decide, ?_, ?_⟩, by rw [totalCount_freqFive]; decide,
    by decide +kernel, by decide +kernel⟩
  · rw [hsc]; intro j k _ _; omega
  · rw [hsc]; decide +kernel
  · rw [hsc]; intro h; cases h
  · intro x hx
    have h0 := hx 0 (by rw [hsc]; decide)
    have e0 : (loaded 2#32 twoBits).inp.read (4 + 5 * 0) = 0x41#8 := by decide +kernel
    rw [e0] at h0
    simp [countOf_freqFive, h0.symm]
  · rw [test_build_single, test_derive_single]; decide +kernel
  · rw [present_freqFive, test_build_single, test_derive_single]; decide +kernel

/-- DecodeAcceptsExactlyWellFormedStreams: OUT has room for a symbol per bit of S; S is well formed. -/
theorem witness_DecodeAcceptsExactlyWellFormedStreams :
    8 * (loaded 184#32 streamS).inLen.toNat ≤ (loaded 184#32 streamS).outCap.toNat ∧
    WellFormedStream (loaded 184#32 streamS).inp (loaded 184#32 streamS).inLen.toNat :=
  ⟨by decide +kernel, streamS_header, fun _ => ⟨freqAaab, [0x61, 0x61, 0x61, 0x62], witness_DecodeWritesSymbols.2.1, witness_DecodeWritesSymbols.2.2.1⟩⟩

/-- BusFormReachesAccess: three spaces side by side, and their last offset and indices. -/
theorem witness_BusFormReachesAccess :
    placed ⟨0x10000, 0x18000, 0x18040⟩ 64 64 = true ∧
    busOpOf ⟨0x10000, 0x18000, 0x18040⟩ (.readReg 32 0x7FFC) = some ⟨.r32, 0x17FFC, 0#32⟩ ∧
    busOpOf ⟨0x10000, 0x18000, 0x18040⟩ (.writeIn 63 0x61#8) = some ⟨.w8, 0x1803F, 0x61#32⟩ ∧
    busOpOf ⟨0x10000, 0x18000, 0x18040⟩ (.readOut 63) = some ⟨.r8, 0x1807F, 0#32⟩ := by decide +kernel
/-- ScriptWaitAndReadOut: a pending command; an idle block with all of OUT to read, and with none. -/
theorem witness_ScriptWaitAndReadOut : busyBlock.seq = .pending 3#32 ∧
    ({ loaded 4#32 [] with outLen := 4#32 }.seq = .idle ∧
      { loaded 4#32 [] with outLen := 4#32 }.outLen.toNat = { loaded 4#32 [] with outLen := 4#32 }.outCap.toNat) ∧
    (loaded 4#32 []).outLen.toNat = 0 := by decide +kernel
theorem witness_LoadInPlacesInput : (loaded 0#32 []).seq = .idle ∧ (List.replicate 64 0x61#8).length ≤ (loaded 0#32 []).inCap.toNat := by
  decide +kernel
/-- StepKeepsInvariant: a block after CLEAR meets the invariant, and steps. -/
theorem witness_StepKeepsInvariant : (loaded 64#32 [0x61]).Inv ∧ (nextOf (step (loaded 64#32 [0x61]))).isSome = true := by
  refine ⟨⟨by decide, by decide, by decide, by decide, by decide, rfl, by decide, nofun, nofun, nofun, nofun, by decide⟩, rfl⟩

end Sys2Proof.Tests
end

section
/-! What no command touches, and what no step changes. -/

namespace Sys2Proof.Machine

/-- What no command touches: IN, IN_LEN, CTRL.IRQ_EN, STATUS.IGNORED, the constants, the host's record and the events to
come (10_state.md R29, R45, 20_memory.md R61). -/
def State.hostPart (s : State) : Memory × Word × Bool × Bool × Word × Word × List Word × List Event :=
  (s.inp, s.inLen, s.irqEn, s.ignored, s.inCap, s.outCap, s.reads, s.agenda)

theorem State.hostPart_eq_iff (s t : State) : t.hostPart = s.hostPart ↔
    t.inp = s.inp ∧ t.inLen = s.inLen ∧ t.irqEn = s.irqEn ∧ t.ignored = s.ignored ∧ t.inCap = s.inCap ∧
    t.outCap = s.outCap ∧ t.reads = s.reads ∧ t.agenda = s.agenda := by
  simp only [State.hostPart, Prod.mk.injEq]

theorem runCollect_hostPart (s : State) : (runCollect s).hostPart = s.hostPart := by
  rcases runCollect_cases s with ⟨-, e⟩ | ⟨-, ⟨r, -, e⟩ | ⟨f, -, e⟩⟩ <;> simp [e, State.hostPart]

theorem runBuild_hostPart (s : State) : (runBuild s).hostPart = s.hostPart := by
  rcases runBuild_cases s with ⟨-, e⟩ | ⟨-, e⟩ <;> simp [e, State.hostPart]

theorem runDerive_hostPart (s : State) : (runDerive s).hostPart = s.hostPart := by
  rcases runDerive_cases s with ⟨-, e⟩ | ⟨t, -, e⟩ <;> simp [e, State.hostPart]

theorem runPack_hostPart (s : State) : (runPack s).hostPart = s.hostPart := by
  rcases runPack_cases s with ⟨-, e⟩ | ⟨c, -, ⟨-, e⟩ | ⟨-, ⟨r, -, e⟩ | ⟨k, n, -, e⟩⟩⟩ <;>
    simp [e, State.hostPart]

theorem runUnpack_hostPart (s : State) : (runUnpack s).hostPart = s.hostPart := by
  rcases runUnpack_cases s with ⟨-, e⟩ | ⟨t, -, ⟨-, e⟩ | ⟨-, ⟨-, e⟩ | ⟨-, ⟨r, -, e⟩ | ⟨k, -, e⟩⟩⟩⟩ <;>
    simp [e, State.hostPart]

theorem runEncode_hostPart (s : State) : (runEncode s).hostPart = s.hostPart := by
  rcases runEncode_cases s with ⟨-, e⟩ | ⟨-, ⟨r, -, e⟩ | ⟨f, -, ⟨-, ⟨r, -, e⟩ | ⟨k, -, e⟩⟩ |
    ⟨-, ⟨r, -, e⟩ | ⟨k, -, e⟩⟩⟩⟩ <;> simp [e, State.hostPart, encodeStage3, encodeStage1]

theorem runDecode_hostPart (s : State) : (runDecode s).hostPart = s.hostPart := by
  rcases runDecode_cases s with ⟨-, e⟩ | ⟨-, ⟨r, -, e⟩ | ⟨hd, -, ⟨-, e⟩ | ⟨-, ⟨r, -, e⟩ | ⟨k, -, e⟩⟩⟩⟩ <;>
    simp [e, State.hostPart, decodeStage2, decodeStage1]

theorem exec_hostPart {i : Instr} {s t : State} (h : exec i s = .next t) : t.hostPart = s.hostPart := by
  cases i <;> cases h
  case collect => exact runCollect_hostPart s
  case build => exact runBuild_hostPart s
  case derive => exact runDerive_hostPart s
  case pack => exact runPack_hostPart s
  case unpack => exact runUnpack_hostPart s
  case encode => exact runEncode_hostPart s
  case decode => exact runDecode_hostPart s
  case clear => rfl

/-- No step changes the constants (10_state.md R27). -/
theorem step_keeps_capacities {s t : State} (h : step s = .next t) : t.inCap = s.inCap ∧ t.outCap = s.outCap := by
  rcases step_cases h with ⟨a, rest, -, rfl⟩ | ⟨rest, -, rfl⟩ |
    ⟨rest, -, ⟨-, rfl⟩ | ⟨w, i, -, -, he⟩ | ⟨w, e, -, -, rfl⟩⟩
  · obtain ⟨hin, hout, -⟩ := hostAccess_keeps { s with agenda := rest } a
    exact ⟨hin, hout⟩
  · exact ⟨rfl, rfl⟩
  · exact ⟨rfl, rfl⟩
  · obtain ⟨-, -, -, -, hin, hout, -⟩ := (State.hostPart_eq_iff _ _).1 (exec_hostPart he)
    exact ⟨hin, hout⟩
  · exact ⟨rfl, rfl⟩

end Sys2Proof.Machine
end

section
/-! The register map, and what an access to one register does (10_state.md R23, 20_memory.md R64). -/

namespace Sys2Proof.Machine

theorem offsetOf_fixedReg : ∀ k < 14, offsetOf (fixedReg k) = some (4 * k) := by decide

/-- A register's offset is aligned, inside REG, and maps back to the register (10_state.md R23). -/
theorem regAt_offsetOf {r : Reg} {o : Nat} (h : offsetOf r = some o) : o % 4 = 0 ∧ o < 0x8000 ∧ regAt o = r := by
  cases r <;> cases h
  case freq x =>
    have hx := x.isLt
    refine ⟨by omega, by omega, ?_⟩
    rw [regAt_freq (by omega) (by omega), show (0x0400 + 4 * x.toNat - 0x0400) / 4 = x.toNat by omega,
      BitVec.ofNat_toNat, BitVec.setWidth_eq]
  case node i k =>
    have hi := i.isLt
    have hk := k.isLt
    refine ⟨by omega, by omega, ?_⟩
    rw [regAt_node (by omega) (by omega), show (0x1000 + 16 * i.toNat + 4 * k.toNat - 0x1000) / 16 = i.toNat by omega,
      show (0x1000 + 16 * i.toNat + 4 * k.toNat) / 4 % 4 = k.toNat by omega]
    simp only [BitVec.ofNat_toNat, BitVec.setWidth_eq]
  case code x k =>
    have hx := x.isLt
    have hk := k.isLt
    refine ⟨by omega, by omega, ?_⟩
    rw [regAt_code (by omega) (by omega), show (0x4000 + 64 * x.toNat + 4 * k.toNat - 0x4000) / 64 = x.toNat by omega,
      show (0x4000 + 64 * x.toNat + 4 * k.toNat) / 4 % 16 = k.toNat by omega]
    simp only [BitVec.ofNat_toNat, BitVec.setWidth_eq]
  all_goals exact ⟨rfl, by decide, rfl⟩

/-- An aligned offset inside REG that is not reserved is the offset of its register (10_state.md R23). -/
theorem offsetOf_regAt {o : Nat} (h : o % 4 = 0) (h' : o < 0x8000) (hr : regAt o ≠ .reserved) :
    offsetOf (regAt o) = some o := by
  have hout := mt regAt_reserved hr
  have hwin : o < 0x38 ∨ (0x400 ≤ o ∧ o < 0x800) ∨ (0x1000 ≤ o ∧ o < 0x3000) ∨ 0x4000 ≤ o := by omega
  rcases hwin with hlt | ⟨hge, hlt⟩ | ⟨hge, hlt⟩ | hge
  · rw [regAt_fixed (by omega), offsetOf_fixedReg (o / 4) (by omega)]
    exact congrArg some (by omega)
  · rw [regAt_freq hge hlt, offsetOf, BitVec.toNat_ofNat]
    exact congrArg some (by omega)
  · rw [regAt_node hge hlt, offsetOf, BitVec.toNat_ofNat, BitVec.toNat_ofNat]
    exact congrArg some (by omega)
  · rw [regAt_code hge h', offsetOf, BitVec.toNat_ofNat, BitVec.toNat_ofNat]
    exact congrArg some (by omega)

/-- A read at a register's offset returns its value, while idle or when the register is none of those drawn while BUSY
(20_memory.md R64, 70_reset_and_hazards.md R236). -/
theorem hostAccess_readReg_at {s : State} {r : Reg} {o : Nat} (h : offsetOf r = some o)
    (hd : s.seq = .idle ∨ drawnWhileBusy r = false) :
    hostAccess s (.readReg 32 o) = { s with reads := s.regValue r :: s.reads } := by
  obtain ⟨ha, hlt, rfl⟩ := regAt_offsetOf h
  exact hostAccess_readReg ha hlt (hd.imp_left s.busy_eq_false_iff.2)

theorem hostAccess_writeReg {s : State} {o : Nat} (h : o % 4 = 0) (h' : o < 0x8000) (v : Word) :
    hostAccess s (.writeReg 32 o v) = writeRegister s (regAt o) v := by
  simp only [hostAccess, hostWriteReg, badRegAccess_eq_false h h', Bool.false_eq_true, if_false]

/-- A write at a register's offset writes that register (20_memory.md R64). -/
theorem hostAccess_writeReg_at {s : State} {r : Reg} {o : Nat} (h : offsetOf r = some o) (v : Word) :
    hostAccess s (.writeReg 32 o v) = writeRegister s r v := by
  obtain ⟨ha, hlt, rfl⟩ := regAt_offsetOf h
  exact hostAccess_writeReg ha hlt v

theorem State.ifIdle_of_idle {s : State} (h : s.seq = .idle) (t : State) : s.ifIdle t = t := by
  simp [State.ifIdle, s.busy_eq_false_iff.2 h]

theorem badRegAccess_eq_true {width o : Nat} (h : width ≠ 32 ∨ o % 4 ≠ 0) : badRegAccess width o = true := by
  rcases h with h | h <;> simp [badRegAccess, h]

/-- STATUS bit by bit: the flags in bits 0 to 5, the rest 0 (10_state.md R26). -/
theorem State.statusWord_getLsbD (s : State) (k : Nat) :
    s.statusWord.getLsbD k = [s.busy, s.done, s.err, s.treeValid, s.codeValid, s.ignored].getD k false := by
  unfold State.statusWord
  iterate 6 rw [BitVec.getLsbD_append]
  rcases k with _ | _ | _ | _ | _ | _ | k <;> simp

theorem State.busy_eq_decide (s : State) : s.busy = decide (s.seq ≠ .idle) := by
  rw [Bool.eq_iff_iff, s.busy_eq_true_iff, decide_eq_true_iff]

/-- A 64-bit number is its two halves (10_state.md R31). -/
theorem toNat_append_words (hi lo : Word) : (hi ++ lo : BitVec 64).toNat = lo.toNat + 2 ^ 32 * hi.toNat := by
  rw [BitVec.toNat_append, ← Nat.shiftLeft_add_eq_or_of_lt lo.isLt, Nat.shiftLeft_eq]
  ring

theorem toNat_lowWord (n : BitCount) : (n.extractLsb' 0 32).toNat = n.toNat % 2 ^ 32 := by
  rw [BitVec.extractLsb'_toNat, Nat.shiftRight_zero]

theorem toNat_highWord (n : BitCount) : (n.extractLsb' 32 32).toNat = n.toNat / 2 ^ 32 := by
  rw [BitVec.extractLsb'_toNat, Nat.shiftRight_eq_div_pow, Nat.mod_eq_of_lt]
  have := n.isLt
  omega

theorem present_length (f : FreqTable) :
    (present f).length = ((List.range 256).filter fun x => countOf f (BitVec.ofNat 8 x) ≠ 0#32).length := by
  rw [present, symbols, List.filter_map, List.length_map]
  congr 2
  funext x
  by_cases h : countOf f (BitVec.ofNat 8 x) = 0#32 <;> simp [h]

end Sys2Proof.Machine
end

section
/-! The words of the NODE and CODE windows (10_state.md R36 to R39). -/

namespace Sys2Proof.Machine

/-! ## The NODE window -/

/-- NODE_INFO bit by bit: SYM 7:0, LEFT 16:8, RIGHT 25:17, LEAF 31, the rest 0 (10_state.md R37). -/
theorem nodeInfo_getLsbD (n : Node) (k : Nat) : (nodeInfo n).getLsbD k =
    if k < 8 then n.sym.getLsbD k
    else if k < 17 then n.left.getLsbD (k - 8)
    else if k < 26 then n.right.getLsbD (k - 17)
    else decide (k = 31) && n.isLeaf := by
  unfold nodeInfo
  iterate 4 rw [BitVec.getLsbD_append]
  by_cases h8 : k < 8
  · simp only [h8, if_true]
  by_cases h17 : k < 17
  · simp only [h8, h17, show k - 8 < 9 by omega, if_true, if_false]
  by_cases h26 : k < 26
  · simp only [h8, h17, h26, show ¬ k - 8 < 9 by omega, show k - 8 - 9 < 9 by omega, if_true, if_false]
    rw [show k - 8 - 9 = k - 17 by omega]
  simp only [h8, h17, h26, show ¬ k - 8 < 9 by omega, show ¬ k - 8 - 9 < 9 by omega, if_false, BitVec.getLsbD_zero]
  by_cases h31 : k = 31
  · subst h31
    simp
  · simp only [h31, decide_false, Bool.false_and, ite_eq_left_iff]
    intro hk
    exact BitVec.getLsbD_of_ge _ _ (by omega)

theorem extractLsb'_eq_of_getLsbD {v : Word} {start w : Nat} {x : BitVec w}
    (h : ∀ k < w, v.getLsbD (start + k) = x.getLsbD k) : v.extractLsb' start w = x := by
  apply BitVec.eq_of_getLsbD_eq
  intro k hk
  rw [BitVec.getLsbD_extractLsb', h k hk, decide_eq_true hk, Bool.true_and]

theorem nodeInfo_sym (n : Node) : (nodeInfo n).extractLsb' 0 8 = n.sym :=
  extractLsb'_eq_of_getLsbD fun k hk => by
    rw [Nat.zero_add, nodeInfo_getLsbD, if_pos hk]

theorem nodeInfo_left (n : Node) : (nodeInfo n).extractLsb' 8 9 = n.left :=
  extractLsb'_eq_of_getLsbD fun k hk => by
    rw [nodeInfo_getLsbD, if_neg (by omega), if_pos (by omega), Nat.add_sub_cancel_left]

theorem nodeInfo_right (n : Node) : (nodeInfo n).extractLsb' 17 9 = n.right :=
  extractLsb'_eq_of_getLsbD fun k hk => by
    rw [nodeInfo_getLsbD, if_neg (by omega), if_neg (by omega), if_pos (by omega), Nat.add_sub_cancel_left]

theorem nodeInfo_reserved (n : Node) : (nodeInfo n).extractLsb' 26 5 = 0#5 :=
  extractLsb'_eq_of_getLsbD fun k hk => by
    rw [nodeInfo_getLsbD, if_neg (by omega), if_neg (by omega), if_neg (by omega)]
    simp [show 26 + k ≠ 31 by omega]

theorem nodeInfo_leaf (n : Node) : (nodeInfo n).getLsbD 31 = n.isLeaf := by
  rw [nodeInfo_getLsbD]
  rfl

/-- A 40-bit frequency is its words 1 and 2 (10_state.md R37). -/
theorem freq_eq_words (f : NodeFreq) : f.toNat = (wordOf f.toNat 0).toNat + 2 ^ 32 * (wordOf f.toNat 1).toNat := by
  have hf := f.isLt
  simp only [wordOf, BitVec.toNat_ofNat, Nat.mul_zero, Nat.mul_one, pow_zero, Nat.div_one]
  rw [Nat.mod_eq_of_lt (show f.toNat / 2 ^ 32 < 2 ^ 32 by omega)]
  exact (Nat.mod_add_div _ _).symm

theorem State.nodeWindow_of_node? {s : State} {t : Tree} {i : NodeIndex} {n : Node} (ht : s.tree = some t)
    (hn : t.node? i = some n) (k : BitVec 2) : s.nodeWindow i k = nodeWord n k := by
  simp only [State.nodeWindow, ht, hn]

theorem State.nodeWindow_past_count {s : State} {t : Tree} {i : NodeIndex} (ht : s.tree = some t)
    (hi : t.count ≤ i.toNat) (k : BitVec 2) : s.nodeWindow i k = 0#32 := by
  have hnone : t.node? i = none := List.getElem?_eq_none hi
  simp only [State.nodeWindow, ht, hnone]

theorem State.nodeWindow_no_tree {s : State} (ht : s.tree = none) (i : NodeIndex) (k : BitVec 2) :
    s.nodeWindow i k = 0#32 := by
  simp only [State.nodeWindow, ht]

/-- Word 3 of a slot is reserved (10_state.md R37). -/
theorem State.nodeWindow_reserved (s : State) (i : NodeIndex) : s.nodeWindow i 3#2 = 0#32 := by
  unfold State.nodeWindow
  split
  · rfl
  · split <;> rfl

theorem State.rootWord_toNat {s : State} {t : Tree} (ht : s.tree = some t) : s.rootWord.toNat = t.root.toNat := by
  simp only [State.rootWord, ht]
  exact BitVec.toNat_setWidth_of_le (by decide)

theorem State.nodeCountWord_toNat {s : State} {t : Tree} (ht : s.tree = some t) (hc : t.count ≤ 511) :
    s.nodeCountWord.toNat = t.count := by
  simp only [State.nodeCountWord, ht, BitVec.toNat_ofNat]
  omega

/-! ## The CODE window -/

theorem codeValue_append (c : List Bool) (b : Bool) : codeValue (c ++ [b]) = 2 * codeValue c + b.toNat := by
  simp only [codeValue, List.foldl_append, List.foldl_cons, List.foldl_nil]

/-- V's bit `j` is the code's element `j` from its end (10_state.md R39). -/
theorem codeValue_testBit (c : List Bool) (j : Nat) :
    (codeValue c).testBit j = (decide (j < c.length) && c.getD (c.length - 1 - j) false) := by
  induction c using List.reverseRecOn generalizing j with
  | nil => simp [codeValue]
  | append_singleton c b ih =>
    rw [codeValue_append, ← Nat.bit_val]
    cases j with
    | zero => simp
    | succ j =>
      rw [Nat.testBit_bit_succ, ih, List.length_append, List.length_singleton,
        show c.length + 1 - 1 - (j + 1) = c.length - 1 - j by omega]
      by_cases h : j < c.length
      · rw [List.getD_append _ _ _ _ (by omega)]
        simp [h]
      · simp [h]

theorem wordOf_getLsbD (v k j : Nat) (hj : j < 32) : (wordOf v k).getLsbD j = v.testBit (32 * k + j) := by
  rw [wordOf, BitVec.getLsbD_ofNat, Nat.testBit_div_two_pow, Nat.add_comm j]
  simp [hj]

theorem codeWord_length {c : List Bool} (h : c.length ≤ 255) : (codeWord c 0#4).toNat = c.length := by
  rw [codeWord, if_pos (show (0#4).toNat = 0 from rfl), BitVec.toNat_ofNat]
  omega

theorem codeWord_bits (c : List Bool) {k : BitVec 4} (h1 : 1 ≤ k.toNat) (h8 : k.toNat ≤ 8) {j : Nat} (hj : j < 32) :
    (codeWord c k).getLsbD j = (decide (32 * (k.toNat - 1) + j < c.length) &&
      c.getD (c.length - 1 - (32 * (k.toNat - 1) + j)) false) := by
  rw [codeWord, if_neg (by omega), if_pos h8, wordOf_getLsbD _ _ _ hj, codeValue_testBit]

theorem codeWord_high (c : List Bool) {k : BitVec 4} (h9 : 9 ≤ k.toNat) : codeWord c k = 0#32 := by
  rw [codeWord, if_neg (by omega), if_neg (by omega)]

end Sys2Proof.Machine
end

section
/-! The invariant of a run: one rule per update of State, then one per command and host access. -/

namespace Sys2Proof.Machine

/-! ## Updates that keep the invariant -/

theorem State.Inv.setAgenda {s : State} (h : s.Inv) (rest : List Event) : State.Inv { s with agenda := rest } :=
  { h with }

theorem State.Inv.setBitCount {s : State} (h : s.Inv) (n : BitCount) : State.Inv { s with bitCount := n } := { h with }

theorem State.Inv.setInLen {s : State} (h : s.Inv) (n : Word) : State.Inv { s with inLen := n } := { h with }

theorem State.Inv.ignore {s : State} (h : s.Inv) : s.ignore.Inv := { h with }

theorem State.Inv.deliver {s : State} (h : s.Inv) (v : Word) : (s.deliver v).Inv := { h with }

theorem State.Inv.drawn {s : State} (h : s.Inv) : s.drawn.Inv :=
  { h with
    drawsFresh := by
      obtain ⟨hin, hout, hne⟩ := h.drawsFresh
      exact ⟨Nat.lt_succ_of_lt hin, Nat.lt_succ_of_lt hout, hne⟩ }

theorem State.Inv.writeCtrl {s : State} (h : s.Inv) (v : Word) : (s.writeCtrl v).Inv := { h with irqLevel := rfl }

/-- Clearing flags keeps what BUSY and ERR promise (20_memory.md R64). -/
theorem State.Inv.writeStatus {s : State} (h : s.Inv) (v : Word) : (s.writeStatus v).Inv :=
  { h with
    irqLevel := rfl
    busyClean := fun hb => by
      obtain ⟨hdone, herr, hcode, hlen⟩ := h.busyClean hb
      exact ⟨by simp [hdone], by simp [herr], hcode, hlen⟩
    errReported := fun he => h.errReported (Bool.and_elim_left he) }

theorem State.Inv.accept {s : State} (h : s.Inv) (w : Word) : (s.accept w).Inv :=
  { h with
    irqLevel := rfl
    outLenBound := Nat.zero_le _
    busyClean := fun _ => ⟨rfl, rfl, rfl, rfl⟩
    errReported := nofun }

theorem State.Inv.succeed {s : State} (h : s.Inv) {n : Word} (hn : n.toNat ≤ s.outCap.toNat) : (s.succeed n).Inv :=
  { h with irqLevel := rfl, outLenBound := hn, busyClean := nofun, errReported := nofun }

theorem State.Inv.fail {s : State} (h : s.Inv) (e : Raise) : (s.fail e).Inv :=
  { h with
    irqLevel := rfl
    outLenBound := Nat.zero_le _
    busyClean := nofun
    errReported := fun _ => e.errorCode_ne_none }

theorem State.Inv.clearTables {s : State} (h : s.Inv) : s.clearTables.Inv :=
  { h with treeCurrent := nofun, codeCurrent := nofun }

/-- FREQ may change when no tree was built from it: then no code was derived either (10_state.md R40). -/
theorem State.Inv.setFreq {s : State} (h : s.Inv) (ht : s.tree = none) (f : FreqTable) :
    State.Inv { s with freq := f } :=
  { h with treeCurrent := fun _ e => nomatch ht.symm.trans e }

theorem State.Inv.clearWorking {s : State} (h : s.Inv) : s.clearWorking.Inv :=
  (h.clearTables.setFreq rfl emptyTable).setBitCount 0#64

/-- A tree built from FREQ as it stands, its codes not derived yet (41_tree_builder.md R124). -/
theorem State.Inv.setTree {s : State} (h : s.Inv) (hne : present s.freq ≠ []) :
    State.Inv { s with tree := some (build s.freq), code := none } :=
  { h with treeCurrent := fun _ e => ⟨hne, (Option.some.inj e).symm⟩, codeCurrent := nofun }

/-- A code table derived from TREE as it stands (42_code_table.md R142). -/
theorem State.Inv.setCode {s : State} (h : s.Inv) {t : Tree} (ht : s.tree = some t) :
    State.Inv { s with code := some (derive t) } :=
  { h with codeCurrent := fun _ e => ⟨t, ht, (Option.some.inj e).symm⟩ }

theorem State.Inv.redrawOut {s : State} (h : s.Inv) : s.redrawOut.Inv :=
  { h with
    outWf := Memory.wf_redraw _
    outWithin := Memory.within_redraw _ _
    drawsFresh := by
      obtain ⟨hin, -, -⟩ := h.drawsFresh
      exact ⟨Nat.lt_succ_of_lt hin, Nat.lt_succ_self _, Nat.ne_of_lt hin⟩ }

theorem State.Inv.writeIn {s : State} (h : s.Inv) {a : Nat} (ha : a < s.inCap.toNat) (b : Byte) :
    State.Inv { s with inp := s.inp.write a b } :=
  { h with
    inWf := Memory.wf_write _ _ _ h.inWf
    inWithin := Memory.within_write _ _ _ _ h.inWithin ha }

/-- What the output cursor wrote keeps OUT in form and in bounds (20_memory.md R68). -/
theorem State.Inv.setOut {s : State} (h : s.Inv) {k : Sink} (hk : Sink.Reaches s.outCap.toNat ⟨s.out, 0⟩ k) :
    State.Inv { s with out := k.mem } :=
  { h with
    outWf := hk.wf h.outWf
    outWithin := hk.within h.outWithin
    drawsFresh := by
      have hseed : k.mem.seed = s.out.seed := hk.seed
      simpa only [hseed] using h.drawsFresh }

/-- The number of bytes a command emitted is at most OUT_CAP (10_state.md R30). -/
theorem Sink.Reaches.length_le {cap : Nat} {m : Memory} {k : Sink} (hk : Sink.Reaches cap ⟨m, 0⟩ k) :
    (BitVec.ofNat 32 k.j).toNat ≤ cap := by
  have hfits : k.j ≤ cap ∨ k.j = 0 := hk.fits
  calc (BitVec.ofNat 32 k.j).toNat ≤ k.j := by rw [BitVec.toNat_ofNat]; exact Nat.mod_le _ _
    _ ≤ cap := by omega

/-- A command that emitted bytes from index 0 on and succeeded with their number keeps the invariant. -/
theorem State.Inv.succeedOut {s : State} (h : s.Inv) {k : Sink} (hk : Sink.Reaches s.outCap.toNat ⟨s.out, 0⟩ k) :
    (State.succeed { s with out := k.mem } (BitVec.ofNat 32 k.j)).Inv :=
  (h.setOut hk).succeed hk.length_le

/-! ## Commands -/

theorem emitEmptyHeader_reaches {cap : Nat} {k k' : Sink} (h : emitEmptyHeader cap k = .ok k') :
    Sink.Reaches cap k k' := by
  rw [emitEmptyHeader_eq] at h
  exact emitBytes_reaches _ h

theorem runCollect_inv {s : State} (h : s.Inv) : (runCollect s).Inv := by
  rcases runCollect_cases s with ⟨-, e⟩ | ⟨-, ⟨r, -, e⟩ | ⟨f, -, e⟩⟩ <;> rw [e]
  · exact h.fail _
  · exact (h.clearTables.setFreq rfl emptyTable).fail r
  · exact (h.clearTables.setFreq rfl f).succeed (Nat.zero_le _)

theorem runBuild_inv {s : State} (h : s.Inv) : (runBuild s).Inv := by
  rcases runBuild_cases s with ⟨-, e⟩ | ⟨hne, e⟩ <;> rw [e]
  · exact h.clearTables.fail _
  · exact (h.setTree hne).succeed (Nat.zero_le _)

theorem runDerive_inv {s : State} (h : s.Inv) : (runDerive s).Inv := by
  rcases runDerive_cases s with ⟨-, e⟩ | ⟨t, ht, e⟩ <;> rw [e]
  · exact h.fail _
  · exact (h.setCode ht).succeed (Nat.zero_le _)

theorem runPack_inv {s : State} (h : s.Inv) : (runPack s).Inv := by
  rcases runPack_cases s with ⟨-, e⟩ | ⟨c, -, ⟨-, e⟩ | ⟨-, ⟨r, -, e⟩ | ⟨k, n, hk, e⟩⟩⟩ <;> rw [e]
  · exact h.fail _
  · exact h.fail _
  · exact (h.redrawOut.setBitCount 0).fail r
  · exact (h.setBitCount n).succeedOut (packInto_reaches hk)

theorem runUnpack_inv {s : State} (h : s.Inv) : (runUnpack s).Inv := by
  rcases runUnpack_cases s with ⟨-, e⟩ | ⟨t, -, ⟨-, e⟩ | ⟨-, ⟨-, e⟩ | ⟨-, ⟨r, -, e⟩ | ⟨k, hk, e⟩⟩⟩⟩ <;> rw [e]
  · exact h.fail _
  · exact h.fail _
  · exact h.fail _
  · exact h.redrawOut.fail r
  · exact h.succeedOut (walkDecode_reaches hk)

theorem encodeStage1_inv {s : State} (h : s.Inv) (f : FreqTable) : (encodeStage1 s f).Inv :=
  h.clearWorking.setFreq rfl f

theorem encodeStage3_inv {s : State} (h : s.Inv) {f : FreqTable} (hne : present f ≠ []) : (encodeStage3 s f).Inv :=
  ((encodeStage1_inv h f).setTree hne).setCode rfl

theorem runEncode_inv {s : State} (h : s.Inv) : (runEncode s).Inv := by
  rcases runEncode_cases s with ⟨-, e⟩ | ⟨-, ⟨r, -, e⟩ | ⟨f, -, ⟨-, ⟨r, -, e⟩ | ⟨k, hk, e⟩⟩ |
    ⟨hne, ⟨r, -, e⟩ | ⟨k, hk, e⟩⟩⟩⟩ <;> rw [e]
  · exact h.fail _
  · exact h.clearWorking.fail r
  · exact (encodeStage1_inv h f).redrawOut.fail r
  · exact (encodeStage1_inv h f).succeedOut (emitEmptyHeader_reaches hk)
  · exact (encodeStage3_inv h hne).redrawOut.fail r
  · have hstaged := (encodeStage3_inv h hne).setBitCount (BitVec.ofNat 64 (headerBitCount f (derive (build f))))
    exact hstaged.succeedOut (emitStream_reaches hk)

theorem decodeStage1_inv {s : State} (h : s.Inv) (hd : Header) : (decodeStage1 s hd).Inv :=
  (h.clearWorking.setFreq rfl hd.freq).setBitCount _

theorem decodeStage2_inv {s : State} (h : s.Inv) {hd : Header} (hne : present hd.freq ≠ []) : (decodeStage2 s hd).Inv :=
  (decodeStage1_inv h hd).setTree hne

theorem runDecode_inv {s : State} (h : s.Inv) : (runDecode s).Inv := by
  rcases runDecode_cases s with ⟨-, e⟩ | ⟨-, ⟨r, -, e⟩ | ⟨hd, -, ⟨-, e⟩ | ⟨hne, ⟨r, -, e⟩ | ⟨k, hk, e⟩⟩⟩⟩ <;> rw [e]
  · exact h.fail _
  · exact h.clearWorking.fail r
  · exact (decodeStage1_inv h hd).succeed (Nat.zero_le _)
  · exact (decodeStage2_inv h hne).redrawOut.fail r
  · exact (decodeStage2_inv h hne).succeedOut (walkDecode_reaches hk)

theorem runClear_inv {s : State} (h : s.Inv) : (runClear s).Inv := h.clearWorking.succeed (Nat.zero_le _)

/-- Every command's engine step keeps the invariant (60_exceptions.md R221). -/
theorem exec_inv {i : Instr} {s t : State} (h : s.Inv) (ht : exec i s = .next t) : t.Inv := by
  cases i <;> cases ht
  case collect => exact runCollect_inv h
  case build => exact runBuild_inv h
  case derive => exact runDerive_inv h
  case pack => exact runPack_inv h
  case unpack => exact runUnpack_inv h
  case encode => exact runEncode_inv h
  case decode => exact runDecode_inv h
  case clear => exact runClear_inv h

/-! ## Host accesses -/

theorem State.Inv.ifIdle {s t : State} (h : s.Inv) (ht : t.Inv) : (s.ifIdle t).Inv := by
  unfold State.ifIdle
  split
  · exact h.ignore
  · exact ht

theorem readRegister_inv {s : State} (h : s.Inv) (r : Reg) : (readRegister s r).Inv := by
  unfold readRegister
  split
  · exact h.drawn.deliver _
  · exact h.deliver _

theorem writeRegister_inv {s : State} (h : s.Inv) (r : Reg) (v : Word) : (writeRegister s r v).Inv := by
  cases r with
  | ctrl => exact h.writeCtrl v
  | cmd => exact h.ifIdle (h.accept v)
  | status => exact h.writeStatus v
  | inLen => exact h.ifIdle (h.setInLen v)
  | bitCountLo | bitCountHi => exact h.ifIdle (h.setBitCount _)
  | freq x => exact h.ifIdle (h.clearTables.setFreq rfl _)
  | reserved => exact h
  | id | errCode | outLen | inCap | outCap | root | nodeCount | symCount | node _ _ | code _ _ => exact h.ignore

theorem hostReadOut_inv {s : State} (h : s.Inv) (a : Nat) : (hostReadOut s a).Inv := by
  unfold hostReadOut
  split
  · split
    · exact h.drawn.deliver _
    · exact h.deliver _
  · exact h.ignore.deliver _

/-- Every host access keeps the invariant (20_memory.md R63 to R66). -/
theorem hostAccess_inv {s : State} (h : s.Inv) (a : Access) : (hostAccess s a).Inv := by
  cases a <;> simp only [hostAccess]
  case readReg w o =>
    unfold hostReadReg
    split
    · exact h.ignore.deliver _
    · exact readRegister_inv h _
  case writeReg w o v =>
    unfold hostWriteReg
    split
    · exact h.ignore
    · exact writeRegister_inv h _ v
  case readIn a =>
    unfold hostReadIn
    split
    · exact h.deliver _
    · exact h.ignore.deliver _
  case writeIn a b =>
    unfold hostWriteIn
    split
    · exact h.ifIdle (h.writeIn ‹_› b)
    · exact h.ignore
  case readOut a => exact hostReadOut_inv h a
  case writeOut a b => exact h.ignore

/-! ## Reset -/

/-- Reset values meet the invariant when IN_CAP is legal and the two draws are fresh (10_state.md R44; log 5). -/
theorem State.resetWith_inv {inCap outCap : Word} {inSeed outSeed draws : Nat} (hcap : 1 ≤ inCap.toNat)
    (hin : inSeed < draws) (hout : outSeed < draws) (hne : inSeed ≠ outSeed) :
    (State.resetWith inCap outCap inSeed outSeed draws).Inv where
  inCapPositive := hcap
  inWf := Memory.wf_redraw _
  outWf := Memory.wf_redraw _
  inWithin := Memory.within_redraw _ _
  outWithin := Memory.within_redraw _ _
  irqLevel := rfl
  outLenBound := Nat.zero_le _
  busyClean := nofun
  errReported := nofun
  treeCurrent := nofun
  codeCurrent := nofun
  drawsFresh := ⟨hin, hout, hne⟩

theorem State.Inv.externalReset {s : State} (h : s.Inv) : s.externalReset.Inv :=
  { State.resetWith_inv (outCap := s.outCap) h.inCapPositive (show s.draws < s.draws + 2 by omega)
      (show s.draws + 1 < s.draws + 2 by omega) (by omega) with }

/-- IN_CAP is at least 1 (00_scope.md R9). -/
theorem Config.inCap_pos : 1 ≤ Config.inCap.toNat := by
  have hlt := Config.inCapLessOne.isLt
  rw [Config.inCap, BitVec.toNat_ofNat, Nat.mod_eq_of_lt (by omega)]
  omega

/-- Every register but ID and the capacities reads 0 after a reset (10_state.md R44). -/
theorem State.regValue_resetWith (inCap outCap : Word) (inSeed outSeed draws : Nat) (reads : List Word)
    (agenda : List Event) {r : Reg} (hid : r ≠ .id) (hin : r ≠ .inCap) (hout : r ≠ .outCap) :
    State.regValue { State.resetWith inCap outCap inSeed outSeed draws with reads := reads, agenda := agenda } r
      = 0#32 := by
  cases r with
  | id | inCap | outCap => contradiction
  | symCount =>
    show BitVec.ofNat 32 (present emptyTable).length = 0#32
    rw [present_emptyTable]
    rfl
  | freq x => exact countOf_emptyTable x
  | status => simp [State.regValue, State.statusWord, State.resetWith, State.busy, State.treeValid, State.codeValid]
  | bitCountHi => simp [State.regValue, State.resetWith]
  | _ => rfl

end Sys2Proof.Machine
end

section
/-! The settlements of 10_state.md. -/

namespace Sys2Proof.Machine

/-- Settles O57: each kind of step that `step_cases` names keeps the invariant. -/
theorem stepKeepsInvariant : Obligations.StepKeepsInvariant := by
  intro s t h hstep
  rcases step_cases hstep with ⟨a, rest, -, rfl⟩ | ⟨rest, -, rfl⟩ |
    ⟨rest, -, ⟨-, rfl⟩ | ⟨w, i, -, -, he⟩ | ⟨w, e, -, -, rfl⟩⟩
  · exact hostAccess_inv (h.setAgenda rest) a
  · exact (h.setAgenda rest).externalReset
  · exact h.setAgenda rest
  · exact exec_inv (h.setAgenda rest) he
  · exact (h.setAgenda rest).fail _

/-- Settles O8: the frame of every command is `exec_hostPart`. -/
theorem commandsLeaveHostState : Obligations.CommandsLeaveHostState :=
  fun _ _ _ h => (State.hostPart_eq_iff _ _).1 (exec_hostPart h)

/-- Settles O14: `regAt_offsetOf` and `offsetOf_regAt`. -/
theorem registerMap : Obligations.RegisterMap :=
  ⟨fun _ _ => regAt_offsetOf, fun _ => offsetOf_regAt⟩

/-- Settles O18: each write keeps the half it does not name, by `toNat_append_words`. -/
theorem bitCountHalves : Obligations.BitCountHalves := by
  intro s v hidle
  refine ⟨⟨s.bitCount.extractLsb' 32 32 ++ v, ?_, ?_⟩, ⟨v ++ s.bitCount.extractLsb' 0 32, ?_, ?_⟩,
    s.bitCount.extractLsb' 0 32, s.bitCount.extractLsb' 32 32,
    hostAccess_readReg_at (r := .bitCountLo) rfl (.inl hidle),
    hostAccess_readReg_at (r := .bitCountHi) rfl (.inl hidle), ?_⟩
  · rw [hostAccess_writeReg_at (r := .bitCountLo) rfl]
    exact State.ifIdle_of_idle hidle _
  · rw [toNat_append_words, toNat_highWord]
  · rw [hostAccess_writeReg_at (r := .bitCountHi) rfl]
    exact State.ifIdle_of_idle hidle _
  · rw [toNat_append_words, toNat_lowWord]
  · rw [toNat_lowWord, toNat_highWord]
    exact (Nat.mod_add_div _ _).symm

/-- Settles O24: SYM_COUNT reads the length of `present`, at most 256. -/
theorem symCountReads : Obligations.SymCountReads := by
  intro s w
  refine ⟨hostAccess_writeReg_at (r := .symCount) rfl w, fun hidle =>
    ⟨_, hostAccess_readReg_at (r := .symCount) rfl (.inl hidle), ?_⟩⟩
  have hle := present_length_le s.freq
  have hn : (s.regValue .symCount).toNat = (present s.freq).length :=
    (BitVec.toNat_ofNat _ _).trans (Nat.mod_eq_of_lt (by omega))
  refine ⟨hn.trans (present_length s.freq), hn ▸ hle, fun k hk => ?_⟩
  rw [BitVec.getLsbD, hn]
  exact Nat.testBit_lt_two_pow (calc
    _ ≤ 256 := hle
    _ < 2 ^ 9 := by decide
    _ ≤ 2 ^ k := Nat.pow_le_pow_right (by decide) hk)

/-- Settles O25: the six reads are `State.nodeWindow`, ROOT and NODE_COUNT; a slot without a node reads 0. -/
theorem nodeWindowReads : Obligations.NodeWindowReads := by
  intro s i hidle
  refine ⟨s.nodeWindow i 0#2, s.nodeWindow i 1#2, s.nodeWindow i 2#2, s.nodeWindow i 3#2, s.rootWord, s.nodeCountWord,
    hostAccess_readReg_at (r := .node i 0#2) rfl (.inl hidle), hostAccess_readReg_at (r := .node i 1#2) rfl (.inl hidle),
    hostAccess_readReg_at (r := .node i 2#2) rfl (.inl hidle), hostAccess_readReg_at (r := .node i 3#2) rfl (.inl hidle),
    hostAccess_readReg_at (r := .root) rfl (.inl hidle), hostAccess_readReg_at (r := .nodeCount) rfl (.inl hidle),
    s.nodeWindow_reserved i, fun ht => ?_, fun t ht => ?_⟩
  · simp only [State.nodeWindow_no_tree ht, State.rootWord, State.nodeCountWord, ht, and_self]
  · refine ⟨State.rootWord_toNat ht, State.nodeCountWord_toNat ht, fun hi => ?_, fun n hn => ?_⟩
    · simp only [State.nodeWindow_past_count ht hi, and_self]
    · simp only [State.nodeWindow_of_node? ht hn]
      exact ⟨nodeInfo_sym n, nodeInfo_left n, nodeInfo_right n, nodeInfo_reserved n, nodeInfo_leaf n,
        freq_eq_words n.freq⟩

/-- Settles O26: word `k` is `codeWord` of the symbol's code: its length, its bits or 0. -/
theorem codeWindowReads : Obligations.CodeWindowReads := by
  intro s x k hidle hk
  obtain ⟨k, rfl⟩ : ∃ w : BitVec 4, k = w.toNat := ⟨BitVec.ofNat 4 k, (Nat.mod_eq_of_lt hk).symm⟩
  refine ⟨s.codeWindow x k, hostAccess_readReg_at (r := .code x k) rfl (.inl hidle), fun hc => ?_, fun c hc hlen => ?_⟩
  · simp only [State.codeWindow, hc]
  · have hw : s.codeWindow x k = codeWord (codeOf c x) k := by simp only [State.codeWindow, hc]
    rw [hw]
    refine ⟨fun h0 => ?_, fun h1 h8 j hj => codeWord_bits _ h1 h8 hj, codeWord_high _⟩
    have hk0 : k = 0#4 := BitVec.eq_of_toNat_eq h0
    rw [hk0]
    exact codeWord_length hlen

/-- Settles O15: a reserved offset maps to `Reg.reserved`; a bad access meets `badRegAccess`. -/
theorem reservedAndBadAccesses : Obligations.ReservedAndBadAccesses := by
  intro s v width o
  refine ⟨fun ha hr => ?_, fun hbad => ?_⟩
  · have hreg := regAt_reserved hr
    constructor
    · rw [hostAccess_writeReg ha (by omega), hreg]
      rfl
    · rw [hostAccess_readReg ha (by omega) (.inr (by rw [hreg]; rfl)), hreg]
      rfl
  · have hbad := badRegAccess_eq_true hbad
    constructor
    · simp only [hostAccess, hostWriteReg, hbad, if_true, State.ignore]
    · simp only [hostAccess, hostReadReg, hbad, if_true, State.ignore, State.deliver]

/-- Settles O16: STATUS is not drawn while BUSY, and `State.statusWord_getLsbD` gives its bits. -/
theorem statusReads : Obligations.StatusReads := by
  intro s
  refine ⟨s.statusWord, hostAccess_readReg_at (r := .status) rfl (.inr rfl), ?_⟩
  simp only [State.statusWord_getLsbD]
  refine ⟨s.busy_eq_decide, rfl, rfl, ?_, ?_, rfl, fun k hk => List.getD_eq_default _ _ hk⟩
  · cases h : s.tree <;> simp [State.treeValid, h]
  · cases h : s.code <;> simp [State.codeValid, h]

/-- Settles O17: the write is `setCount` on a state with the tables cleared. -/
theorem freqWriteClearsTables : Obligations.FreqWriteClearsTables := by
  intro s x v hidle
  refine ⟨hostAccess_readReg_at (r := .freq x) rfl (.inl hidle), setCount s.freq x v, ?_, ?_, fun y hy => ?_⟩
  · rw [hostAccess_writeReg_at (r := .freq x) rfl]
    exact State.ifIdle_of_idle hidle _
  · rw [countOf_setCount, if_pos rfl]
  · rw [countOf_setCount, if_neg hy]

/-- Settles O23: the three registers are not drawn while BUSY, and their writes are ignored. -/
theorem constantRegisters : Obligations.ConstantRegisters := by
  refine ⟨fun _ _ => step_keeps_capacities, fun s v => ⟨hostAccess_readReg_at (r := .id) rfl (.inr rfl),
    hostAccess_readReg_at (r := .inCap) rfl (.inr rfl), hostAccess_readReg_at (r := .outCap) rfl (.inr rfl), ?_⟩⟩
  simp only [List.forall_mem_cons]
  exact ⟨hostAccess_writeReg_at (r := .id) rfl v, hostAccess_writeReg_at (r := .inCap) rfl v,
    hostAccess_writeReg_at (r := .outCap) rfl v, List.forall_mem_nil _⟩

/-- Settles O27: the registers are those of `State.regValue_resetWith`, the bytes those of an unwritten space. -/
theorem resetState : Obligations.ResetState :=
  ⟨rfl, rfl, rfl, fun _ => State.regValue_resetWith Config.inCap Config.outCap 0 1 2 [] [], rfl, rfl, rfl,
    Config.inCap_pos, fun a => ⟨Memory.read_redraw 0 a, Memory.read_redraw 1 a⟩⟩

/-- Settles O56: `State.reset` is `State.resetWith` at a legal IN_CAP and the draws 0 and 1 of 2. -/
theorem resetMeetsInvariant : Obligations.ResetMeetsInvariant :=
  State.resetWith_inv Config.inCap_pos (by decide) (by decide) (by decide)

end Sys2Proof.Machine
end

section
/-! What a register write and a byte access do, and what a read can change (20_memory.md R64 to R66, R72). -/

namespace Sys2Proof.Machine

/-! ## Registers -/

theorem State.ifIdle_of_busy {s : State} (h : s.seq ≠ .idle) (t : State) : s.ifIdle t = { s with ignored := true } :=
  if_pos (s.busy_eq_true_iff.2 h)

/-- A write to a read-only register only sets IGNORED, idle or BUSY (10_state.md R23). -/
theorem writeRegister_readOnly {r : Reg} (h : regAccess r = .readOnly) (s : State) (v : Word) :
    writeRegister s r v = { s with ignored := true } := by
  cases r with
  | ctrl | cmd | status | inLen | bitCountLo | bitCountHi | freq _ | reserved => cases h
  | id | errCode | outLen | inCap | outCap | root | nodeCount | symCount | node _ _ | code _ _ => rfl

/-- The read-only registers below the windows (10_state.md R23). -/
theorem regAccess_readOnly_fixed : ∀ o ∈ [0x0000, 0x0010, 0x0018, 0x001C, 0x0020, 0x002C, 0x0030, 0x0034],
    o % 4 = 0 ∧ o < 0x8000 ∧ regAccess (regAt o) = .readOnly := by decide

/-- Every word of the NODE and CODE windows is read-only (10_state.md R23; log 10). -/
theorem regAccess_readOnly_window {o : Nat} (h : 0x1000 ≤ o ∧ o < 0x3000 ∨ 0x4000 ≤ o ∧ o < 0x8000) :
    regAccess (regAt o) = .readOnly := by
  rcases h with ⟨hge, hlt⟩ | ⟨hge, hlt⟩
  · rw [regAt_node hge hlt, regAccess]
  · rw [regAt_code hge hlt, regAccess]

/-- CTRL reads IRQ_EN in bit 0 (10_state.md R25). -/
theorem State.regValue_ctrl (s : State) : s.regValue .ctrl = if s.irqEn then 1#32 else 0#32 := by
  rw [State.regValue]
  cases s.irqEn <;> rfl

/-- A read of a register records its value or a fresh draw, and changes nothing else (20_memory.md R72). -/
theorem readRegister_records (s : State) (r : Reg) :
    ∃ v d, readRegister s r = { s with reads := v :: s.reads, draws := d } := by
  unfold readRegister
  split
  · exact ⟨Config.freeWord s.draws, s.draws + 1, rfl⟩
  · exact ⟨s.regValue r, s.draws, rfl⟩

/-! ## Bytes of IN and OUT -/

theorem hostAccess_readIn_inside {s : State} {a : Nat} (h : a < s.inCap.toNat) :
    hostAccess s (.readIn a) = { s with reads := (s.inp.read a).setWidth 32 :: s.reads } := if_pos h

theorem hostAccess_readIn_outside {s : State} {a : Nat} (h : s.inCap.toNat ≤ a) :
    hostAccess s (.readIn a) = { s with ignored := true, reads := 0#32 :: s.reads } := if_neg h.not_gt

theorem hostAccess_writeIn_inside {s : State} {a : Nat} (h : a < s.inCap.toNat) (b : Byte) :
    hostAccess s (.writeIn a b) = s.ifIdle { s with inp := s.inp.write a b } := if_pos h

theorem hostAccess_writeIn_outside {s : State} {a : Nat} (h : s.inCap.toNat ≤ a) (b : Byte) :
    hostAccess s (.writeIn a b) = { s with ignored := true } := if_neg h.not_gt

theorem hostAccess_readOut_idle {s : State} {a : Nat} (h : a < s.outCap.toNat) (hs : s.seq = .idle) :
    hostAccess s (.readOut a) = { s with reads := (s.out.read a).setWidth 32 :: s.reads } := by
  simp only [hostAccess, hostReadOut, h, s.busy_eq_false_iff.2 hs, if_true, Bool.false_eq_true, if_false, State.deliver]

theorem hostAccess_readOut_busy {s : State} {a : Nat} (h : a < s.outCap.toNat) (hs : s.seq ≠ .idle) :
    hostAccess s (.readOut a)
      = { s with reads := (Config.freeByte s.draws a).setWidth 32 :: s.reads, draws := s.draws + 1 } := by
  simp only [hostAccess, hostReadOut, h, s.busy_eq_true_iff.2 hs, if_true, State.deliver, State.drawn]

theorem hostAccess_readOut_outside {s : State} {a : Nat} (h : s.outCap.toNat ≤ a) :
    hostAccess s (.readOut a) = { s with ignored := true, reads := 0#32 :: s.reads } := if_neg h.not_gt

theorem hostAccess_writeOut (s : State) (a : Nat) (b : Byte) :
    hostAccess s (.writeOut a b) = { s with ignored := true } := rfl

end Sys2Proof.Machine
end

section
/-! What a pending command works on, along host accesses (20_memory.md R74, 70_reset_and_hazards.md R235). -/

namespace Sys2Proof.Machine

/-- What a pending command works on: its word, the operands it reads, and the results that acceptance left. -/
def State.commandPart (s : State) :
    Sequencer × Memory × Word × BitCount × FreqTable × Option Tree × Option CodeTable × Memory × Word × ErrorCode :=
  (s.seq, s.inp, s.inLen, s.bitCount, s.freq, s.tree, s.code, s.out, s.outLen, s.errCode)

theorem State.commandPart_eq_iff (s t : State) : t.commandPart = s.commandPart ↔
    t.seq = s.seq ∧ t.inp = s.inp ∧ t.inLen = s.inLen ∧ t.bitCount = s.bitCount ∧ t.freq = s.freq ∧ t.tree = s.tree ∧
    t.code = s.code ∧ t.out = s.out ∧ t.outLen = s.outLen ∧ t.errCode = s.errCode := by
  simp only [State.commandPart, Prod.mk.injEq]

theorem hostAccess_busy_commandPart {s : State} (h : s.seq ≠ .idle) (a : Access) :
    (hostAccess s a).commandPart = s.commandPart := by
  obtain ⟨-, -, hout, -⟩ := hostAccess_keeps s a
  obtain ⟨hseq, hinp, hlen, hbits, hfreq, htree, hcode, houtLen, herr⟩ :=
    hostAccess_busy_keeps a (s.busy_eq_true_iff.2 h)
  exact (State.commandPart_eq_iff _ _).2 ⟨hseq, hinp, hlen, hbits, hfreq, htree, hcode, hout, houtLen, herr⟩

/-- A run whose first step answers a next state goes on from it. -/
theorem core_run_succ {M : Host.Core} {s t : M.State} (h : M.step s = .next t) (k : Nat) :
    M.run (k + 1) s = M.run k t := by
  simp only [Host.Core.run, h]

/-- A host access before a pending command's engine step leaves what the command works on (20_memory.md R74; log 1). -/
theorem step_host_busy {s : State} {a : Access} {rest : List Event} (hs : s.seq ≠ .idle)
    (hag : s.agenda = .host a :: rest) :
    ∃ t, step s = .next t ∧ t.agenda = rest ∧ t.commandPart = s.commandPart := by
  obtain ⟨-, -, -, hrest⟩ := hostAccess_keeps { s with agenda := rest } a
  exact ⟨hostAccess { s with agenda := rest } a, by simp only [step, hag], hrest,
    hostAccess_busy_commandPart (s := { s with agenda := rest }) hs a⟩

/-- While a command is pending, a step per host access takes them all and leaves what the command works on
(20_memory.md R74; log 1). -/
theorem core_run_hosts_busy {s : State} {as : List Access} {rest : List Event} (hs : s.seq ≠ .idle)
    (hag : s.agenda = as.map .host ++ rest) :
    ∃ t, core.run as.length s = .next t ∧ t.agenda = rest ∧ t.commandPart = s.commandPart := by
  induction as generalizing s with
  | nil => exact ⟨s, rfl, hag, rfl⟩
  | cons a as ih =>
    obtain ⟨u, hstep, hag', hu⟩ := step_host_busy hs hag
    obtain ⟨hseq, -⟩ := (State.commandPart_eq_iff _ _).1 hu
    obtain ⟨t, hrun, hrest, ht⟩ := ih (hseq ▸ hs) hag'
    exact ⟨t, (core_run_succ (M := core) hstep as.length).trans hrun, hrest, ht.trans hu⟩

end Sys2Proof.Machine
end

section
/-! The settlements of 20_memory.md. -/

namespace Sys2Proof.Machine

/-- Settles O10: `core_run_hosts_busy` with no event after the host accesses. -/
theorem operandsAreFixedWhileBusy : Obligations.OperandsAreFixedWhileBusy := by
  intro s w as hs hag
  obtain ⟨t, hrun, -, hpart⟩ := core_run_hosts_busy (ne_of_eq_of_ne hs nofun)
    (hag.trans (List.append_nil _).symm)
  obtain ⟨hseq, hfixed⟩ := (State.commandPart_eq_iff _ _).1 hpart
  exact ⟨t, hrun, hseq.trans hs, hfixed⟩

/-- Settles O22: a good read is one of a register, of a byte of IN inside IN_CAP, or of a byte of OUT inside OUT_CAP. -/
theorem readsHaveNoSideEffect : Obligations.ReadsHaveNoSideEffect := by
  intro s a hgood
  cases a with
  | writeReg _ _ _ | writeIn _ _ | writeOut _ _ => cases hgood
  | readReg width o =>
    simp only [goodRead, Bool.and_eq_true, decide_eq_true_eq] at hgood
    obtain ⟨⟨rfl, ha⟩, hlt⟩ := hgood
    simpa only [hostAccess, hostReadReg, badRegAccess_eq_false ha hlt, Bool.false_eq_true, if_false]
      using readRegister_records s (regAt o)
  | readIn i => exact ⟨_, s.draws, hostAccess_readIn_inside (of_decide_eq_true hgood)⟩
  | readOut i =>
    have hi : i < s.outCap.toNat := of_decide_eq_true hgood
    by_cases hs : s.seq = .idle
    · exact ⟨_, s.draws, hostAccess_readOut_idle hi hs⟩
    · exact ⟨_, s.draws + 1, hostAccess_readOut_busy hi hs⟩

/-- Settles O59: none of the registers read is drawn while BUSY, and the offsets written are those of read-only
registers. -/
theorem registerAccess : Obligations.RegisterAccess := by
  intro s v o
  refine ⟨?_, ⟨s.regValue .errCode, hostAccess_readReg_at (r := .errCode) rfl (.inr rfl), ?_⟩,
    hostAccess_readReg_at (r := .inLen) rfl (.inr rfl), hostAccess_readReg_at (r := .outLen) rfl (.inr rfl),
    fun hs => hostAccess_readReg_at (r := .cmd) rfl (.inl hs), fun hs => ?_, fun ho => ?_⟩
  · rw [hostAccess_readReg_at (r := .ctrl) rfl (.inr rfl), State.regValue_ctrl]
  · rw [State.regValue]
    cases s.errCode <;> decide
  · rw [hostAccess_writeReg_at (r := .inLen) rfl]
    exact State.ifIdle_of_idle hs _
  · have hreg : o % 4 = 0 ∧ o < 0x8000 ∧ regAccess (regAt o) = .readOnly := by
      rcases ho with ho | ⟨ha, ho⟩
      · exact regAccess_readOnly_fixed o ho
      · exact ⟨ha, by omega, regAccess_readOnly_window ho⟩
    obtain ⟨ha, hlt, hro⟩ := hreg
    rw [hostAccess_writeReg ha hlt, writeRegister_readOnly hro]

/-- Settles O13: `State.writeCtrl` and `State.writeStatus` are reached in every state, and write out as stated. -/
theorem ctrlAndStatusWrites : Obligations.CtrlAndStatusWrites :=
  fun _ v => ⟨hostAccess_writeReg_at (r := .ctrl) rfl v, hostAccess_writeReg_at (r := .status) rfl v⟩

/-- Settles O19: the idle write inside IN_CAP is `Memory.write`. -/
theorem inAccess : Obligations.InAccess := by
  intro s a b
  refine ⟨fun ha => ⟨hostAccess_readIn_inside ha, fun hs => ⟨s.inp.write a b, ?_, s.inp.read_write_same a b,
    fun k hk => s.inp.read_write_other a k b hk⟩, fun hs => ?_⟩,
    fun ha => ⟨hostAccess_readIn_outside ha, hostAccess_writeIn_outside ha b⟩⟩
  · rw [hostAccess_writeIn_inside ha, State.ifIdle_of_idle hs]
  · rw [hostAccess_writeIn_inside ha, State.ifIdle_of_busy hs]

/-- Settles O20: the cases of a byte access to OUT. -/
theorem outAccess : Obligations.OutAccess :=
  fun s a b => ⟨fun ha => ⟨hostAccess_readOut_idle ha, hostAccess_readOut_busy ha⟩, hostAccess_readOut_outside,
    hostAccess_writeOut s a b⟩

/-- Settles O58, by induction on the number of bytes: the first byte is the term of weight 1, and the bytes after it
are 2^8 times what they assemble on their own. -/
theorem memReadIsLittleEndian : Obligations.MemReadIsLittleEndian := by
  intro m a n
  induction n generalizing a with
  | zero => rfl
  | succ n ih =>
    have hterm : ∀ t, (m.read (a + (t + 1))).toNat * 2 ^ (8 * (t + 1))
        = 2 ^ 8 * ((m.read (a + 1 + t)).toNat * 2 ^ (8 * t)) := by
      intro t
      rw [show a + (t + 1) = a + 1 + t by omega, Nat.mul_add_one, Nat.pow_add]
      ring
    rw [memRead, ih, List.range_succ_eq_map, List.map_cons, List.sum_cons, List.map_map, ← List.sum_map_mul_left]
    simp [Function.comp_def, hterm]

end Sys2Proof.Machine
end

section
/-! The decoder and the encoder of command words (30_encoding.md R81 to R83). -/

namespace Sys2Proof.Machine

/-! ## Words -/

/-- A word is its RSVD field above its OPCODE field (30_encoding.md R81). -/
theorem rsvdField_append_opcodeField (w : Word) : (rsvdField w ++ opcodeField w : BitVec 32) = w :=
  BitVec.extractLsb'_append_extractLsb'

/-- A word is determined by its two fields (30_encoding.md R81). -/
theorem word_eq_iff_fields {v w : Word} : v = w ↔ rsvdField v = rsvdField w ∧ opcodeField v = opcodeField w := by
  refine ⟨fun h => h ▸ ⟨rfl, rfl⟩, fun ⟨hr, ho⟩ => ?_⟩
  rw [← rsvdField_append_opcodeField v, hr, ho, rsvdField_append_opcodeField]

theorem opcodeField_toNat (w : Word) : (opcodeField w).toNat = w.toNat % 16 := by
  rw [opcodeField, BitVec.extractLsb'_toNat, Nat.shiftRight_zero]

/-- RSVD is 0 unless a bit of w[31:4] is 1 (30_encoding.md R81). -/
theorem rsvdField_ne_zero_iff (w : Word) : rsvdField w ≠ 0#28 ↔ ∃ k, 4 ≤ k ∧ k < 32 ∧ w.getLsbD k = true := by
  have hbit : ∀ j, (rsvdField w).getLsbD j = (decide (j < 28) && w.getLsbD (4 + j)) := fun j =>
    BitVec.getLsbD_extractLsb' ..
  constructor
  · intro hne
    by_contra hno
    refine hne (BitVec.eq_of_getLsbD_eq fun j hj => ?_)
    rw [hbit, BitVec.getLsbD_zero, decide_eq_true hj, Bool.true_and]
    exact Bool.eq_false_iff.2 fun hk => hno ⟨4 + j, by omega, by omega, hk⟩
  · rintro ⟨k, h4, h32, hk⟩ hzero
    have hj := hbit (k - 4)
    rw [hzero, show 4 + (k - 4) = k by omega, hk, decide_eq_true (by omega)] at hj
    exact absurd hj (by simp)

/-! ## The opcode map -/

/-- The opcode map and `opcodeOf` are inverse (30_encoding.md R82). -/
theorem decodeOpcode_eq_some_iff (op : BitVec 4) (i : Instr) : decodeOpcode op = some i ↔ op = opcodeOf i := by
  cases i <;> revert op <;> decide

/-- The OPCODEs 0x0 and 0x9 to 0xF are reserved (30_encoding.md R83). -/
theorem decodeOpcode_eq_none_iff (op : BitVec 4) : decodeOpcode op = none ↔ op.toNat = 0 ∨ 9 ≤ op.toNat := by
  revert op
  decide

/-- Every command's word obeys the encoding's law (30_encoding.md R81, R82, R84). -/
theorem encodingLaw (i : Instr) : Laws.EncodingLaw.Statement i := by
  cases i
  case collect => exact Laws.EncodingLaw.collect
  case build => exact Laws.EncodingLaw.build
  case derive => exact Laws.EncodingLaw.derive
  case pack => exact Laws.EncodingLaw.pack
  case unpack => exact Laws.EncodingLaw.unpack
  case encode => exact Laws.EncodingLaw.encode
  case decode => exact Laws.EncodingLaw.decode
  case clear => exact Laws.EncodingLaw.clear

/-- The eight command words, and no other, are decoded, each to its command (30_encoding.md R82, R83). -/
theorem decode_eq_ok_iff {w : Word} {i : Instr} : decode w = .ok i ↔ w = encode i := by
  obtain ⟨-, -, hop, hrsvd, hdec, -⟩ := encodingLaw i
  refine ⟨fun h => ?_, fun h => h ▸ hdec⟩
  unfold decode at h
  split at h
  · rename_i hzero
    split at h
    · rename_i j hj
      cases h
      exact word_eq_iff_fields.2 ⟨hzero.trans hrsvd.symm, ((decodeOpcode_eq_some_iff _ _).1 hj).trans hop.symm⟩
    · cases h
  · cases h

/-- A word is rejected for its RSVD field or for its OPCODE (30_encoding.md R83). -/
theorem decode_eq_error_iff (w : Word) :
    (∃ e, decode w = .error e) ↔ decodeOpcode (opcodeField w) = none ∨ rsvdField w ≠ 0#28 := by
  unfold decode
  split
  · rename_i hzero
    cases decodeOpcode (opcodeField w) <;> simp [hzero]
  · rename_i hne
    exact ⟨fun _ => .inr hne, fun _ => ⟨_, rfl⟩⟩

/-- Every row of the opcode map is for its command's word, with a mask of ones (30_encoding.md R82). -/
theorem opcodeTable_rows : ∀ r ∈ opcodeTable, r.value = encode r.instr ∧ r.mask = BitVec.allOnes 32 := by decide

theorem opcodeTable_has_row (i : Instr) : ⟨i, encode i, BitVec.allOnes 32⟩ ∈ opcodeTable := by
  cases i <;> decide

/-! ## Bytes -/

/-- Four bytes are a word iff they are its bytes, least significant first (20_memory.md R63, R69). -/
theorem wordOfBytes_eq_iff (b0 b1 b2 b3 : Byte) (w : Word) :
    wordOfBytes b0 b1 b2 b3 = w ↔ [b0, b1, b2, b3] = bytesLE 4 w.toNat := by
  have hbytes : bytesLE 4 w.toNat = [byteOf w.toNat 0, byteOf w.toNat 1, byteOf w.toNat 2, byteOf w.toNat 3] := rfl
  have h0 := b0.isLt
  have h1 := b1.isLt
  have h2 := b2.isLt
  have h3 := b3.isLt
  have hw := w.isLt
  rw [hbytes]
  simp only [List.cons.injEq, and_true, wordOfBytes, byteOf, ← BitVec.toNat_inj, BitVec.toNat_ofNat]
  omega

theorem encodeBytes_length (i : Instr) : (encodeBytes i).length = 4 := rfl

/-- The first four bytes are decoded as a word, and the others are left over (30_encoding.md R81). -/
theorem decodeBytes_cons_eq_ok_iff {b0 b1 b2 b3 : Byte} {tail rest : List Byte} {i : Instr} :
    decodeBytes (b0 :: b1 :: b2 :: b3 :: tail) = .ok (i, rest) ↔
      decode (wordOfBytes b0 b1 b2 b3) = .ok i ∧ tail = rest := by
  simp only [decodeBytes]
  split
  · simp [*]
  · simp [*]

/-- Fewer than four bytes are no command (30_encoding.md R81). -/
theorem decodeBytes_short {bs : List Byte} (h : bs.length < 4) : decodeBytes bs = .error .truncated := by
  unfold decodeBytes
  split
  · simp at h
    omega
  · rfl

end Sys2Proof.Machine
end

section
/-! The settlements of 30_encoding.md R81 to R83: command words. -/

namespace Sys2Proof.Machine

/-- Settles O3: four bytes decode to `i` iff their word is `encode i`, that is iff they are its bytes; fewer bytes are
neither. -/
theorem decodeEncodeAgree : Obligations.DecodeEncodeAgree := by
  intro i bs rest
  match bs with
  | b0 :: b1 :: b2 :: b3 :: tail =>
    have hsplit : b0 :: b1 :: b2 :: b3 :: tail = encodeBytes i ++ rest ↔
        [b0, b1, b2, b3] = encodeBytes i ∧ tail = rest :=
      List.append_eq_append_iff_of_size_eq_left (ws := [b0, b1, b2, b3]) rfl
    rw [decodeBytes_cons_eq_ok_iff, decode_eq_ok_iff, wordOfBytes_eq_iff, hsplit, encodeBytes]
  | [] | [_] | [_, _] | [_, _, _] =>
    rw [decodeBytes_short (by simp)]
    refine ⟨nofun, fun h => ?_⟩
    have hlen := congrArg List.length h
    rw [List.length_append, encodeBytes_length] at hlen
    simp at hlen
    omega

/-- Settles O1: under a mask of ones a row matches its command's word alone, the one that `decode_eq_ok_iff` names. -/
theorem opcodeMapDecodes : Obligations.OpcodeMapDecodes := by
  intro w i
  rw [decode_eq_ok_iff]
  constructor
  · rintro rfl
    exact ⟨_, opcodeTable_has_row i, rfl, BitVec.and_allOnes⟩
  · rintro ⟨r, hr, rfl, hmatch⟩
    obtain ⟨hvalue, hmask⟩ := opcodeTable_rows r hr
    rwa [hmask, hvalue, BitVec.and_allOnes] at hmatch

/-- Settles O2: the two ways of `decode_eq_error_iff`, each read off the word's bits. -/
theorem illegalWordsAreRejected : Obligations.IllegalWordsAreRejected := by
  intro w
  rw [decode_eq_error_iff, decodeOpcode_eq_none_iff, opcodeField_toNat, rsvdField_ne_zero_iff]

/-- Settles O4: three of the byte sequences are a command's, and the fourth has bit 4 set. -/
theorem specWordsDecode : Obligations.SpecWordsDecode :=
  ⟨(decodeEncodeAgree .collect _ []).2 rfl, (decodeEncodeAgree .pack _ []).2 rfl,
    (decodeEncodeAgree .clear _ []).2 rfl, rfl⟩

end Sys2Proof.Machine
end

section
/-! How an engine step ends (60_exceptions.md R205, R208, R221). -/

namespace Sys2Proof.Machine

/-- A state in which a command has just succeeded or taken an error (60_exceptions.md R205, R208). -/
def State.AtEnd (t : State) : Prop := ∃ u : State, (∃ n, t = u.succeed n) ∨ ∃ e, t = u.fail e

@[simp] theorem State.succeed_atEnd (s : State) (n : Word) : (s.succeed n).AtEnd := ⟨s, .inl ⟨n, rfl⟩⟩

@[simp] theorem State.fail_atEnd (s : State) (e : Raise) : (s.fail e).AtEnd := ⟨s, .inr ⟨e, rfl⟩⟩

theorem State.AtEnd.idle {t : State} (h : t.AtEnd) : t.seq = .idle := by
  obtain ⟨u, ⟨n, rfl⟩ | ⟨e, rfl⟩⟩ := h
  · exact u.succeed_seq n
  · exact u.fail_seq e

theorem runCollect_atEnd (s : State) : (runCollect s).AtEnd := by
  rcases runCollect_cases s with ⟨-, e⟩ | ⟨-, ⟨r, -, e⟩ | ⟨f, -, e⟩⟩ <;> simp [e]

theorem runBuild_atEnd (s : State) : (runBuild s).AtEnd := by
  rcases runBuild_cases s with ⟨-, e⟩ | ⟨-, e⟩ <;> simp [e]

theorem runDerive_atEnd (s : State) : (runDerive s).AtEnd := by
  rcases runDerive_cases s with ⟨-, e⟩ | ⟨t, -, e⟩ <;> simp [e]

theorem runPack_atEnd (s : State) : (runPack s).AtEnd := by
  rcases runPack_cases s with ⟨-, e⟩ | ⟨c, -, ⟨-, e⟩ | ⟨-, ⟨r, -, e⟩ | ⟨k, n, -, e⟩⟩⟩ <;> simp [e]

theorem runUnpack_atEnd (s : State) : (runUnpack s).AtEnd := by
  rcases runUnpack_cases s with ⟨-, e⟩ | ⟨t, -, ⟨-, e⟩ | ⟨-, ⟨-, e⟩ | ⟨-, ⟨r, -, e⟩ | ⟨k, -, e⟩⟩⟩⟩ <;> simp [e]

theorem runEncode_atEnd (s : State) : (runEncode s).AtEnd := by
  rcases runEncode_cases s with ⟨-, e⟩ | ⟨-, ⟨r, -, e⟩ | ⟨f, -, ⟨-, ⟨r, -, e⟩ | ⟨k, -, e⟩⟩ |
    ⟨-, ⟨r, -, e⟩ | ⟨k, -, e⟩⟩⟩⟩ <;> simp [e]

theorem runDecode_atEnd (s : State) : (runDecode s).AtEnd := by
  rcases runDecode_cases s with ⟨-, e⟩ | ⟨-, ⟨r, -, e⟩ | ⟨hd, -, ⟨-, e⟩ | ⟨-, ⟨r, -, e⟩ | ⟨k, -, e⟩⟩⟩⟩ <;> simp [e]

/-- No command stops: each answers a state at its end (60_exceptions.md R221). -/
theorem exec_atEnd (i : Instr) (s : State) : ∃ t, exec i s = .next t ∧ t.AtEnd := by
  cases i
  case collect => exact ⟨_, rfl, runCollect_atEnd s⟩
  case build => exact ⟨_, rfl, runBuild_atEnd s⟩
  case derive => exact ⟨_, rfl, runDerive_atEnd s⟩
  case pack => exact ⟨_, rfl, runPack_atEnd s⟩
  case unpack => exact ⟨_, rfl, runUnpack_atEnd s⟩
  case encode => exact ⟨_, rfl, runEncode_atEnd s⟩
  case decode => exact ⟨_, rfl, runDecode_atEnd s⟩
  case clear => exact ⟨_, rfl, s.clearWorking.succeed_atEnd 0#32⟩

/-- The engine step of any word, legal or not, answers a state at its end (60_exceptions.md R221). -/
theorem runWord_atEnd (w : Word) (s : State) : ∃ t, runWord w s = .next t ∧ t.AtEnd := by
  unfold runWord
  split
  · exact exec_atEnd _ s
  · exact ⟨_, rfl, s.fail_atEnd .illegalCommand⟩

end Sys2Proof.Machine
end

section
/-! What DECODE does with each kind of stream (45_orchestrator.md R183, R184). -/

namespace Sys2Proof.Machine

variable {s : State} {f : FreqTable}

theorem State.sourceTooLong_eq_false (h : s.inLen.toNat ≤ s.inCap.toNat) : s.sourceTooLong = false :=
  decide_eq_false (Nat.not_lt.2 h)

theorem payloadBits_length (m : Memory) (p n : Nat) : (payloadBits m p n).length = n := by
  rw [payloadBits, List.length_map, List.length_range]

/-- `n` bits fit in `ceil8 n` bytes (00_scope.md R14). -/
theorem le_eight_mul_ceil8 (n : Nat) : n ≤ 8 * ceil8 n := by
  unfold ceil8
  split <;> omega

/-- A payload spells at most a symbol per bit (42_code_table.md R145). -/
theorem PayloadSpells.length_le (hne : present f ≠ []) {bits : List Bool} {xs : List Byte}
    (h : PayloadSpells f bits xs) : xs.length ≤ bits.length := by
  obtain ⟨ys, p, hbegins, hlen⟩ := payload_begins hne bits
  obtain ⟨rfl, -⟩ := (h.begins hne).unique hne hbegins
  exact hlen

/-- The header that `parse` returns for the table `f` of the stream in IN (45_orchestrator.md R183). -/
def State.streamHeader (s : State) (f : FreqTable) : Header :=
  ⟨f, memRead s.inp (4 + 5 * memRead s.inp 0 4) 8, 12 + 5 * memRead s.inp 0 4⟩

/-- The payload bits of the stream in IN (30_encoding.md R94). -/
def State.streamBits (s : State) : List Bool :=
  payloadBits s.inp (12 + 5 * memRead s.inp 0 4) (memRead s.inp (4 + 5 * memRead s.inp 0 4) 8)

theorem WellFormedHeader.parse_eq (H : WellFormedHeader s.inp s.inLen.toNat) (hf : IsStreamTable s.inp f) :
    parse s.inp s.inLen.toNat = .ok (s.streamHeader f) := by
  obtain ⟨g, hparse, hg⟩ := parse_ok H
  rwa [streamTable_unique hg hf] at hparse

/-- The payload has at most eight bits per byte of the stream (30_encoding.md R96). -/
theorem WellFormedHeader.streamBits_length_le (H : WellFormedHeader s.inp s.inLen.toNat) :
    s.streamBits.length ≤ 8 * s.inLen.toNat := by
  have hceil := le_eight_mul_ceil8 (memRead s.inp (4 + 5 * memRead s.inp 0 4) 8)
  have hlen := H.exactLength
  rw [State.streamBits, payloadBits_length]
  omega

/-- A bad header ends DECODE in stage 1 (45_orchestrator.md R183, R184). -/
theorem runDecode_badHeader (hcap : s.inLen.toNat ≤ s.inCap.toNat) (H : ¬ WellFormedHeader s.inp s.inLen.toNat) :
    ∃ c, runDecode s = s.clearWorking.fail (.malformedStream c) := by
  obtain ⟨c, hparse⟩ := parse_malformed H
  refine ⟨c, ?_⟩
  simp only [runDecode, State.sourceTooLong_eq_false hcap, hparse, Bool.false_eq_true, if_false]

/-- A sound header whose table is empty ends DECODE with success and no output (45_orchestrator.md R184, R187). -/
theorem runDecode_empty (hcap : s.inLen.toNat ≤ s.inCap.toNat) (H : WellFormedHeader s.inp s.inLen.toNat)
    (hf : IsStreamTable s.inp f) (hnone : memRead s.inp 0 4 = 0) :
    runDecode s = (decodeStage1 s (s.streamHeader f)).succeed 0#32 := by
  have hempty : (present (s.streamHeader f).freq).isEmpty = true :=
    List.isEmpty_iff.2 ((streamTable_empty_iff H hf).2 hnone)
  simp only [runDecode, State.sourceTooLong_eq_false hcap, H.parse_eq hf, Bool.false_eq_true, if_false, decodeParsed,
    hempty, if_true, decodeStage1]

@[simp] theorem decodeStage2_outCap (s : State) (h : Header) : (decodeStage2 s h).outCap = s.outCap := rfl

@[simp] theorem decodeStage2_out (s : State) (h : Header) : (decodeStage2 s h).out = s.out := rfl

/-- A sound header with entries leads DECODE to the walk, with FREQ, BIT_COUNT and TREE staged (45_orchestrator.md
R184). -/
theorem runDecode_walks (hcap : s.inLen.toNat ≤ s.inCap.toNat) (H : WellFormedHeader s.inp s.inLen.toNat)
    (hf : IsStreamTable s.inp f) (hsome : memRead s.inp 0 4 ≠ 0) :
    runDecode s = decodeStaged (decodeStage2 s (s.streamHeader f)) (build f) s.streamBits := by
  have hfull : ¬ (present (s.streamHeader f).freq).isEmpty = true :=
    mt List.isEmpty_iff.1 (mt (streamTable_empty_iff H hf).1 hsome)
  simp only [runDecode, State.sourceTooLong_eq_false hcap, H.parse_eq hf, Bool.false_eq_true, if_false, decodeParsed,
    hfull]
  rfl

/-- The walk's success is DECODE's (45_orchestrator.md R184). -/
theorem runDecode_of_walk_ok (hcap : s.inLen.toNat ≤ s.inCap.toNat) (H : WellFormedHeader s.inp s.inLen.toNat)
    (hf : IsStreamTable s.inp f) (hsome : memRead s.inp 0 4 ≠ 0) {k : Sink}
    (h : walkDecode (build f) s.outCap.toNat ⟨s.out, 0⟩ s.streamBits = .ok k) :
    runDecode s = State.succeed { decodeStage2 s (s.streamHeader f) with out := k.mem } (BitVec.ofNat 32 k.j) := by
  simp only [runDecode_walks hcap H hf hsome, decodeStaged, decodeStage2_outCap, decodeStage2_out, h]

/-- The walk's error is DECODE's, with OUT redrawn (45_orchestrator.md R184, 60_exceptions.md R207). -/
theorem runDecode_of_walk_error (hcap : s.inLen.toNat ≤ s.inCap.toNat) (H : WellFormedHeader s.inp s.inLen.toNat)
    (hf : IsStreamTable s.inp f) (hsome : memRead s.inp 0 4 ≠ 0) {e : Raise}
    (h : walkDecode (build f) s.outCap.toNat ⟨s.out, 0⟩ s.streamBits = .error e) :
    runDecode s = (decodeStage2 s (s.streamHeader f)).redrawOut.fail e := by
  simp only [runDecode_walks hcap H hf hsome, decodeStaged, decodeStage2_outCap, decodeStage2_out, h]

/-- A stream with entries is well formed iff its header is sound and its payload spells what its table counts
(30_encoding.md R96). -/
theorem wellFormedStream_iff_spells (H : WellFormedHeader s.inp s.inLen.toNat) (hf : IsStreamTable s.inp f)
    (hsome : memRead s.inp 0 4 ≠ 0) :
    WellFormedStream s.inp s.inLen.toNat ↔ ∃ xs, PayloadSpells f s.streamBits xs := by
  constructor
  · rintro ⟨-, hpay⟩
    obtain ⟨g, xs, hg, hspells⟩ := hpay hsome
    exact ⟨xs, streamTable_unique hg hf ▸ hspells⟩
  · rintro ⟨xs, hspells⟩
    exact ⟨H, fun _ => ⟨f, xs, hf, hspells⟩⟩

end Sys2Proof.Machine
end

section
/-! The settlement of 30_encoding.md R96: well-formed streams. -/

namespace Sys2Proof.Machine

/-- Settles O51: a bad header is in no well-formed stream, a sound one without entries is a stream of its own, and with
entries the walk succeeds iff the payload spells what the table counts. OUT has room for a symbol per bit, so the walk
never meets a full sink. -/
theorem decodeAcceptsExactlyWellFormedStreams : Obligations.DecodeAcceptsExactlyWellFormedStreams := by
  intro s hcap hroom
  refine ⟨runDecode s, rfl, ?_⟩
  by_cases H : WellFormedHeader s.inp s.inLen.toNat
  case neg =>
    obtain ⟨c, hrun⟩ := runDecode_badHeader hcap H
    rw [hrun, State.fail_err, State.fail_errCode]
    exact ⟨⟨nofun, fun hstream => absurd hstream.1 H⟩, fun _ => rfl⟩
  obtain ⟨f, -, hf⟩ := parse_ok H
  by_cases hsome : memRead s.inp 0 4 = 0
  case pos =>
    rw [runDecode_empty hcap H hf hsome, State.succeed_err]
    exact ⟨⟨fun _ => ⟨H, fun hc => absurd hsome hc⟩, fun _ => rfl⟩, nofun⟩
  have hne : present f ≠ [] := mt (streamTable_empty_iff H hf).1 hsome
  have hbits : s.streamBits.length ≤ s.outCap.toNat := H.streamBits_length_le.trans hroom
  rw [wellFormedStream_iff_spells H hf hsome]
  by_cases hspells : ∃ xs, PayloadSpells f s.streamBits xs
  case pos =>
    obtain ⟨xs, hxs⟩ := hspells
    have hfits : xs.length ≤ s.outCap.toNat := (hxs.length_le hne).trans hbits
    obtain ⟨m, hwalk, -⟩ := (walkDecode_spells hne s.outCap.toNat s.out hxs).1 hfits
    rw [runDecode_of_walk_ok hcap H hf hsome hwalk, State.succeed_err]
    exact ⟨⟨fun _ => ⟨xs, hxs⟩, fun _ => rfl⟩, nofun⟩
  case neg =>
    obtain ⟨e, hwalk, hcode⟩ := walkDecode_rejects hne s.outCap.toNat s.out hbits hspells
    rw [runDecode_of_walk_error hcap H hf hsome hwalk, State.fail_err, State.fail_errCode]
    exact ⟨⟨nofun, fun hxs => absurd hxs hspells⟩, fun _ => hcode⟩

end Sys2Proof.Machine
end

section
/-! Where a bus transaction is routed (20_memory.md R73, 30_encoding.md R85). -/

namespace Sys2Proof.Machine

/-- An address inside a space falls at its index there (20_memory.md R73). -/
theorem indexIn_inside {size i : Nat} (base : Nat) (h : i < size) : indexIn base size (base + i) = some i := by
  rw [indexIn, if_pos (by omega), Nat.add_sub_cancel_left]

theorem apart_iff {base₁ size₁ base₂ size₂ : Nat} :
    apart base₁ size₁ base₂ size₂ = true ↔ base₁ + size₁ ≤ base₂ ∨ base₂ + size₂ ≤ base₁ := by
  rw [apart, Bool.or_eq_true, decide_eq_true_iff, decide_eq_true_iff]

theorem apart_comm (base₁ size₁ base₂ size₂ : Nat) : apart base₁ size₁ base₂ size₂ = apart base₂ size₂ base₁ size₁ :=
  Bool.or_comm _ _

/-- An address inside a space falls in no other space apart from it (20_memory.md R73). -/
theorem indexIn_apart {base₁ size₁ base₂ size₂ i : Nat} (h : apart base₁ size₁ base₂ size₂ = true) (hi : i < size₁) :
    indexIn base₂ size₂ (base₁ + i) = none := by
  have hdisjoint := apart_iff.1 h
  rw [indexIn, if_neg (by omega)]

theorem placed_iff {p : Platform} {inCap outCap : Nat} : placed p inCap outCap = true ↔
    apart p.regBase 0x8000 p.inBase inCap = true ∧ apart p.regBase 0x8000 p.outBase outCap = true ∧
    apart p.inBase inCap p.outBase outCap = true := by
  rw [placed, Bool.and_eq_true, Bool.and_eq_true, and_assoc]

/-- Settles O54: the address falls in the access's own space at its index, and in neither of the other two. -/
theorem busFormReachesAccess : Obligations.BusFormReachesAccess := by
  intro p inCap outCap a b hplaced hform hinside
  obtain ⟨hRegIn, hRegOut, hInOut⟩ := placed_iff.1 hplaced
  rw [apart_comm] at hRegIn hRegOut
  cases a with
  | readReg width o | writeReg width o v =>
    obtain ⟨rfl, hop⟩ := Option.ite_none_right_eq_some.1 hform
    cases hop
    simp only [route, indexIn_inside p.regBase hinside, Option.map_some]
  | readIn i =>
    cases hform
    simp only [route, indexIn_apart hRegIn hinside, indexIn_inside p.inBase hinside]
  | writeIn i v =>
    cases hform
    simp only [route, indexIn_apart hRegIn hinside, indexIn_inside p.inBase hinside]
    rw [BitVec.setWidth_setWidth_of_le v (by decide), BitVec.setWidth_eq]
  | readOut i =>
    rw [apart_comm] at hInOut
    cases hform
    simp only [route, indexIn_apart hRegOut hinside, indexIn_apart hInOut hinside, indexIn_inside p.outBase hinside]
  | writeOut i v => cases hform

end Sys2Proof.Machine
end

section
/-! The host program's pseudo-operations (30_encoding.md R86). -/

namespace Sys2Proof.Machine

/-! ## LOADIN -/

/-- Byte writes from index `j` on lay their bytes over IN, on an idle block with room for them (20_memory.md R65). -/
theorem foldl_writeIn {s : State} (hs : s.seq = .idle) (bs : List Byte) (j : Nat) (h : j + bs.length ≤ s.inCap.toNat) :
    ∃ m, ((List.range' j bs.length).zipWith (fun k b => .writeIn k b) bs).foldl hostAccess s = { s with inp := m } ∧
      OverlaidAt m s.inp j bs := by
  induction bs generalizing s j with
  | nil => exact ⟨s.inp, rfl, .nil _ _⟩
  | cons b bs ih =>
    rw [List.length_cons] at h
    have hwrite : hostAccess s (.writeIn j b) = { s with inp := s.inp.write j b } := by
      rw [hostAccess_writeIn_inside (by omega), State.ifIdle_of_idle hs]
    obtain ⟨m, hfold, hlaid⟩ := ih (s := { s with inp := s.inp.write j b }) hs (j + 1) (by dsimp only; omega)
    refine ⟨m, ?_, hlaid.cons⟩
    rw [List.length_cons, List.range'_succ, List.zipWith_cons_cons, List.foldl_cons, hwrite, hfold]

/-- Settles O55: the byte writes are `foldl_writeIn` from index 0 on, and the last access writes IN_LEN. -/
theorem loadInPlacesInput : Obligations.LoadInPlacesInput := by
  intro s bs hs hroom
  obtain ⟨m, hfold, hlaid⟩ := foldl_writeIn hs bs 0 (by omega)
  refine ⟨m, ?_, hlaid.overlaid⟩
  rw [scriptLoadIn, List.foldl_append, List.range_eq_range', hfold, List.foldl_cons, List.foldl_nil,
    hostAccess_writeReg_at (r := .inLen) rfl]
  exact State.ifIdle_of_idle (s := { s with inp := m }) hs _

/-! ## WAIT -/

/-- A turn of WAIT reads STATUS, and WAIT is over unless it has read BUSY = 1 (30_encoding.md R86). -/
theorem scriptTurn_wait (s : State) (rest : List ScriptOp) :
    scriptTurn (.wait :: rest) s .host
      = .next (if s.busy then .wait :: rest else rest, { s with reads := s.statusWord :: s.reads }) := by
  have hread : hostAccess s (ScriptOp.transaction .wait) = { s with reads := s.statusWord :: s.reads } :=
    hostAccess_readReg_at (r := .status) rfl (.inr rfl)
  rw [scriptTurn_host, hread, State.lastRead_cons, ScriptOp.after, s.statusWord_busy]
  cases s.busy <;> rfl

/-- While a command is pending, WAIT waits through any number of its turns (70_reset_and_hazards.md R240; log 21). -/
theorem runScript_wait_busy {s : State} (hs : s.busy = true) (rest : List ScriptOp) (k : Nat) :
    runScript (List.replicate k .host) (.wait :: rest) s
      = .next (.wait :: rest, { s with reads := List.replicate k s.statusWord ++ s.reads }) := by
  induction k generalizing s with
  | zero => rfl
  | succ k ih =>
    have hturn := scriptTurn_wait s rest
    rw [if_pos hs] at hturn
    rw [List.replicate_succ, runScript_cons hturn, ih (s := { s with reads := s.statusWord :: s.reads }) hs]
    rw [List.replicate_succ', List.append_assoc]
    rfl

/-- On an idle block WAIT ends at its first read (30_encoding.md R86). -/
theorem runScript_wait_idle {s : State} (hs : s.seq = .idle) (rest : List ScriptOp) :
    runScript [.host] (.wait :: rest) s = .next (rest, { s with reads := s.statusWord :: s.reads }) := by
  have hturn := scriptTurn_wait s rest
  rw [s.busy_eq_false_iff.2 hs, if_neg Bool.false_ne_true] at hturn
  exact runScript_cons hturn

/-- The engine's turn runs the pending command and leaves the host's program alone (60_exceptions.md R221; log 21). -/
theorem scriptTurn_engine_pending {s u : State} {w : Word} (hs : s.seq = .pending w) (hrun : runWord w s = .next u)
    (ops : List ScriptOp) : scriptTurn ops s .engine = .next (ops, u) := by
  rw [scriptTurn_engine, engineStep, hs]
  simp only [hrun, leaving]

/-! ## READOUT -/

/-- Byte reads of OUT on an idle block record its bytes, newest first, and change nothing else (20_memory.md R66). -/
theorem foldl_readOut {s : State} (hs : s.seq = .idle) (ks : List Nat) (h : ∀ k ∈ ks, k < s.outCap.toNat) :
    (ks.map .readOut).foldl hostAccess s
      = { s with reads := (ks.map fun k => (s.out.read k).setWidth 32).reverse ++ s.reads } := by
  induction ks generalizing s with
  | nil => rfl
  | cons k ks ih =>
    rw [List.map_cons, List.foldl_cons, hostAccess_readOut_idle (h k List.mem_cons_self) hs,
      ih (s := { s with reads := (s.out.read k).setWidth 32 :: s.reads }) hs
        fun j hj => h j (List.mem_cons_of_mem _ hj),
      List.map_cons, List.reverse_cons, List.append_assoc]
    rfl

/-- The first turn of READOUT reads OUT_LEN, which says how many byte reads are left (30_encoding.md R86). -/
theorem scriptTurn_readOut (s : State) (rest : List ScriptOp) :
    scriptTurn (.readOut :: rest) s .host
      = .next (((List.range s.outLen.toNat).map Access.readOut).map .access ++ rest,
          { s with reads := s.outLen :: s.reads }) := by
  have hread : hostAccess s (ScriptOp.transaction .readOut) = { s with reads := s.outLen :: s.reads } :=
    hostAccess_readReg_at (r := .outLen) rfl (.inr rfl)
  rw [scriptTurn_host, hread, State.lastRead_cons, ScriptOp.after, List.map_map]
  rfl

/-- READOUT on an idle block reads OUT_LEN and then as many bytes of OUT (30_encoding.md R86). -/
theorem runScript_readOut {s : State} (hs : s.seq = .idle) (hlen : s.outLen.toNat ≤ s.outCap.toNat)
    (rest : List ScriptOp) :
    runScript (List.replicate (s.outLen.toNat + 1) .host) (.readOut :: rest) s = .next (rest, { s with
      reads := ((bytesAt s.out 0 s.outLen.toNat).map (BitVec.setWidth 32)).reverse ++ s.outLen :: s.reads }) := by
  have hbytes := runScript_accesses ((List.range s.outLen.toNat).map .readOut) rest
    { s with reads := s.outLen :: s.reads }
  rw [List.length_map, List.length_range] at hbytes
  rw [List.replicate_succ, runScript_cons (scriptTurn_readOut s rest), hbytes,
    foldl_readOut (s := { s with reads := s.outLen :: s.reads }) hs _ fun k hk => (List.mem_range.1 hk).trans_le hlen,
    bytesAt, List.map_map]
  simp only [Nat.zero_add, Function.comp_def]

/-- Settles O60: k turns of WAIT on a pending command, its engine step, which leaves the block idle, and then WAIT and
READOUT on an idle block. -/
theorem scriptWaitAndReadOut : Obligations.ScriptWaitAndReadOut := by
  intro s rest
  refine ⟨fun w k hs => ?_, fun hs => ⟨runScript_wait_idle hs rest, fun hlen => runScript_readOut hs hlen rest⟩⟩
  have hwaits := runScript_wait_busy (s.busy_eq_true_iff.2 (ne_of_eq_of_ne hs nofun)) rest k
  obtain ⟨u, hrun, hend⟩ := runWord_atEnd w { s with reads := List.replicate k s.statusWord ++ s.reads }
  have hengine := scriptTurn_engine_pending (s := { s with reads := List.replicate k s.statusWord ++ s.reads }) hs hrun
    (.wait :: rest)
  refine ⟨hwaits, u, hrun, hend.idle, ?_⟩
  rw [runScript_append hwaits, runScript_cons hengine, runScript_wait_idle hend.idle]

end Sys2Proof.Machine
end

section
/-! Frequency collection: what `collect` counts, and what COLLECT makes of it (40_symbol_stats.md R111 to R113). -/

namespace Sys2Proof.Machine

/-- Over a list that has each of the input's symbols once, their occurrences add up to the input's length. -/
theorem sum_map_count_eq_length {l bs : List Byte} (hl : l.Nodup) (hmem : ∀ x ∈ bs, x ∈ l) :
    (l.map bs.count).sum = bs.length := by
  have hcard := Multiset.sum_count_eq_card (m := (bs : Multiset Byte)) fun x hx => List.mem_toFinset.2 (hmem x hx)
  simpa only [Multiset.coe_count, Multiset.coe_card, List.sum_toFinset _ hl] using hcard

/-- A successful `collect` counts the occurrences of every symbol (40_symbol_stats.md R111). -/
theorem collect_exact {bs : List Byte} {f : FreqTable} (h : collect bs = .ok f) (x : Byte) :
    (countOf f x).toNat = bs.count x := by
  rw [collectFrom_exact h x, countOf_emptyTable, BitVec.toNat_zero, Nat.zero_add]

/-- The counts of a successful `collect` add up to the input's length (40_symbol_stats.md R113). -/
theorem totalCount_of_collect {bs : List Byte} {f : FreqTable} (h : collect bs = .ok f) :
    totalCount f = bs.length := by
  simp only [totalCount, collect_exact h]
  exact sum_map_count_eq_length symbols_nodup fun x _ => mem_symbols x

/-- After a successful `collect` a symbol's counter is not 0 iff the symbol occurs (40_symbol_stats.md R113). -/
theorem countOf_ne_zero_iff_of_collect {bs : List Byte} {f : FreqTable} (h : collect bs = .ok f) (x : Byte) :
    countOf f x ≠ 0#32 ↔ x ∈ bs := by
  rw [← List.count_pos_iff, ← collect_exact h x, Nat.pos_iff_ne_zero, ne_eq, ne_eq, ← BitVec.toNat_inj,
    BitVec.toNat_zero]

/-- COLLECT of an input that fits ends with the collected table, TREE and CODE cleared (40_symbol_stats.md R112): the
input has fewer than 2^32 bytes, so no counter overflows. -/
theorem runCollect_of_fits {s : State} (hcap : s.inLen.toNat ≤ s.inCap.toNat) :
    ∃ f, collect s.input = .ok f ∧ runCollect s = ended { s with freq := f, tree := none, code := none } 0 := by
  obtain ⟨f, hf, -⟩ := collect_ok s.input (input_length_lt s)
  refine ⟨f, hf, ?_⟩
  simp only [runCollect, sourceTooLong_eq_false hcap, hf, Bool.false_eq_true, if_false]
  exact State.succeed_eq_ended _ 0

end Sys2Proof.Machine
end

section
/-! The settlements of 40_symbol_stats.md. -/

namespace Sys2Proof.Machine

/-- Settles O29: `runCollect_of_fits`, whose table counts IN[0 .. IN_LEN-1] by `collect_exact`. -/
theorem collectCounts : Obligations.CollectCounts := by
  intro s hcap
  obtain ⟨f, hf, hrun⟩ := runCollect_of_fits hcap
  refine ⟨f, congrArg Host.Outcome.next hrun, fun x => ?_⟩
  rw [collect_exact hf, State.input, bytesAt]
  simp only [Nat.zero_add]

/-- Settles O30: the sum and the presence of a successful count, and `collect_ok` for the absence of overflow. -/
theorem frequenciesAreConserved : Obligations.FrequenciesAreConserved := by
  refine fun bs => ⟨fun f h => ⟨totalCount_of_collect h, countOf_ne_zero_iff_of_collect h⟩, fun hlen => ?_⟩
  obtain ⟨f, hf, -⟩ := collect_ok bs (by omega)
  exact ⟨f, hf⟩

end Sys2Proof.Machine
end

section
/-! Tree construction: what `build` makes of a table, and BUILD of a state (41_tree_builder.md R122 to R126). -/

namespace Sys2Proof.Machine

variable {f : FreqTable}

/-- With no symbol present there is no node. -/
theorem build_nodes_of_present_nil (h : present f = []) : (build f).nodes = [] := by
  simp [build, leaves, h, queueFrom, mergeLoop, popMin]

/-- With one symbol present the queue starts with one element, so the loop ends with no merge (41_tree_builder.md
R125). -/
theorem build_of_present_singleton {x : Byte} (h : present f = [x]) :
    build f = ⟨0, [.leaf x ((countOf f x).setWidth 40)]⟩ := by
  simp [build, leaves, h, queueFrom, mergeLoop, popMin]

/-- A symbol is the only one present iff its counter alone is not 0 (00_scope.md R15). -/
theorem present_eq_singleton_iff {x : Byte} :
    present f = [x] ↔ countOf f x ≠ 0#32 ∧ ∀ y, y ≠ x → countOf f y = 0#32 := by
  constructor
  · intro h
    have hmem : ∀ y, countOf f y ≠ 0#32 ↔ y = x := fun y => by rw [← mem_present, h, List.mem_singleton]
    exact ⟨(hmem x).2 rfl, fun y hy => not_not.1 (mt (hmem y).1 hy)⟩
  · rintro ⟨hx, hother⟩
    refine List.perm_singleton.1 ?_
    refine (List.perm_ext_iff_of_nodup (present_nodup f) (List.nodup_singleton x)).2 fun y => ?_
    rw [mem_present, List.mem_singleton]
    exact ⟨not_imp_comm.1 (hother y), fun h => h ▸ hx⟩

/-- From index n on a built tree has Internal nodes, each the exact sum of two different earlier ones (41_tree_builder.md
R126 points 3 and 4). -/
theorem build_internal_above (hne : present f ≠ []) {k : Nat} (hn : (present f).length ≤ k) (hk : k < (build f).count) :
    ∃ fr l r a b, (build f).nodes[k]? = some (.internal fr l r) ∧ l.toNat < k ∧ r.toNat < k ∧ l ≠ r ∧
      (build f).nodes[l.toNat]? = some a ∧ (build f).nodes[r.toNat]? = some b ∧
      fr.toNat = a.freq.toNat + b.freq.toNat := by
  obtain ⟨e, -, hI⟩ := build_mergeInv f hne
  exact hI.internal k (by rwa [leaves_length]) hk

/-- The frequency of an Internal node of a built tree is its children's exact sum (41_tree_builder.md R123). -/
theorem build_internal_sum (hne : present f ≠ []) {k : Nat} {fr : NodeFreq} {l r : NodeIndex}
    (h : (build f).nodes[k]? = some (.internal fr l r)) :
    ∃ a b, (build f).nodes[l.toNat]? = some a ∧ (build f).nodes[r.toNat]? = some b ∧
      fr.toNat = a.freq.toNat + b.freq.toNat := by
  obtain ⟨hn, hk, -⟩ := build_internal hne h
  obtain ⟨fr', l', r', a, b, h', -, -, -, hab⟩ := build_internal_above hne hn hk
  cases h.symm.trans h'
  exact ⟨a, b, hab⟩

/-- An Internal node of a built tree merges the two least of the queue as it stood (41_tree_builder.md R121, R123). -/
theorem build_merges_least (hne : present f ≠ []) {k : Nat} {fr : NodeFreq} {l r : NodeIndex}
    (h : (build f).nodes[k]? = some (.internal fr l r)) :
    (build f).InQueue k l.toNat ∧ (build f).InQueue k r.toNat ∧ (build f).KeyBefore l.toNat r.toNat ∧
      ∀ j, (build f).InQueue k j → j ≠ l.toNat → j ≠ r.toNat → (build f).KeyBefore r.toNat j := by
  obtain ⟨e, -, hI⟩ := build_mergeInv f hne
  exact hI.least k fr l r h

/-- Every node of a built tree but the root has exactly one parent (41_tree_builder.md R126 point 3). -/
theorem build_existsUnique_parent (hne : present f ≠ []) {j : Nat} (hj : j < (build f).count)
    (hr : j ≠ (build f).root.toNat) : ∃! k, (build f).ChildOf j k := by
  obtain ⟨k, hk⟩ := build_parent hne hj hr
  exact ⟨k, hk, fun k' hk' => build_parent_unique hne hk' hk⟩

/-- No Leaf of a built tree is deeper than n - 1 (41_tree_builder.md R126 point 6). -/
theorem build_depth_le (hne : present f ≠ []) {p : List Bool} {x : Byte} {fr : NodeFreq}
    (h : (build f).follow (build f).root p = some (.leaf x fr)) : p.length ≤ (present f).length - 1 := by
  have hlen := follow_length hne h
  have hroot := (build_size hne).2
  have hpos := List.length_pos_iff.2 hne
  omega

/-- BUILD of a table that is not empty ends with its tree, CODE cleared (41_tree_builder.md R124). -/
theorem exec_build_of_present {s : State} (hne : present s.freq ≠ []) :
    exec .build s = .next (ended { s with tree := some (build s.freq), code := none } 0) := by
  rcases runBuild_cases s with ⟨hnil, -⟩ | ⟨-, hrun⟩
  · exact absurd hnil hne
  · exact congrArg Host.Outcome.next (hrun.trans (State.succeed_eq_ended _ 0))

end Sys2Proof.Machine
end

section
/-! The settlements of 41_tree_builder.md. -/

namespace Sys2Proof.Machine

/-- Settles O33: `exec_build_of_present`, and a lemma about the built tree for each point of R126. -/
theorem buildMakesFullTree : Obligations.BuildMakesFullTree := by
  intro s hne
  obtain ⟨hcount, hroot⟩ := build_size hne
  have hle := present_length_le s.freq
  exact ⟨build s.freq, exec_build_of_present hne, hcount, hroot, fun k x hx => (build_leaf_iff hne).2 ⟨hx, rfl⟩,
    fun k => build_internal_above hne, fun j => build_existsUnique_parent hne, build_rootFreq hne,
    fun p x fr => build_depth_le hne, by omega⟩

/-- Settles O34: `build_merges_least` and `build_internal_sum`; the tree of an empty table has no Internal node. -/
theorem buildMergesTwoLeast : Obligations.BuildMergesTwoLeast := by
  intro f k fr l r h
  have hne : present f ≠ [] := fun hnil => by simp [build_nodes_of_present_nil hnil] at h
  obtain ⟨hleft, hright, hkeys, hleast⟩ := build_merges_least hne h
  exact ⟨hleft, hright, hkeys, hleast, build_internal_sum hne h⟩

/-- Settles O35: the only symbol present is `x`, and `build_of_present_singleton` gives its tree. -/
theorem buildSingleLeaf : Obligations.BuildSingleLeaf := by
  intro s x hx hother
  have hpresent : present s.freq = [x] := present_eq_singleton_iff.2 ⟨hx, hother⟩
  have hne : present s.freq ≠ [] := hpresent ▸ List.cons_ne_nil x []
  rw [← build_of_present_singleton hpresent]
  exact exec_build_of_present hne

end Sys2Proof.Machine
end

section
/-! Code assignment: what `derive` makes of a tree, and DERIVE of a state (42_code_table.md R140 to R145). -/

namespace Sys2Proof.Machine

/-- DERIVE of a state with a tree ends with the tree's codes (42_code_table.md R142). -/
theorem exec_derive_of_tree {s : State} {t : Tree} (ht : s.tree = some t) :
    exec .derive s = .next (ended { s with code := some (derive t) } 0) := by
  rcases runDerive_cases s with ⟨hnone, -⟩ | ⟨t', ht', hrun⟩
  · cases hnone.symm.trans ht
  · cases ht'.symm.trans ht
    exact congrArg Host.Outcome.next (hrun.trans (State.succeed_eq_ended _ 0))

/-- The codes of a tree whose root is a Leaf (42_code_table.md R143). -/
theorem codeOf_derive_of_leaf_root {t : Tree} {x : Byte} {fr : NodeFreq} (h : t.node? t.root = some (.leaf x fr))
    (y : Byte) : codeOf (derive t) y = if y = x then [false] else [] := by
  simp only [derive, h, codeOf_setCode, codeOf_noCodes]

/-- Codes of at most `n` bits make a payload of at most `n` bits a symbol (43_bit_packer.md R151). -/
theorem payloadOf_length_le {c : CodeTable} {n : Nat} (h : ∀ x, (codeOf c x).length ≤ n) (bs : List Byte) :
    (payloadOf c bs).length ≤ n * bs.length := by
  induction bs with
  | nil => exact Nat.zero_le _
  | cons x bs ih =>
    rw [payloadOf_cons, List.length_append, List.length_cons, Nat.mul_succ, Nat.add_comm]
    exact Nat.add_le_add ih (h x)

variable {f : FreqTable}

/-- With two symbols or more a present symbol's code leads from the root to its Leaf (42_code_table.md R140). -/
theorem follow_code (h2 : 2 ≤ (present f).length) {x : Byte} (hx : x ∈ present f) :
    (build f).follow (build f).root (codeOf (derive (build f)) x) = some (.leaf x ((countOf f x).setWidth 40)) := by
  obtain ⟨p, hp⟩ := follow_present hx
  rwa [(derive_path h2 x).1 p _ hp]

/-- With n >= 2 symbols a present symbol's code has at most n - 1 bits, the bound on a Leaf's depth (42_code_table.md
R145). -/
theorem code_length_le_pred (h2 : 2 ≤ (present f).length) {x : Byte} (hx : x ∈ present f) :
    (codeOf (derive (build f)) x).length ≤ (present f).length - 1 :=
  build_depth_le (List.ne_nil_of_mem hx) (follow_code h2 hx)

/-- The code of a symbol that is alone has one bit (42_code_table.md R143, R145). -/
theorem code_length_of_alone (h1 : (present f).length = 1) {x : Byte} (hx : x ∈ present f) :
    (codeOf (derive (build f)) x).length = 1 := by
  obtain ⟨y, hy⟩ := List.length_eq_one_iff.1 h1
  rw [hy, List.mem_singleton] at hx
  rw [derive_single hy, if_pos hx, List.length_singleton]

/-- No code has more than 255 bits: there are at most 256 present symbols (42_code_table.md R145). -/
theorem code_length_le_255 (hne : present f ≠ []) (x : Byte) : (codeOf (derive (build f)) x).length ≤ 255 := by
  by_cases hx : x ∈ present f
  · rcases one_or_more_symbols hne with ⟨y, hy⟩ | h2
    · have := code_length_of_alone (by rw [hy, List.length_singleton]) hx
      omega
    · have := code_length_le_pred h2 hx
      have := present_length_le f
      omega
  · rw [not_not.1 (mt (code_ne_nil_iff hne x).1 hx)]
    exact Nat.zero_le _

end Sys2Proof.Machine
end

section
/-! The settlements of 42_code_table.md. -/

namespace Sys2Proof.Machine

/-- Settles O36: `exec_derive_of_tree`; a present symbol's code is a path to its Leaf by `follow_code`, and the only one
by `derive_path`. -/
theorem deriveRecordsPaths : Obligations.DeriveRecordsPaths := by
  intro s f ht h2
  exact ⟨derive (build f), exec_derive_of_tree ht, fun x => follow_code h2,
    fun p x fr => (derive_path h2 x).1 p fr, fun x => (derive_path h2 x).2⟩

/-- Settles O37: `exec_derive_of_tree`, and `codeOf_derive_of_leaf_root` for the symbol and for every other. -/
theorem deriveSingleLeaf : Obligations.DeriveSingleLeaf := by
  intro s t x fr ht hroot
  have hcode := codeOf_derive_of_leaf_root hroot
  exact ⟨derive t, exec_derive_of_tree ht, by rw [hcode, if_pos rfl], fun y hy => by rw [hcode, if_neg hy]⟩

/-- Settles O38: `code_ne_nil_iff`, and a code that is a prefix of another is the same symbol's by `code_prefix_eq`. -/
theorem codesArePrefixFree : Obligations.CodesArePrefixFree := by
  intro f hne
  simp only [← mem_present]
  exact ⟨code_ne_nil_iff hne, fun x y hx hy hxy hprefix => hxy (code_prefix_eq hne hx hy hprefix)⟩

/-- Settles O39: a present symbol's code is not empty, and the bounds are `code_length_le_255`, `code_length_of_alone`
and `code_length_le_pred`; its depth is that of the Leaf `follow_code` finds. -/
theorem codeLengthsBounded : Obligations.CodeLengthsBounded := by
  refine fun f hne => ⟨fun x hcount => ?_, payloadOf_length_le (code_length_le_255 hne)⟩
  have hx : x ∈ present f := (mem_present f x).2 hcount
  have hpos := List.length_pos_iff.2 ((code_ne_nil_iff hne x).2 hx)
  exact ⟨hpos, code_length_le_255 hne x, fun h1 => code_length_of_alone h1 hx,
    fun h2 => ⟨code_length_le_pred h2 hx, _, _, follow_code h2 hx, rfl⟩⟩

end Sys2Proof.Machine
end

section
/-! Bit packing: `pack_into` at a symbol without a code, and PACK of a state with a code table (43_bit_packer.md R152,
R153). -/

namespace Sys2Proof.Machine

/-- At the first symbol without a code `pack_into` raises UncodedSymbol, unless the whole bytes of the codes before it
met a full sink (43_bit_packer.md R152). -/
theorem packInto_uncoded {cap : Nat} {c : CodeTable} {pre post : List Byte} {x : Byte} (k : Sink) (hk : k.j ≤ cap)
    (hpre : ∀ y ∈ pre, codeOf c y ≠ []) (hx : codeOf c x = []) :
    packInto cap c k (pre ++ x :: post)
      = .error (if k.j + (payloadOf c pre).length / 8 ≤ cap then .uncodedSymbol else .ioFailure .sinkFull) := by
  obtain ⟨htakes, hfull⟩ := packSymbols_spec pre (packerStart_holds cap k hk) hpre
  rw [List.nil_append] at htakes hfull
  rw [packInto, packSymbols_append]
  split
  case isTrue hfits =>
    obtain ⟨p, hp, -⟩ := htakes hfits
    rw [hp]
    simp only [Except.bind, packSymbols, hx, if_true]
  case isFalse hshort =>
    rw [hfull (Nat.lt_of_not_le hshort)]
    rfl

section
variable {s : State} {c : CodeTable} (hc : s.code = some c) (hcap : s.inLen.toNat ≤ s.inCap.toNat)
include hc hcap

/-- The success of `pack_into` is PACK's (43_bit_packer.md R153). -/
theorem exec_pack_of_packInto_ok {m : Memory} {n : Nat} {b : BitCount}
    (h : packInto s.outCap.toNat c ⟨s.out, 0⟩ s.input = .ok (⟨m, n⟩, b)) :
    exec .pack s = .next (ended { s with out := m, bitCount := b } n) := by
  have hrun : runPack s = State.succeed { s with out := m, bitCount := b } (BitVec.ofNat 32 n) := by
    simp only [runPack, hc, sourceTooLong_eq_false hcap, h, Bool.false_eq_true, if_false]
  exact congrArg Host.Outcome.next (hrun.trans (State.succeed_eq_ended _ n))

/-- The error of `pack_into` is PACK's, with BIT_COUNT 0 and OUT redrawn (43_bit_packer.md R153, 60_exceptions.md
R207). -/
theorem exec_pack_of_packInto_error {e : Raise} (h : packInto s.outCap.toNat c ⟨s.out, 0⟩ s.input = .error e) :
    exec .pack s = .next (failed
      { s with out := Memory.redraw s.draws, draws := s.draws + 1, bitCount := 0#64 } e.errorCode) := by
  have hrun : runPack s = State.fail { s.redrawOut with bitCount := 0#64 } e := by
    simp only [runPack, hc, sourceTooLong_eq_false hcap, h, Bool.false_eq_true, if_false]
  exact congrArg Host.Outcome.next (hrun.trans (State.fail_eq_failed _ e))

end

end Sys2Proof.Machine
end

section
/-! The settlements of 43_bit_packer.md. -/

namespace Sys2Proof.Machine

/-- Settles O40: `packInto_spec` from OUT[0] on, and PACK ends as `pack_into` does. -/
theorem packWritesPayload : Obligations.PackWritesPayload := by
  intro s c hc hcap hcoded
  obtain ⟨hwrites, hfull⟩ := packInto_spec (c := c) ⟨s.out, 0⟩ (Nat.zero_le s.outCap.toNat) s.input hcoded
  simp only [Nat.zero_add] at hwrites hfull
  constructor
  · intro hfits
    obtain ⟨m, hpack, hread⟩ := hwrites hfits
    exact ⟨m, exec_pack_of_packInto_ok hc hcap hpack, OverlaidAt.overlaid hread⟩
  · intro hshort
    exact exec_pack_of_packInto_error hc hcap (hfull hshort)

/-- Settles O41: `packInto_uncoded` from OUT[0] on, and PACK fails with the code of what `pack_into` raises. -/
theorem packUncodedSymbol : Obligations.PackUncodedSymbol := by
  intro s c pre post x hc hcap hinput hpre hx
  have hpack := packInto_uncoded (post := post) ⟨s.out, 0⟩ (Nat.zero_le s.outCap.toNat) hpre hx
  rw [← hinput, Nat.zero_add] at hpack
  rw [exec_pack_of_packInto_error hc hcap hpack, apply_ite Raise.errorCode]
  rfl

end Sys2Proof.Machine
end

section
/-! Bit reading: `walk_decode` at a Leaf root, and UNPACK of a state with a tree (44_bit_reader.md R161 to R164). -/

namespace Sys2Proof.Machine

/-- A payload is `k` 0 bits iff it has `k` bits and each of them is 0 (44_bit_reader.md R161). -/
theorem payloadBits_eq_replicate_false_iff {m : Memory} {p n k : Nat} :
    payloadBits m p n = List.replicate k false ↔ n = k ∧ ∀ i < n, payloadBit m p i = false := by
  rw [List.eq_replicate_iff, payloadBits_length, payloadBits, List.forall_mem_map]
  simp only [List.mem_range]

theorem Tree.rootFreq_of_leaf_root {t : Tree} {x : Byte} {fr : NodeFreq} (hr : t.node? t.root = some (.leaf x fr)) :
    t.rootFreq = fr.toNat := by
  rw [Tree.rootFreq, hr]
  rfl

/-- `walk_decode` at a Leaf root, with room for a symbol per bit: as many 0 bits as the Leaf's frequency emit its symbol
for each, and any other bits are MalformedStream, for a 1 bit or for their number (44_bit_reader.md R162, R164). -/
theorem walkDecode_leafRoot {t : Tree} {x : Byte} {fr : NodeFreq} (hr : t.node? t.root = some (.leaf x fr)) {cap : Nat}
    (m0 : Memory) {bs : List Bool} (hroom : bs.length ≤ cap) :
    (bs = List.replicate fr.toNat false →
      ∃ m, walkDecode t cap ⟨m0, 0⟩ bs = .ok ⟨m, fr.toNat⟩ ∧ Overlaid m m0 (List.replicate fr.toNat x)) ∧
    (bs ≠ List.replicate fr.toNat false → ∃ c, walkDecode t cap ⟨m0, 0⟩ bs = .error (.malformedStream c)) := by
  obtain ⟨hzeros, hone⟩ := walkBits_leafRoot hr cap bs ⟨t.root, ⟨m0, 0⟩, 0⟩ rfl (Nat.zero_le cap)
  simp only [Nat.zero_add] at hzeros hone
  by_cases hall : ∀ b ∈ bs, b = false
  case pos =>
    obtain ⟨m, hwalk, hread⟩ := (hzeros hall).1 hroom
    rw [ne_eq, List.eq_replicate_iff, and_iff_left hall, walkDecode_of_ok hwalk, walkEnd, Tree.rootFreq_of_leaf_root hr]
    constructor
    · intro hlen
      rw [hlen] at hread
      exact ⟨m, by simp [hlen], hread.overlaid⟩
    · intro hlen
      exact ⟨.symbolCountMismatch, by simp [hlen]⟩
  case neg =>
    have herror := walkDecode_of_error (hone (by simpa using hall) hroom)
    exact ⟨fun h => absurd (List.eq_replicate_iff.1 h).2 hall, fun _ => ⟨_, herror⟩⟩

section
variable {s : State} {t : Tree} (ht : s.tree = some t) (hcap : s.inLen.toNat ≤ s.inCap.toNat)
include ht hcap

/-- A payload shorter than BIT_COUNT ends UNPACK before the walk (44_bit_reader.md R163). -/
theorem exec_unpack_of_payload_short (hshort : s.inLen.toNat < ceil8 s.bitCount.toNat) :
    exec .unpack s = .next (failed s .malformedStream) := by
  have hrun : runUnpack s = s.fail (.malformedStream .payloadShort) := by
    simp only [runUnpack, ht, sourceTooLong_eq_false hcap, hshort, Bool.false_eq_true, if_false, if_true]
  exact congrArg Host.Outcome.next (hrun.trans (State.fail_eq_failed _ _))

variable (hlen : ceil8 s.bitCount.toNat ≤ s.inLen.toNat)
include hlen

/-- The success of `walk_decode` is UNPACK's (44_bit_reader.md R163). -/
theorem exec_unpack_of_walk_ok {m : Memory} {n : Nat}
    (h : walkDecode t s.outCap.toNat ⟨s.out, 0⟩ (payloadBits s.inp 0 s.bitCount.toNat) = .ok ⟨m, n⟩) :
    exec .unpack s = .next (ended { s with out := m } n) := by
  have hrun : runUnpack s = State.succeed { s with out := m } (BitVec.ofNat 32 n) := by
    simp only [runUnpack, ht, sourceTooLong_eq_false hcap, Nat.not_lt.2 hlen, h, Bool.false_eq_true, if_false]
  exact congrArg Host.Outcome.next (hrun.trans (State.succeed_eq_ended _ n))

/-- The error of `walk_decode` is UNPACK's, with OUT redrawn (44_bit_reader.md R163, 60_exceptions.md R207). -/
theorem exec_unpack_of_walk_error {e : Raise}
    (h : walkDecode t s.outCap.toNat ⟨s.out, 0⟩ (payloadBits s.inp 0 s.bitCount.toNat) = .error e) :
    exec .unpack s = .next (failed { s with out := Memory.redraw s.draws, draws := s.draws + 1 } e.errorCode) := by
  have hrun : runUnpack s = s.redrawOut.fail e := by
    simp only [runUnpack, ht, sourceTooLong_eq_false hcap, Nat.not_lt.2 hlen, h, Bool.false_eq_true, if_false]
  exact congrArg Host.Outcome.next (hrun.trans (State.fail_eq_failed _ e))

end

end Sys2Proof.Machine
end

section
/-! The settlements of 44_bit_reader.md. -/

namespace Sys2Proof.Machine

/-- Settles O42: `walkDecode_spells` from OUT[0] on, and UNPACK ends as the walk does. -/
theorem unpackWritesSymbols : Obligations.UnpackWritesSymbols := by
  intro s f xs ht hne hcap hlen hspells
  obtain ⟨hwrites, hfull⟩ := walkDecode_spells hne s.outCap.toNat s.out hspells
  constructor
  · intro hfits
    obtain ⟨m, hwalk, hread⟩ := hwrites hfits
    exact ⟨m, exec_unpack_of_walk_ok ht hcap hlen hwalk, hread⟩
  · intro hshort
    exact exec_unpack_of_walk_error ht hcap hlen (hfull hshort)

/-- Settles O43: the walk fails by `walkDecode_rejects` when OUT has room for a symbol per bit, by `walkDecode_begins` in
any OUT, and UNPACK fails with its code; a short payload fails before the walk. -/
theorem unpackRejectsTheRest : Obligations.UnpackRejectsTheRest := by
  intro s f ht hne hcap
  refine ⟨fun hlen hroom hno => ?_, fun ys p hlen hbegins hbad => ?_, exec_unpack_of_payload_short ht hcap⟩
  · have hbits := (payloadBits_length s.inp 0 s.bitCount.toNat).trans_le hroom
    obtain ⟨e, hwalk, hcode⟩ := walkDecode_rejects hne s.outCap.toNat s.out hbits hno
    rw [exec_unpack_of_walk_error ht hcap hlen hwalk, hcode]
  · obtain ⟨e, hwalk, hcode⟩ := walkDecode_begins hne s.outCap.toNat s.out hbegins hbad
    rw [exec_unpack_of_walk_error ht hcap hlen hwalk, hcode]

/-- Settles O44: `walkDecode_leafRoot`, whose bits are f 0 bits iff BIT_COUNT = f and each is 0. -/
theorem unpackLeafRoot : Obligations.UnpackLeafRoot := by
  intro s x fr ht hcap hlen hroom
  have hbits := (payloadBits_length s.inp 0 s.bitCount.toNat).trans_le hroom
  obtain ⟨hzeros, hother⟩ := walkDecode_leafRoot (t := ⟨0, [.leaf x fr]⟩) rfl s.out hbits
  rw [← payloadBits_eq_replicate_false_iff]
  constructor
  · intro h
    obtain ⟨m, hwalk, hread⟩ := hzeros h
    exact ⟨m, exec_unpack_of_walk_ok ht hcap hlen hwalk, hread⟩
  · intro h
    obtain ⟨c, hwalk⟩ := hother h
    exact exec_unpack_of_walk_error ht hcap hlen hwalk

end Sys2Proof.Machine
end

section
/-! What `collect` counts of an input, its tree's codes and the bit count of its header (45_orchestrator.md R181). -/

namespace Sys2Proof.Machine

variable {bs : List Byte} {f : FreqTable}

/-- The table that counts an input's symbols is the one `collect` makes of it (40_symbol_stats.md R111). -/
theorem collect_eq_of_counts (hlen : bs.length < 2 ^ 32) (h : ∀ x, (countOf f x).toNat = bs.count x) :
    collect bs = .ok f := by
  obtain ⟨g, hg, hcount⟩ := collect_ok bs hlen
  rw [hg, FreqTable.ext_countOf fun x => BitVec.eq_of_toNat_eq ((hcount x).trans (h x).symm)]

/-- After a successful `collect` the present symbols are those that occur (40_symbol_stats.md R113). -/
theorem mem_present_of_collect (h : collect bs = .ok f) (x : Byte) : x ∈ present f ↔ x ∈ bs :=
  (mem_present f x).trans (countOf_ne_zero_iff_of_collect h x)

theorem present_ne_nil_of_collect (h : collect bs = .ok f) (hbs : bs ≠ []) : present f ≠ [] := by
  obtain ⟨x, hx⟩ := List.exists_mem_of_ne_nil bs hbs
  exact List.ne_nil_of_mem ((mem_present_of_collect h x).2 hx)

/-- Every symbol of a collected input has a code in the tree of its table (42_code_table.md R144). -/
theorem code_ne_nil_of_collect (h : collect bs = .ok f) {x : Byte} (hx : x ∈ bs) :
    codeOf (derive (build f)) x ≠ [] :=
  (code_ne_nil_iff (present_ne_nil_of_collect h (List.ne_nil_of_mem hx)) x).2 ((mem_present_of_collect h x).2 hx)

/-- Summing a weight over an input is summing it over the symbols, each as often as it occurs. -/
theorem sum_symbols_count_mul (bs : List Byte) (g : Byte → Nat) :
    (symbols.map fun x => bs.count x * g x).sum = (bs.map g).sum := by
  rw [Finset.sum_list_map_count bs g, ← List.sum_toFinset _ symbols_nodup]
  refine (Finset.sum_subset (fun x _ => List.mem_toFinset.2 (mem_symbols x)) fun x _ hx => ?_).symm
  rw [List.count_eq_zero.2 (mt List.mem_toFinset.2 hx), Nat.zero_mul]

/-- The bit count that the header announces is the payload's (45_orchestrator.md R181). -/
theorem headerBitCount_of_collect (h : collect bs = .ok f) (c : CodeTable) :
    headerBitCount f c = (payloadOf c bs).length := by
  simp only [headerBitCount, collect_exact h, sum_symbols_count_mul, payloadOf, List.length_flatMap]

/-- A table without symbols is the empty input's (45_orchestrator.md R187). -/
theorem eq_nil_of_collect (h : collect bs = .ok f) (hnil : present f = []) : bs = [] :=
  not_not.1 fun hbs => present_ne_nil_of_collect h hbs hnil

/-- The payload's bit count fits the header's eight bytes (45_orchestrator.md R181). -/
theorem payloadOf_length_lt (h : collect bs = .ok f) (hlen : bs.length < 2 ^ 32) :
    (payloadOf (derive (build f)) bs).length < 2 ^ 64 := by
  by_cases hne : present f = []
  · rw [eq_nil_of_collect h hne]
    exact Nat.two_pow_pos 64
  · have hle := payloadOf_length_le (code_length_le_255 hne) bs
    omega

theorem payloadSpells_of_collect (h : collect bs = .ok f) : PayloadSpells f (payloadOf (derive (build f)) bs) bs :=
  ⟨fun x => (mem_present_of_collect h x).2, rfl, (totalCount_of_collect h).symm⟩

end Sys2Proof.Machine
end

section
/-! Reading an EncodedStream back from a byte space (45_orchestrator.md R183, R185). -/

namespace Sys2Proof.Machine

/-- The space holds the bytes `bs` from index `a` on. -/
def Memory.Holds (m : Memory) (a : Nat) (bs : List Byte) : Prop := ∀ k b, bs[k]? = some b → m.read (a + k) = b

theorem Overlaid.holds {m old : Memory} {bs : List Byte} (h : Overlaid m old bs) : m.Holds 0 bs := by
  intro k b hb
  rw [Nat.zero_add, h k, hb, Option.getD_some]

/-- Another space with the same first bytes holds them too. -/
theorem Memory.Holds.congr {m m' : Memory} {bs : List Byte} (h : m.Holds 0 bs)
    (hread : ∀ k < bs.length, m'.read k = m.read k) : m'.Holds 0 bs := by
  intro k b hb
  obtain ⟨hk, -⟩ := List.getElem?_eq_some_iff.1 hb
  rw [Nat.zero_add, hread k hk, ← h k b hb, Nat.zero_add]

theorem Memory.holds_append_iff {m : Memory} {a : Nat} {xs ys : List Byte} :
    m.Holds a (xs ++ ys) ↔ m.Holds a xs ∧ m.Holds (a + xs.length) ys := by
  constructor
  · intro h
    refine ⟨fun k b hb => h k b ?_, fun k b hb => ?_⟩
    · exact List.getElem?_append_left (List.getElem?_eq_some_iff.1 hb).1 ▸ hb
    · rw [Nat.add_assoc]
      exact h (xs.length + k) b (by rwa [List.getElem?_append_right (by omega), Nat.add_sub_cancel_left])
  · rintro ⟨hx, hy⟩ k b hb
    by_cases hk : k < xs.length
    · exact hx k b (List.getElem?_append_left hk ▸ hb)
    · rw [List.getElem?_append_right (by omega)] at hb
      have := hy _ b hb
      rwa [Nat.add_assoc, Nat.add_sub_of_le (by omega)] at this

theorem Memory.holds_replicate_iff {m : Memory} {a n : Nat} {b : Byte} :
    m.Holds a (List.replicate n b) ↔ ∀ k < n, m.read (a + k) = b := by
  simp only [Memory.Holds, List.getElem?_replicate, Option.ite_none_right_eq_some, Option.some.injEq, and_imp]
  exact ⟨fun h k hk => h k b hk rfl, fun h k _ hk hb => hb ▸ h k hk⟩

/-- A field of `n` little-endian bytes is read back (20_memory.md R67, R68). -/
theorem Memory.Holds.memRead_eq {m : Memory} {a n v : Nat} (h : m.Holds a (bytesLE n v)) (hv : v < 2 ^ (8 * n)) :
    memRead m a n = v := by
  rw [memRead_bytesLE n a v fun k hk => h k _ ?_, Nat.mod_eq_of_lt hv]
  rw [bytesLE, List.getElem?_map, List.getElem?_range hk, Option.map_some]

/-- The payload's bytes give its bits back (30_encoding.md R94, 44_bit_reader.md R161). -/
theorem Memory.Holds.payloadBits_eq {m : Memory} {a : Nat} {bits : List Bool} (h : m.Holds a (payloadBytes bits)) :
    payloadBits m a bits.length = bits := by
  refine List.ext_getElem (payloadBits_length m a bits.length) fun i hi hi' => ?_
  have hbyte : i / 8 < ceil8 bits.length := by
    have := le_eight_mul_ceil8 bits.length
    omega
  have hread := h (i / 8) _ (by rw [payloadBytes_getElem?, if_pos hbyte])
  simp only [payloadBits, List.getElem_map, List.getElem_range, payloadBit, hread]
  rw [payloadByte_getLsbD _ _ _ (by omega), show 8 * (i / 8) + (7 - (7 - i % 8)) = i by omega,
    List.getD_eq_getElem _ _ hi']

theorem bytesLE_length (n v : Nat) : (bytesLE n v).length = n := by rw [bytesLE, List.length_map, List.length_range]

theorem entryBytes_length (f : FreqTable) (x : Byte) : (entryBytes f x).length = 5 := by
  rw [entryBytes, List.length_cons, bytesLE_length]

theorem entries_length (f : FreqTable) (l : List Byte) : (l.flatMap (entryBytes f)).length = 5 * l.length := by
  simp only [List.length_flatMap, entryBytes_length, List.map_const', List.sum_replicate, smul_eq_mul, Nat.mul_comm]

/-- The bytes of the `k`th of some entries are five bytes from `5 * k` on (30_encoding.md R92). -/
theorem Memory.Holds.entry {m : Memory} {f : FreqTable} {l : List Byte} {a k : Nat} {x : Byte}
    (h : m.Holds a (l.flatMap (entryBytes f))) (hk : l[k]? = some x) : m.Holds (a + 5 * k) (entryBytes f x) := by
  induction l generalizing a k with
  | nil => simp at hk
  | cons y l ih =>
    rw [List.flatMap_cons, Memory.holds_append_iff, entryBytes_length] at h
    obtain ⟨hfirst, hrest⟩ := h
    cases k with
    | zero => exact Option.some.inj hk ▸ hfirst
    | succ k =>
      rw [show a + 5 * (k + 1) = a + 5 + 5 * k by omega]
      exact ih hrest hk

/-- An entry is read back (30_encoding.md R92, 45_orchestrator.md R183). -/
theorem Memory.Holds.entry_eq {m : Memory} {f : FreqTable} {a : Nat} {x : Byte} (h : m.Holds a (entryBytes f x)) :
    m.read a = x ∧ memRead m (a + 1) 4 = (countOf f x).toNat := by
  rw [entryBytes, ← List.singleton_append, Memory.holds_append_iff] at h
  obtain ⟨hsym, hfreq⟩ := h
  exact ⟨hsym 0 x rfl, hfreq.memRead_eq (countOf f x).isLt⟩

theorem headerBytes_length (f : FreqTable) (n : Nat) : (headerBytes f n).length = 12 + 5 * (present f).length := by
  rw [headerBytes, List.length_append, List.length_append, entries_length, bytesLE_length, bytesLE_length]
  omega

theorem streamOf_length (f : FreqTable) (c : CodeTable) (bs : List Byte) :
    (streamOf f c bs).length = 12 + 5 * (present f).length + ceil8 (payloadOf c bs).length := by
  rw [streamOf_eq, List.length_append, headerBytes_length, payloadBytes_length]

/-- Of a space that holds a stream's header, `parse` reads the fields the header was made of (45_orchestrator.md R183,
R185 point 1). -/
theorem Memory.Holds.header_fields {m : Memory} {f : FreqTable} {n : Nat} (h : m.Holds 0 (headerBytes f n))
    (hn : n < 2 ^ 64) :
    memRead m 0 4 = (present f).length ∧ memRead m (4 + 5 * (present f).length) 8 = n ∧
      ∀ k x, (present f)[k]? = some x → m.read (4 + 5 * k) = x ∧ memRead m (5 + 5 * k) 4 = (countOf f x).toNat := by
  rw [headerBytes, Memory.holds_append_iff, Memory.holds_append_iff, List.length_append, entries_length,
    bytesLE_length, Nat.zero_add, Nat.zero_add] at h
  obtain ⟨⟨hcount, hentries⟩, hbits⟩ := h
  have hlen := present_length_le f
  refine ⟨hcount.memRead_eq (by omega), hbits.memRead_eq hn, fun k x hk => ?_⟩
  obtain ⟨hsym, hfreq⟩ := (hentries.entry hk).entry_eq
  exact ⟨hsym, by rwa [show 5 + 5 * k = 4 + 5 * k + 1 by omega]⟩

section
variable {m : Memory} {f : FreqTable} {c : CodeTable} {bs : List Byte} (h : m.Holds 0 (streamOf f c bs))
  (hn : (payloadOf c bs).length < 2 ^ 64)
include h hn

/-- The header's fields of a space that holds a stream, and its payload's bits (45_orchestrator.md R185 points 1
and 3). -/
theorem Memory.Holds.stream_fields :
    memRead m 0 4 = (present f).length ∧
      memRead m (4 + 5 * (present f).length) 8 = (payloadOf c bs).length ∧
      (∀ k x, (present f)[k]? = some x → m.read (4 + 5 * k) = x ∧ memRead m (5 + 5 * k) 4 = (countOf f x).toNat) ∧
      payloadBits m (12 + 5 * (present f).length) (payloadOf c bs).length = payloadOf c bs := by
  rw [streamOf_eq, Memory.holds_append_iff, headerBytes_length, Nat.zero_add] at h
  obtain ⟨hheader, hpayload⟩ := h
  obtain ⟨hcount, hbits, hentries⟩ := hheader.header_fields hn
  exact ⟨hcount, hbits, hentries, hpayload.payloadBits_eq⟩

/-- A stream, one without entries having no payload, has a sound header (30_encoding.md R96). -/
theorem Memory.Holds.wellFormedHeader (hempty : present f = [] → bs = []) :
    WellFormedHeader m (streamOf f c bs).length := by
  obtain ⟨hcount, hbits, hentries, -⟩ := h.stream_fields hn
  rw [streamOf_length]
  have hle := present_length_le f
  refine ⟨by omega, by omega, by omega, fun j k hjk hk => ?_, fun k hk => ?_, fun hnone => ?_, by rw [hcount, hbits]⟩
  · rw [hcount] at hk
    rw [(hentries j _ (List.getElem?_eq_getElem (by omega))).1, (hentries k _ (List.getElem?_eq_getElem hk)).1, ne_eq,
      (present_nodup f).getElem_inj_iff]
    omega
  · rw [hcount] at hk
    rw [(hentries k _ (List.getElem?_eq_getElem hk)).2]
    intro hzero
    exact (mem_present f _).1 (List.getElem_mem hk) (BitVec.eq_of_toNat_eq hzero)
  · rw [hcount] at hnone
    rw [hnone, hempty (List.length_eq_zero_iff.1 hnone)] at hbits
    exact hbits

/-- The table of a stream's entries is the one it was made of (45_orchestrator.md R185 point 1). -/
theorem Memory.Holds.isStreamTable : IsStreamTable m f := by
  obtain ⟨hcount, -, hentries, -⟩ := h.stream_fields hn
  rw [IsStreamTable, hcount]
  constructor
  · intro k hk
    obtain ⟨hsym, hfreq⟩ := hentries k _ (List.getElem?_eq_getElem hk)
    rw [hsym, hfreq]
  · intro x hx
    by_contra hpresent
    obtain ⟨k, hk⟩ := List.mem_iff_getElem?.1 ((mem_present f x).2 hpresent)
    obtain ⟨hlt, -⟩ := List.getElem?_eq_some_iff.1 hk
    exact hx k hlt (hentries k x hk).1

end

end Sys2Proof.Machine
end

section
/-! What ENCODE does with each kind of input (45_orchestrator.md R181, R182, R187). -/

namespace Sys2Proof.Machine

theorem sourceTooLong_eq_true {s : State} (h : s.inCap.toNat < s.inLen.toNat) : s.sourceTooLong = true :=
  decide_eq_true h

/-- An input longer than IN ends ENCODE before stage 1 (60_exceptions.md R206). -/
theorem runEncode_of_too_long {s : State} (hlong : s.inCap.toNat < s.inLen.toNat) :
    runEncode s = failed s .ioFailure := by
  rw [runEncode, if_pos (sourceTooLong_eq_true hlong)]
  exact State.fail_eq_failed s _

/-- After stage 3 FREQ, TREE and CODE are the input's, and BIT_COUNT is still 0 (45_orchestrator.md R182). -/
theorem encodeStage3_eq (s : State) (f : FreqTable) :
    encodeStage3 s f =
      { s with freq := f, tree := some (build f), code := some (derive (build f)), bitCount := 0#64 } := by
  simp only [encodeStage3, encodeStage1, State.clearWorking, State.clearTables, State.clearFreq]

/-- The stream's success is that of ENCODE's stages 4 and 5 (45_orchestrator.md R182). -/
theorem encodeStaged_of_ok {u : State} {c : CodeTable} {bs : List Byte} {m : Memory} {n : Nat}
    (h : emitStream u.outCap.toNat u.freq c ⟨u.out, 0⟩ bs = .ok ⟨m, n⟩) :
    encodeStaged u c bs = ended { u with out := m, bitCount := BitVec.ofNat 64 (headerBitCount u.freq c) } n := by
  simp only [encodeStaged, h]
  exact State.succeed_eq_ended _ n

/-- The stream's error is that of ENCODE's stages 4 and 5, with OUT redrawn (60_exceptions.md R207). -/
theorem encodeStaged_of_error {u : State} {c : CodeTable} {bs : List Byte} {e : Raise}
    (h : emitStream u.outCap.toNat u.freq c ⟨u.out, 0⟩ bs = .error e) :
    encodeStaged u c bs = failed u.redrawOut e.errorCode := by
  simp only [encodeStaged, h]
  exact State.fail_eq_failed _ e

section
variable {s : State} {f : FreqTable} (hcap : s.inLen.toNat ≤ s.inCap.toNat) (hf : collect s.input = .ok f)
  (hne : present f ≠ [])
include hcap hf hne

/-- A collected table with symbols leads ENCODE to the header and the packing, with FREQ, TREE and CODE staged
(45_orchestrator.md R182). -/
theorem runEncode_emits : runEncode s = encodeStaged (encodeStage3 s f) (derive (build f)) s.input := by
  simp only [runEncode, sourceTooLong_eq_false hcap, hf, Bool.false_eq_true, if_false, encodeCollected,
    mt List.isEmpty_iff.1 hne]
  rfl

/-- A stream that fits is written from OUT[0] on, and every other byte of OUT stays (45_orchestrator.md R182). -/
theorem runEncode_of_fits (hfits : (streamOf f (derive (build f)) s.input).length ≤ s.outCap.toNat) :
    ∃ m, runEncode s = ended
        { encodeStage3 s f with
          out := m, bitCount := BitVec.ofNat 64 (payloadOf (derive (build f)) s.input).length }
        (streamOf f (derive (build f)) s.input).length ∧
      Overlaid m s.out (streamOf f (derive (build f)) s.input) := by
  have hbits := headerBitCount_of_collect hf (derive (build f))
  obtain ⟨hwrites, -⟩ := emitStream_spec ⟨s.out, 0⟩ (Nat.zero_le s.outCap.toNat) hbits
    fun x => code_ne_nil_of_collect hf
  rw [Nat.zero_add] at hwrites
  obtain ⟨m, hemit, hread⟩ := hwrites hfits
  rw [runEncode_emits hcap hf hne, encodeStage3_eq, ← hbits]
  exact ⟨m, encodeStaged_of_ok hemit, OverlaidAt.overlaid hread⟩

/-- A stream that does not fit is IoFailure, with the tables as staged and OUT redrawn (45_orchestrator.md R182,
60_exceptions.md R207). -/
theorem runEncode_of_full (hshort : s.outCap.toNat < (streamOf f (derive (build f)) s.input).length) :
    runEncode s = failed (encodeStage3 s f).redrawOut .ioFailure := by
  obtain ⟨-, hfull⟩ := emitStream_spec ⟨s.out, 0⟩ (Nat.zero_le s.outCap.toNat)
    (headerBitCount_of_collect hf (derive (build f))) fun x => code_ne_nil_of_collect hf
  rw [Nat.zero_add] at hfull
  rw [runEncode_emits hcap hf hne, encodeStage3_eq]
  exact encodeStaged_of_error (e := .ioFailure .sinkFull) (hfull hshort)

end

theorem input_eq_nil_iff {s : State} : s.input = [] ↔ s.inLen.toNat = 0 := by
  rw [← List.length_eq_zero_iff, input_length]

section
variable {s : State} (hcap : s.inLen.toNat ≤ s.inCap.toNat) (hzero : s.inLen.toNat = 0)
include hcap hzero

/-- No input leads ENCODE to the empty stream, with the tables cleared (45_orchestrator.md R182, R187). -/
theorem runEncode_emits_empty : runEncode s = encodeEmpty s.clearWorking := by
  have hf : collect s.input = .ok emptyTable := by rw [input_eq_nil_iff.2 hzero]; rfl
  have hnil : (present emptyTable).isEmpty = true := List.isEmpty_iff.2 present_emptyTable
  simp only [runEncode, sourceTooLong_eq_false hcap, hf, Bool.false_eq_true, if_false, encodeCollected, hnil, if_true]
  rfl

/-- ENCODE of no input writes twelve zero bytes (45_orchestrator.md R187). -/
theorem runEncode_empty_of_fits (hfits : 12 ≤ s.outCap.toNat) :
    ∃ m, runEncode s = ended { s.clearWorking with out := m } 12 ∧ Overlaid m s.out (List.replicate 12 0#8) := by
  obtain ⟨m, hemit, hread⟩ := emitBytes_ok (List.replicate 12 0#8) (k := ⟨s.out, 0⟩) (cap := s.outCap.toNat)
    (by simpa using hfits)
  refine ⟨m, ?_, OverlaidAt.overlaid hread⟩
  rw [← emitEmptyHeader_eq, List.length_replicate, Nat.zero_add] at hemit
  rw [runEncode_emits_empty hcap hzero]
  simp only [encodeEmpty, State.clearWorking_outCap, State.clearWorking_out, hemit]
  exact State.succeed_eq_ended _ 12

/-- ENCODE of no input into an OUT of fewer than twelve bytes is IoFailure (60_exceptions.md R207). -/
theorem runEncode_empty_of_full (hshort : s.outCap.toNat < 12) :
    runEncode s = failed s.clearWorking.redrawOut .ioFailure := by
  have hemit := emitBytes_full (List.replicate 12 0#8) (k := ⟨s.out, 0⟩) (Nat.zero_le s.outCap.toNat)
    (by simpa using hshort)
  rw [← emitEmptyHeader_eq] at hemit
  rw [runEncode_emits_empty hcap hzero]
  simp only [encodeEmpty, State.clearWorking_outCap, State.clearWorking_out, hemit]
  exact State.fail_eq_failed _ _

end

end Sys2Proof.Machine
end

section
/-! What DECODE leaves in the state, for each kind of stream (45_orchestrator.md R183, R184). -/

namespace Sys2Proof.Machine

/-- After stage 2 FREQ, TREE and BIT_COUNT are the stream's, and CODE is none (45_orchestrator.md R184). -/
theorem decodeStage2_eq (s : State) (h : Header) :
    decodeStage2 s h =
      { s with freq := h.freq, tree := some (build h.freq), code := none,
               bitCount := BitVec.ofNat 64 h.bitCount } := by
  simp only [decodeStage2, decodeStage1, State.clearWorking, State.clearTables, State.clearFreq]

/-- A stream longer than IN ends DECODE before stage 1 (60_exceptions.md R206). -/
theorem runDecode_of_too_long {s : State} (hlong : s.inCap.toNat < s.inLen.toNat) :
    runDecode s = failed s .ioFailure := by
  rw [runDecode, if_pos (sourceTooLong_eq_true hlong)]
  exact State.fail_eq_failed s _

/-- Bits that spell no symbols the table counts still begin with the codes of some symbols, at most one a bit, and leave
bits over or have the wrong number of symbols (44_bit_reader.md R162). -/
theorem begins_of_no_spelling {f : FreqTable} (hne : present f ≠ []) {bits : List Bool}
    (hno : ¬ ∃ xs, PayloadSpells f bits xs) :
    ∃ ys p, PayloadBegins f bits ys p ∧ (p ≠ [] ∨ ys.length ≠ totalCount f) ∧ ys.length ≤ bits.length := by
  obtain ⟨ys, p, ⟨hpresent, hbits, hrest⟩, hle⟩ := payload_begins hne bits
  refine ⟨ys, p, ⟨hpresent, hbits, hrest⟩, ?_, hle⟩
  by_contra hgood
  rw [not_or, not_not, not_not] at hgood
  obtain ⟨rfl, hcount⟩ := hgood
  exact hno ⟨ys, hpresent, hbits.trans (List.append_nil _), hcount⟩

/-- A bad header ends DECODE with MalformedStream and the tables cleared (45_orchestrator.md R183, 60_exceptions.md
R207). -/
theorem runDecode_of_bad_header {s : State} (hcap : s.inLen.toNat ≤ s.inCap.toNat)
    (H : ¬ WellFormedHeader s.inp s.inLen.toNat) : runDecode s = failed s.clearWorking .malformedStream := by
  obtain ⟨c, hrun⟩ := runDecode_badHeader hcap H
  exact hrun.trans (State.fail_eq_failed _ _)

section
variable {s : State} {f : FreqTable} (hcap : s.inLen.toNat ≤ s.inCap.toNat)
  (H : WellFormedHeader s.inp s.inLen.toNat) (hf : IsStreamTable s.inp f)
include hcap H hf

/-- A sound header without entries ends DECODE with the tables cleared (45_orchestrator.md R187). -/
theorem runDecode_eq_of_no_entries (hnone : memRead s.inp 0 4 = 0) : runDecode s = ended s.clearWorking 0 := by
  have htable : f = emptyTable :=
    FreqTable.ext_countOf fun x => (hf.2 x fun k hk => absurd hk (by omega)).trans (countOf_emptyTable x).symm
  have hbits : memRead s.inp (4 + 5 * memRead s.inp 0 4) 8 = 0 := by rw [hnone]; exact H.emptyNoBits hnone
  rw [runDecode_empty hcap H hf hnone, decodeStage1, State.streamHeader, hbits, htable]
  exact State.succeed_eq_ended _ 0

variable (hsome : memRead s.inp 0 4 ≠ 0)
include hsome

/-- A payload that spells symbols for which OUT has room is decoded to them from OUT[0] on (45_orchestrator.md R184). -/
theorem runDecode_of_spells {xs : List Byte} (hspells : PayloadSpells f s.streamBits xs)
    (hfits : xs.length ≤ s.outCap.toNat) :
    ∃ m, runDecode s = ended { decodeStage2 s (s.streamHeader f) with out := m } xs.length ∧ Overlaid m s.out xs := by
  have hne : present f ≠ [] := mt (streamTable_empty_iff H hf).1 hsome
  obtain ⟨m, hwalk, hread⟩ := (walkDecode_spells hne s.outCap.toNat s.out hspells).1 hfits
  exact ⟨m, (runDecode_of_walk_ok hcap H hf hsome hwalk).trans (State.succeed_eq_ended _ _), hread⟩

/-- A payload that spells more symbols than OUT has room for is IoFailure (45_orchestrator.md R184, 60_exceptions.md
R207). -/
theorem runDecode_of_full {xs : List Byte} (hspells : PayloadSpells f s.streamBits xs)
    (hshort : s.outCap.toNat < xs.length) :
    runDecode s = failed (decodeStage2 s (s.streamHeader f)).redrawOut .ioFailure := by
  have hne : present f ≠ [] := mt (streamTable_empty_iff H hf).1 hsome
  have hwalk := (walkDecode_spells hne s.outCap.toNat s.out hspells).2 hshort
  exact (runDecode_of_walk_error hcap H hf hsome hwalk).trans (State.fail_eq_failed _ _)

/-- A payload that begins with the codes of `ys`, and spells no symbols the table counts, is MalformedStream or, when
`ys` does not fit, IoFailure (45_orchestrator.md R184, 60_exceptions.md R210). -/
theorem runDecode_of_begins {ys : List Byte} {p : List Bool} (hbegins : PayloadBegins f s.streamBits ys p)
    (hbad : p ≠ [] ∨ ys.length ≠ totalCount f) :
    runDecode s = failed (decodeStage2 s (s.streamHeader f)).redrawOut
      (if ys.length ≤ s.outCap.toNat then .malformedStream else .ioFailure) := by
  have hne : present f ≠ [] := mt (streamTable_empty_iff H hf).1 hsome
  obtain ⟨e, hwalk, hcode⟩ := walkDecode_begins hne s.outCap.toNat s.out hbegins hbad
  rw [runDecode_of_walk_error hcap H hf hsome hwalk, State.fail_eq_failed, hcode]

end

end Sys2Proof.Machine
end

section
/-! ENCODE, then DECODE of its output (45_orchestrator.md R185). -/

namespace Sys2Proof.Machine

/-- The stream of no input is twelve zero bytes (45_orchestrator.md R187). -/
theorem streamOf_empty (c : CodeTable) : streamOf emptyTable c [] = List.replicate 12 0#8 := by
  have hpayload : payloadOf c [] = [] := rfl
  rw [streamOf, present_emptyTable, hpayload]
  rfl

/-- ENCODE of an input whose stream fits succeeds and writes the stream, the empty input's too (45_orchestrator.md R182,
R187). -/
theorem runEncode_writes_stream {s : State} {f : FreqTable} (hcap : s.inLen.toNat ≤ s.inCap.toNat)
    (hf : collect s.input = .ok f) (hfits : (streamOf f (derive (build f)) s.input).length ≤ s.outCap.toNat) :
    (runEncode s).err = false ∧
      (runEncode s).outLen = BitVec.ofNat 32 (streamOf f (derive (build f)) s.input).length ∧
      Overlaid (runEncode s).out s.out (streamOf f (derive (build f)) s.input) := by
  by_cases hne : present f = []
  case pos =>
    have hinput : s.input = [] := eq_nil_of_collect hf hne
    rw [hinput] at hf hfits ⊢
    cases hf
    rw [streamOf_empty] at hfits ⊢
    obtain ⟨m, hrun, hread⟩ := runEncode_empty_of_fits hcap (input_eq_nil_iff.1 hinput) (by simpa using hfits)
    rw [hrun]
    exact ⟨rfl, rfl, hread⟩
  case neg =>
    obtain ⟨m, hrun, hread⟩ := runEncode_of_fits hcap hf hne hfits
    rw [hrun]
    exact ⟨rfl, rfl, hread⟩

/-- DECODE of an input's stream in IN succeeds and writes the input, the empty one too (45_orchestrator.md R184,
R185). -/
theorem runDecode_reads_stream {u : State} {f : FreqTable} {bs : List Byte} (hf : collect bs = .ok f)
    (hlen : bs.length < 2 ^ 32) (hin : u.inLen.toNat = (streamOf f (derive (build f)) bs).length)
    (hholds : u.inp.Holds 0 (streamOf f (derive (build f)) bs)) (hcap : u.inLen.toNat ≤ u.inCap.toNat)
    (hroom : bs.length ≤ u.outCap.toNat) :
    (runDecode u).err = false ∧ (runDecode u).outLen = BitVec.ofNat 32 bs.length ∧
      Overlaid (runDecode u).out u.out bs := by
  have hbits := payloadOf_length_lt hf hlen
  have H : WellFormedHeader u.inp u.inLen.toNat := hin ▸ hholds.wellFormedHeader hbits (eq_nil_of_collect hf)
  have htable : IsStreamTable u.inp f := hholds.isStreamTable hbits
  by_cases hnone : memRead u.inp 0 4 = 0
  case pos =>
    rw [runDecode_eq_of_no_entries hcap H htable hnone, eq_nil_of_collect hf ((streamTable_empty_iff H htable).2 hnone)]
    exact ⟨rfl, rfl, fun _ => rfl⟩
  case neg =>
    obtain ⟨hcount, hbitCount, -, hpayload⟩ := hholds.stream_fields hbits
    have hspells : PayloadSpells f u.streamBits bs := by
      rw [State.streamBits, hcount, hbitCount, hpayload]
      exact payloadSpells_of_collect hf
    obtain ⟨m, hrun, hread⟩ := runDecode_of_spells hcap H htable hnone hspells hroom
    rw [hrun]
    exact ⟨rfl, rfl, hread⟩

theorem input_getElem? {s : State} {k : Nat} (hk : k < s.inLen.toNat) : s.input[k]? = some (s.inp.read k) := by
  rw [State.input, bytesAt, List.getElem?_map, List.getElem?_range hk, Option.map_some, Nat.zero_add]

end Sys2Proof.Machine
end

section
/-! What ENCODE and DECODE report and write is a function of the input bytes and the capacities (45_orchestrator.md
R188). Each command's end is given by one of the lemmas above, whatever the tables and OUT were before. -/

namespace Sys2Proof.Machine

/-- Two states report the same end of a command and, on success, the same tables and output (45_orchestrator.md
R188). -/
def State.SameReport (t t' : State) : Prop :=
  t.err = t'.err ∧ t.errCode = t'.errCode ∧ t.outLen = t'.outLen ∧
  (t.err = false → t.freq = t'.freq ∧ t.tree = t'.tree ∧ t.code = t'.code ∧ t.bitCount = t'.bitCount ∧
    ∀ k < t.outLen.toNat, t.out.read k = t'.out.read k)

theorem failed_sameReport (u u' : State) (c : ErrorCode) : (failed u c).SameReport (failed u' c) :=
  ⟨rfl, rfl, rfl, nofun⟩

theorem ended_sameReport {u u' : State} {n : Nat} {old old' : Memory} {bs : List Byte} (hfreq : u.freq = u'.freq)
    (htree : u.tree = u'.tree) (hcode : u.code = u'.code) (hbits : u.bitCount = u'.bitCount)
    (hout : Overlaid u.out old bs) (hout' : Overlaid u'.out old' bs) (hn : n ≤ bs.length) :
    (ended u n).SameReport (ended u' n) := by
  refine ⟨rfl, rfl, rfl, fun _ => ⟨hfreq, htree, hcode, hbits, fun k hk => ?_⟩⟩
  have hk' : k < bs.length := (hk.trans_le (Nat.mod_le n (2 ^ 32))).trans_le hn
  show u.out.read k = u'.out.read k
  rw [hout k, hout' k, List.getElem?_eq_getElem hk', Option.getD_some, Option.getD_some]

section
variable {m m' : Memory} {len : Nat} (hread : ∀ k < len, m.read k = m'.read k)
include hread

/-- A field inside the stream has the same value in both spaces. -/
theorem memRead_congr_of_le {a n : Nat} (h : a + n ≤ len) : memRead m a n = memRead m' a n :=
  memRead_congr n a fun k _ hk => hread k (by omega)

variable (H : WellFormedHeader m len)
include H

/-- The header's two counts are the same in both spaces. -/
theorem WellFormedHeader.counts_congr :
    memRead m 0 4 = memRead m' 0 4 ∧
      memRead m (4 + 5 * memRead m 0 4) 8 = memRead m' (4 + 5 * memRead m 0 4) 8 := by
  have hlong := H.longEnough
  have hfits := H.headerFits
  exact ⟨memRead_congr_of_le hread (by omega), memRead_congr_of_le hread (by omega)⟩

/-- The header's entries are the same in both spaces. -/
theorem WellFormedHeader.entry_congr {k : Nat} (hk : k < memRead m 0 4) :
    m.read (4 + 5 * k) = m'.read (4 + 5 * k) ∧ memRead m (5 + 5 * k) 4 = memRead m' (5 + 5 * k) 4 := by
  have hfits := H.headerFits
  exact ⟨hread _ (by omega), memRead_congr_of_le hread (by omega)⟩

/-- A header is sound in every space with the stream's bytes (30_encoding.md R96). -/
theorem WellFormedHeader.congr : WellFormedHeader m' len := by
  obtain ⟨hcount, hbitCount⟩ := H.counts_congr hread
  have hentry := fun k => H.entry_congr hread (k := k)
  obtain ⟨hlong, hcount256, hfits, hdup, hzero, hempty, hexact⟩ := H
  rw [hbitCount] at hexact
  rw [hcount] at hcount256 hfits hdup hzero hempty hexact hentry
  refine ⟨hlong, hcount256, hfits, fun j k hjk hk => ?_, fun k hk => ?_, fun hnone => ?_, hexact⟩
  · rw [← (hentry j (by omega)).1, ← (hentry k hk).1]
    exact hdup j k hjk hk
  · rw [← (hentry k hk).2]
    exact hzero k hk
  · rw [← memRead_congr_of_le hread (by omega)]
    exact hempty hnone

/-- A stream's table is that of every space with its bytes (45_orchestrator.md R183). -/
theorem WellFormedHeader.isStreamTable_congr {f : FreqTable} (hf : IsStreamTable m f) : IsStreamTable m' f := by
  obtain ⟨hcount, -⟩ := H.counts_congr hread
  have hentry := fun k => H.entry_congr hread (k := k)
  obtain ⟨hfreq, hother⟩ := hf
  rw [IsStreamTable, ← hcount]
  constructor
  · intro k hk
    rw [← (hentry k hk).1, ← (hentry k hk).2]
    exact hfreq k hk
  · intro x hx
    exact hother x fun k hk => (hentry k hk).1 ▸ hx k hk

end

section
variable {s s' : State} (hlen : s.inLen = s'.inLen) (hcap : s.inCap = s'.inCap) (hroom : s.outCap = s'.outCap)
  (hread : ∀ k < s.inLen.toNat, s.inp.read k = s'.inp.read k)
include hread

/-- The payload's bits are the same in both states (30_encoding.md R94). -/
theorem WellFormedHeader.streamBits_congr (H : WellFormedHeader s.inp s.inLen.toNat) :
    s.streamBits = s'.streamBits := by
  obtain ⟨hcount, hbitCount⟩ := H.counts_congr hread
  have hexact := H.exactLength
  rw [State.streamBits, State.streamBits, ← hcount, ← hbitCount]
  refine List.map_congr_left fun i hi => ?_
  have hbyte : i / 8 < ceil8 (memRead s.inp (4 + 5 * memRead s.inp 0 4) 8) := by
    have hceil := le_eight_mul_ceil8 (memRead s.inp (4 + 5 * memRead s.inp 0 4) 8)
    have := List.mem_range.1 hi
    omega
  rw [payloadBit, payloadBit, hread _ (by omega)]

include hlen

theorem input_eq_of_reads : s.input = s'.input := by
  rw [State.input, State.input, ← hlen]
  refine List.map_congr_left fun k hk => ?_
  rw [Nat.zero_add]
  exact hread k (List.mem_range.1 hk)

include hcap hroom

/-- ENCODE's report is a function of its input and the capacities (45_orchestrator.md R188). -/
theorem runEncode_sameReport : (runEncode s).SameReport (runEncode s') := by
  have hinput := input_eq_of_reads hlen hread
  by_cases hfits : s.inLen.toNat ≤ s.inCap.toNat
  case neg =>
    rw [runEncode_of_too_long (by omega), runEncode_of_too_long (by rw [← hlen, ← hcap]; omega)]
    exact failed_sameReport s s' _
  have hfits' : s'.inLen.toNat ≤ s'.inCap.toNat := by rwa [← hlen, ← hcap]
  by_cases hzero : s.inLen.toNat = 0
  case pos =>
    have hzero' : s'.inLen.toNat = 0 := by rwa [← hlen]
    by_cases h12 : 12 ≤ s.outCap.toNat
    · obtain ⟨m, hrun, hout⟩ := runEncode_empty_of_fits hfits hzero h12
      obtain ⟨m', hrun', hout'⟩ := runEncode_empty_of_fits hfits' hzero' (hroom ▸ h12)
      rw [hrun, hrun']
      exact ended_sameReport rfl rfl rfl rfl hout hout' (by simp)
    · rw [runEncode_empty_of_full hfits hzero (by omega),
        runEncode_empty_of_full hfits' hzero' (by rw [← hroom]; omega)]
      exact failed_sameReport ..
  case neg =>
    obtain ⟨f, hf, -⟩ := collect_ok s.input (input_length_lt s)
    have hf' : collect s'.input = .ok f := hinput ▸ hf
    have hne : present f ≠ [] := present_ne_nil_of_collect hf (mt input_eq_nil_iff.1 hzero)
    by_cases hstream : (streamOf f (derive (build f)) s.input).length ≤ s.outCap.toNat
    · obtain ⟨m, hrun, hout⟩ := runEncode_of_fits hfits hf hne hstream
      obtain ⟨m', hrun', hout'⟩ := runEncode_of_fits hfits' hf' hne (by rwa [← hinput, ← hroom])
      rw [hrun, hrun', ← hinput]
      exact ended_sameReport rfl rfl rfl rfl hout (hinput ▸ hout') le_rfl
    · rw [runEncode_of_full hfits hf hne (by omega),
        runEncode_of_full hfits' hf' hne (by rw [← hinput, ← hroom]; omega)]
      exact failed_sameReport ..

/-- DECODE's report on a sound header with entries is a function of the stream and the capacities (45_orchestrator.md
R188). -/
theorem runDecode_sameReport_of_entries (hfits : s.inLen.toNat ≤ s.inCap.toNat)
    (H : WellFormedHeader s.inp s.inLen.toNat) (hsome : memRead s.inp 0 4 ≠ 0) :
    (runDecode s).SameReport (runDecode s') := by
  obtain ⟨f, -, hf⟩ := parse_ok H
  obtain ⟨hcount, hbitCount⟩ := H.counts_congr hread
  have hfits' : s'.inLen.toNat ≤ s'.inCap.toNat := by rwa [← hlen, ← hcap]
  have H' : WellFormedHeader s'.inp s'.inLen.toNat := hlen ▸ H.congr hread
  have hf' : IsStreamTable s'.inp f := H.isStreamTable_congr hread hf
  have hsome' : memRead s'.inp 0 4 ≠ 0 := hcount ▸ hsome
  have hbits : s.streamBits = s'.streamBits := H.streamBits_congr hread
  have hheader : s.streamHeader f = s'.streamHeader f := by
    rw [State.streamHeader, State.streamHeader, ← hcount, hbitCount]
  by_cases hspells : ∃ xs, PayloadSpells f s.streamBits xs
  case pos =>
    obtain ⟨xs, hxs⟩ := hspells
    by_cases hxsfits : xs.length ≤ s.outCap.toNat
    · obtain ⟨m, hrun, hout⟩ := runDecode_of_spells hfits H hf hsome hxs hxsfits
      obtain ⟨m', hrun', hout'⟩ := runDecode_of_spells hfits' H' hf' hsome' (hbits ▸ hxs) (hroom ▸ hxsfits)
      rw [hrun, hrun', hheader]
      exact ended_sameReport rfl rfl rfl rfl hout hout' le_rfl
    · rw [runDecode_of_full hfits H hf hsome hxs (by omega),
        runDecode_of_full hfits' H' hf' hsome' (hbits ▸ hxs) (by rw [← hroom]; omega)]
      exact failed_sameReport ..
  case neg =>
    have hne : present f ≠ [] := mt (streamTable_empty_iff H hf).1 hsome
    obtain ⟨ys, p, hbegins, hbad, -⟩ := begins_of_no_spelling hne hspells
    rw [runDecode_of_begins hfits H hf hsome hbegins hbad,
      runDecode_of_begins hfits' H' hf' hsome' (hbits ▸ hbegins) hbad, hroom]
    exact failed_sameReport ..

/-- DECODE's report is a function of its stream and the capacities (45_orchestrator.md R188). -/
theorem runDecode_sameReport : (runDecode s).SameReport (runDecode s') := by
  by_cases hfits : s.inLen.toNat ≤ s.inCap.toNat
  case neg =>
    rw [runDecode_of_too_long (by omega), runDecode_of_too_long (by rw [← hlen, ← hcap]; omega)]
    exact failed_sameReport s s' _
  have hfits' : s'.inLen.toNat ≤ s'.inCap.toNat := by rwa [← hlen, ← hcap]
  by_cases H : WellFormedHeader s.inp s.inLen.toNat
  case neg =>
    have H' : ¬ WellFormedHeader s'.inp s'.inLen.toNat := by
      rw [← hlen]
      exact fun H' => H (H'.congr fun k hk => (hread k hk).symm)
    rw [runDecode_of_bad_header hfits H, runDecode_of_bad_header hfits' H']
    exact failed_sameReport ..
  by_cases hnone : memRead s.inp 0 4 = 0
  case pos =>
    obtain ⟨f, -, hf⟩ := parse_ok H
    have hnone' : memRead s'.inp 0 4 = 0 := (H.counts_congr hread).1 ▸ hnone
    rw [runDecode_eq_of_no_entries hfits H hf hnone, runDecode_eq_of_no_entries hfits' (hlen ▸ H.congr hread)
      (H.isStreamTable_congr hread hf) hnone']
    exact ended_sameReport (bs := []) rfl rfl rfl rfl (fun _ => rfl) (fun _ => rfl) le_rfl
  case neg => exact runDecode_sameReport_of_entries hlen hcap hroom hread hfits H hnone

end

end Sys2Proof.Machine
end

section
/-! What the registers read after CLEAR (45_orchestrator.md R186). -/

namespace Sys2Proof.Machine

/-- The registers that are drawn while BUSY show the tables and BIT_COUNT, and nothing else (10_state.md R31 to R39). -/
theorem State.regValue_congr {s t : State} (hfreq : s.freq = t.freq) (htree : s.tree = t.tree) (hcode : s.code = t.code)
    (hbits : s.bitCount = t.bitCount) {r : Reg} (hr : drawnWhileBusy r = true) : s.regValue r = t.regValue r := by
  cases r with
  | id | ctrl | cmd | status | errCode | inLen | outLen | inCap | outCap | reserved => cases hr
  | bitCountLo | bitCountHi => simp only [State.regValue, hbits]
  | root => simp only [State.regValue, State.rootWord, htree]
  | nodeCount => simp only [State.regValue, State.nodeCountWord, htree]
  | symCount | freq => simp only [State.regValue, hfreq]
  | node => simp only [State.regValue, State.nodeWindow, htree]
  | code => simp only [State.regValue, State.codeWindow, hcode]

/-- After CLEAR they read 0, as after a reset (45_orchestrator.md R186, 10_state.md R44). -/
theorem State.regValue_runClear (s : State) {r : Reg} (hr : drawnWhileBusy r = true) :
    (runClear s).regValue r = 0#32 := by
  have hreset := State.regValue_congr (s := runClear s) (t := State.resetWith s.inCap s.outCap 0 0 0) rfl rfl rfl rfl hr
  have hother : ∀ {r' : Reg}, drawnWhileBusy r' = false → r ≠ r' := by
    rintro r' hr' rfl
    cases hr.symm.trans hr'
  exact hreset.trans
    (State.regValue_resetWith s.inCap s.outCap 0 0 0 [] [] (hother rfl) (hother rfl) (hother rfl))

end Sys2Proof.Machine
end

section
/-! The settlements of 45_orchestrator.md. -/

namespace Sys2Proof.Machine

/-- Settles O52: ENCODE writes the stream (`runEncode_writes_stream`), IN then holds it, and DECODE reads back the table
it was made of and walks the payload to the input (`runDecode_reads_stream`). -/
theorem encodeThenDecodeIsIdentity : Obligations.EncodeThenDecodeIsIdentity := by
  intro s u f hcap hcounts hroom
  have hf := collect_eq_of_counts (input_length_lt s) hcounts
  rw [← streamOf_length] at hroom
  obtain ⟨herr, hlen, hwrites⟩ := runEncode_writes_stream hcap hf hroom
  refine ⟨runEncode s, rfl, herr, fun hin hread hcap' hroom' => ?_⟩
  have houtLen : (runEncode s).outLen.toNat = (streamOf f (derive (build f)) s.input).length := by
    rw [hlen, BitVec.toNat_ofNat, Nat.mod_eq_of_lt (hroom.trans_lt s.outCap.isLt)]
  rw [houtLen] at hread
  obtain ⟨herr', hlen', hwrites'⟩ := runDecode_reads_stream hf (input_length_lt s) (hin ▸ houtLen)
    (hwrites.holds.congr hread) hcap' (by rwa [input_length])
  refine ⟨runDecode u, rfl, herr', ?_, fun k hk => ?_⟩
  · rw [hlen', input_length, BitVec.ofNat_toNat, BitVec.setWidth_eq]
  · rw [hwrites' k, input_getElem? hk, Option.getD_some]

/-- Settles O45: the table is the one `collect` makes of the input, and its stream fits (`runEncode_of_fits`) or not
(`runEncode_of_full`). -/
theorem encodeWritesStream : Obligations.EncodeWritesStream := by
  intro s f hcap hsome hcounts
  have hf := collect_eq_of_counts (input_length_lt s) hcounts
  have hne := present_ne_nil_of_collect hf (mt input_eq_nil_iff.1 hsome)
  constructor
  · intro hfits
    obtain ⟨m, hrun, hread⟩ := runEncode_of_fits hcap hf hne hfits
    rw [encodeStage3_eq] at hrun
    exact ⟨m, congrArg Host.Outcome.next hrun, hread⟩
  · intro hshort
    have hrun := runEncode_of_full hcap hf hne hshort
    rw [encodeStage3_eq] at hrun
    exact congrArg Host.Outcome.next hrun

/-- Settles O46: ENCODE of no input is `runEncode_empty_of_fits` or `runEncode_empty_of_full`; twelve zero bytes are the
stream of no input, whose header DECODE finds sound and without entries. -/
theorem emptyInputRoundTrip : Obligations.EmptyInputRoundTrip := by
  intro s hcap
  refine ⟨fun hzero hfits => ?_, fun hzero hshort => ?_, fun h12 hzeros => ?_⟩
  · obtain ⟨m, hrun, hread⟩ := runEncode_empty_of_fits hcap hzero hfits
    exact ⟨m, congrArg Host.Outcome.next hrun, hread⟩
  · exact ⟨_, _, congrArg Host.Outcome.next (runEncode_empty_of_full hcap hzero hshort)⟩
  · have hholds : s.inp.Holds 0 (streamOf emptyTable noCodes []) := by
      rw [streamOf_empty]
      exact Memory.holds_replicate_iff.2 fun k hk => by rw [Nat.zero_add, hzeros k hk]
    have hbits : (payloadOf noCodes []).length < 2 ^ 64 := Nat.two_pow_pos 64
    have H : WellFormedHeader s.inp s.inLen.toNat := by
      have hheader := hholds.wellFormedHeader hbits fun _ => rfl
      rwa [streamOf_empty, List.length_replicate, ← h12] at hheader
    have hnone := (streamTable_empty_iff H (hholds.isStreamTable hbits)).1 present_emptyTable
    exact congrArg Host.Outcome.next (runDecode_eq_of_no_entries hcap H (hholds.isStreamTable hbits) hnone)

/-- Settles O47: `runEncode_sameReport` and `runDecode_sameReport`. -/
theorem codecIgnoresEarlierTables : Obligations.CodecIgnoresEarlierTables := by
  rintro i s s' t t' hi hlen hcap hroom hread ht ht'
  rcases hi with rfl | rfl <;> cases ht <;> cases ht'
  · exact runEncode_sameReport hlen hcap hroom hread
  · exact runDecode_sameReport hlen hcap hroom hread

/-- Settles O48: `runDecode_of_spells` when the symbols fit, and `runDecode_of_full` when they do not. -/
theorem decodeWritesSymbols : Obligations.DecodeWritesSymbols := by
  intro s f xs hcap H hsome hf hspells
  constructor
  · intro hfits
    obtain ⟨m, hrun, hread⟩ := runDecode_of_spells hcap H hf hsome hspells hfits
    rw [decodeStage2_eq] at hrun
    exact ⟨m, congrArg Host.Outcome.next hrun, hread⟩
  · intro hshort
    have hrun := runDecode_of_full hcap H hf hsome hspells hshort
    rw [decodeStage2_eq] at hrun
    exact congrArg Host.Outcome.next hrun

/-- Settles O49: `runDecode_of_bad_header`. -/
theorem decodeRejectsBadHeader : Obligations.DecodeRejectsBadHeader :=
  fun _ hcap H => congrArg Host.Outcome.next (runDecode_of_bad_header hcap H)

/-- Settles O50: `runDecode_of_begins`, in an OUT of any size; bits that spell no symbols begin with some by
`begins_of_no_spelling`, at most one a bit, for which OUT has room. -/
theorem decodeRejectsBadPayload : Obligations.DecodeRejectsBadPayload := by
  intro s f hcap H hsome hf
  have hfails := fun ys p => runDecode_of_begins hcap H hf hsome (ys := ys) (p := p)
  rw [decodeStage2_eq] at hfails
  refine ⟨fun hroom hno => ?_, fun ys p hbegins hbad => congrArg Host.Outcome.next (hfails ys p hbegins hbad)⟩
  have hne : present f ≠ [] := mt (streamTable_empty_iff H hf).1 hsome
  obtain ⟨ys, p, hbegins, hbad, hle⟩ := begins_of_no_spelling hne hno
  rw [payloadBits_length] at hle
  have hrun := hfails ys p hbegins hbad
  rw [if_pos (hle.trans hroom)] at hrun
  exact congrArg Host.Outcome.next hrun

/-- Settles O53: after CLEAR the tables and BIT_COUNT are those of a reset state, so the registers that show them read
what they read there (`State.regValue_runClear`). -/
theorem clearReturnsWorkingState : Obligations.ClearReturnsWorkingState :=
  ⟨rfl, fun s => ⟨runClear s, rfl, rfl, rfl, fun _ => s.regValue_runClear, State.succeed_eq_ended _ 0⟩⟩

end Sys2Proof.Machine
end

section
/-! What a step does with the oldest event, and what the engine step does with a word (60_exceptions.md R221; log 1,
log 2). -/

namespace Sys2Proof.Machine

variable {s : State} {w : Word}

theorem step_engineTurn {rest : List Event} (h : s.agenda = .engineTurn :: rest) :
    step s = engineStep { s with agenda := rest } := by
  simp only [step, h]

theorem step_no_event (h : s.agenda = []) : step s = engineStep s := by
  simp only [step, h]

theorem step_host {a : Access} {rest : List Event} (h : s.agenda = .host a :: rest) :
    step s = .next (hostAccess { s with agenda := rest } a) := by
  simp only [step, h]

theorem engineStep_idle (h : s.seq = .idle) : engineStep s = .next s := by
  simp only [engineStep, h]

/-- A word that is no command's commits nothing (60_exceptions.md R206). -/
theorem runWord_illegal (h : ∀ i, w ≠ encode i) (s : State) : runWord w s = .next (failed s .illegalCommand) := by
  unfold runWord
  split
  next i hdec => exact absurd (decode_eq_ok_iff.1 hdec) (h i)
  next => exact congrArg Host.Outcome.next (State.fail_eq_failed s .illegalCommand)

theorem engineStep_legal {i : Instr} (hs : s.seq = .pending w) (hdec : decode w = .ok i) : engineStep s = exec i s := by
  simp only [engineStep, hs, runWord, hdec]

theorem engineStep_illegal (hs : s.seq = .pending w) (hill : ∀ i, w ≠ encode i) :
    engineStep s = .next (failed s .illegalCommand) := by
  simp only [engineStep, hs, runWord_illegal hill]

end Sys2Proof.Machine
end

section
/-! The prechecks of the commands, and BUILD of an empty table (60_exceptions.md R202, R206, R210). -/

namespace Sys2Proof.Machine

variable {s : State}

theorem runDerive_of_no_tree (h : s.tree = none) : runDerive s = failed s .stateInvalid := by
  simp only [runDerive, h]
  exact State.fail_eq_failed s _

theorem runUnpack_of_no_tree (h : s.tree = none) : runUnpack s = failed s .stateInvalid := by
  simp only [runUnpack, h]
  exact State.fail_eq_failed s _

theorem runPack_of_no_code (h : s.code = none) : runPack s = failed s .stateInvalid := by
  simp only [runPack, h]
  exact State.fail_eq_failed s _

section
variable (hlong : s.inCap.toNat < s.inLen.toNat)
include hlong

theorem runCollect_of_too_long : runCollect s = failed s .ioFailure := by
  rw [runCollect, if_pos (sourceTooLong_eq_true hlong)]
  exact State.fail_eq_failed s _

/-- With a code table PACK's next precheck is the one of IN_LEN (60_exceptions.md R210). -/
theorem runPack_of_too_long (h : s.code ≠ none) : runPack s = failed s .ioFailure := by
  obtain ⟨c, hc⟩ := Option.ne_none_iff_exists'.1 h
  simp only [runPack, hc, sourceTooLong_eq_true hlong, if_true]
  exact State.fail_eq_failed s _

/-- With a tree UNPACK's next precheck is the one of IN_LEN (60_exceptions.md R210). -/
theorem runUnpack_of_too_long (h : s.tree ≠ none) : runUnpack s = failed s .ioFailure := by
  obtain ⟨t, ht⟩ := Option.ne_none_iff_exists'.1 h
  simp only [runUnpack, ht, sourceTooLong_eq_true hlong, if_true]
  exact State.fail_eq_failed s _

end

/-- BUILD of an empty table raises EmptyAlphabet, TREE and CODE cleared (60_exceptions.md R202, R207). -/
theorem runBuild_of_empty (h : present s.freq = []) :
    runBuild s = failed { s with tree := none, code := none } .emptyAlphabet := by
  rw [runBuild, if_pos (List.isEmpty_iff.2 h)]
  exact State.fail_eq_failed s.clearTables .emptyAlphabet

end Sys2Proof.Machine
end

section
/-! The errors that the parts of a command can raise (60_exceptions.md R200, R201). -/

namespace Sys2Proof.Machine

/-- Emitting bytes raises nothing but IoFailure (20_memory.md R68). -/
theorem emitBytes_error {cap : Nat} {k : Sink} {vs : List Byte} {e : Raise} (hk : k.j ≤ cap)
    (h : emitBytes cap k vs = .error e) : e = .ioFailure .sinkFull := by
  rcases Nat.lt_or_ge cap (k.j + vs.length) with hfull | hfits
  · cases h.symm.trans (emitBytes_full vs hk hfull)
    rfl
  · obtain ⟨m, hok, -⟩ := emitBytes_ok vs hfits
    cases h.symm.trans hok

/-- `pack_into` raises nothing but IoFailure and UncodedSymbol: the input has a first symbol without a code, or none
(43_bit_packer.md R152). -/
theorem packInto_error {cap : Nat} {c : CodeTable} {k : Sink} {bs : List Byte} {e : Raise} (hk : k.j ≤ cap)
    (h : packInto cap c k bs = .error e) : e = .ioFailure .sinkFull ∨ e = .uncodedSymbol := by
  cases hfind : bs.find? fun x => (codeOf c x).isEmpty with
  | none =>
    obtain ⟨hwrites, hfull⟩ := packInto_spec k hk bs fun x hx =>
      mt List.isEmpty_iff.2 (List.find?_eq_none.1 hfind x hx)
    rcases Nat.lt_or_ge cap (k.j + ceil8 (payloadOf c bs).length) with hshort | hfits
    · cases h.symm.trans (hfull hshort)
      exact .inl rfl
    · obtain ⟨m, hok, -⟩ := hwrites hfits
      cases h.symm.trans hok
  | some x =>
    obtain ⟨hx, pre, post, rfl, hpre⟩ := List.find?_eq_some_iff_append.1 hfind
    have huncoded := packInto_uncoded (post := post) k hk (fun y hy => by simpa using hpre y hy)
      (List.isEmpty_iff.1 hx)
    cases h.symm.trans huncoded
    split
    · exact .inr rfl
    · exact .inl rfl

/-- With the codes of its own input ENCODE's stream raises nothing but IoFailure (45_orchestrator.md R182). -/
theorem emitStream_error {cap : Nat} {f : FreqTable} {k : Sink} {bs : List Byte} {e : Raise} (hk : k.j ≤ cap)
    (hf : collect bs = .ok f) (h : emitStream cap f (derive (build f)) k bs = .error e) : e = .ioFailure .sinkFull := by
  obtain ⟨hwrites, hfull⟩ := emitStream_spec k hk (headerBitCount_of_collect hf (derive (build f)))
    fun x => code_ne_nil_of_collect hf
  rcases Nat.lt_or_ge cap (k.j + (streamOf f (derive (build f)) bs).length) with hshort | hfits
  · cases h.symm.trans (hfull hshort)
    rfl
  · obtain ⟨m, hok, -⟩ := hwrites hfits
    cases h.symm.trans hok

/-- `parse` raises nothing but MalformedStream (45_orchestrator.md R183). -/
theorem parse_error {m : Memory} {len : Nat} {e : Raise} (h : parse m len = .error e) : ∃ c, e = .malformedStream c := by
  by_cases H : WellFormedHeader m len
  · obtain ⟨f, hok, -⟩ := parse_ok H
    cases h.symm.trans hok
  · obtain ⟨c, herr⟩ := parse_malformed H
    cases h.symm.trans herr
    exact ⟨c, rfl⟩

end Sys2Proof.Machine
end

section
/-! What an ended command reports: an error of its row of the error table, or none (60_exceptions.md R201, R205, R208). -/

namespace Sys2Proof.Machine

/-- What STATUS, ERR_CODE, OUT_LEN and IRQ say of a command that has just ended (60_exceptions.md R205, R208). -/
theorem State.AtEnd.report {t : State} (h : t.AtEnd) : t.done = true ∧ t.irq = t.irqEn ∧
    (t.err = true ↔ t.errCode ≠ .none) ∧ (t.err = true → t.outLen = 0#32) := by
  obtain ⟨u, ⟨n, rfl⟩ | ⟨e, rfl⟩⟩ := h
  · exact ⟨rfl, rfl, ⟨nofun, fun h => absurd rfl h⟩, nofun⟩
  · exact ⟨rfl, rfl, ⟨fun _ => e.errorCode_ne_none, fun _ => rfl⟩, fun _ => rfl⟩

theorem runCollect_mayReport (s : State) : mayReport .collect (runCollect s).errCode = true := by
  rcases runCollect_cases s with ⟨-, e⟩ | ⟨-, ⟨r, hr, e⟩ | ⟨f, -, e⟩⟩ <;> rw [e]
  · rfl
  · rw [collect_error hr]
    rfl
  · rfl

theorem runBuild_mayReport (s : State) : mayReport .build (runBuild s).errCode = true := by
  rcases runBuild_cases s with ⟨-, e⟩ | ⟨-, e⟩ <;> rw [e] <;> rfl

theorem runDerive_mayReport (s : State) : mayReport .derive (runDerive s).errCode = true := by
  rcases runDerive_cases s with ⟨-, e⟩ | ⟨t, -, e⟩ <;> rw [e] <;> rfl

theorem runPack_mayReport (s : State) : mayReport .pack (runPack s).errCode = true := by
  rcases runPack_cases s with ⟨-, e⟩ | ⟨c, -, ⟨-, e⟩ | ⟨-, ⟨r, hr, e⟩ | ⟨k, n, -, e⟩⟩⟩ <;> rw [e]
  · rfl
  · rfl
  · rcases packInto_error (Nat.zero_le _) hr with rfl | rfl <;> rfl
  · rfl

theorem runUnpack_mayReport (s : State) : mayReport .unpack (runUnpack s).errCode = true := by
  rcases runUnpack_cases s with ⟨-, e⟩ | ⟨t, -, ⟨-, e⟩ | ⟨-, ⟨-, e⟩ | ⟨-, ⟨r, hr, e⟩ | ⟨k, -, e⟩⟩⟩⟩ <;> rw [e]
  · rfl
  · rfl
  · rfl
  · rcases walkDecode_error hr with ⟨c, rfl⟩ | ⟨c, rfl⟩ <;> rfl
  · rfl

theorem runEncode_mayReport (s : State) : mayReport .encode (runEncode s).errCode = true := by
  rcases runEncode_cases s with ⟨-, e⟩ | ⟨-, ⟨r, hr, e⟩ | ⟨f, hf, ⟨-, ⟨r, hr, e⟩ | ⟨k, -, e⟩⟩ |
    ⟨-, ⟨r, hr, e⟩ | ⟨k, -, e⟩⟩⟩⟩ <;> rw [e]
  · rfl
  · rw [collect_error hr]
    rfl
  · rw [emitEmptyHeader_eq] at hr
    rw [emitBytes_error (Nat.zero_le _) hr]
    rfl
  · rfl
  · rw [emitStream_error (Nat.zero_le _) hf hr]
    rfl
  · rfl

theorem runDecode_mayReport (s : State) : mayReport .decode (runDecode s).errCode = true := by
  rcases runDecode_cases s with ⟨-, e⟩ | ⟨-, ⟨r, hr, e⟩ | ⟨hd, -, ⟨-, e⟩ | ⟨-, ⟨r, hr, e⟩ | ⟨k, -, e⟩⟩⟩⟩ <;> rw [e]
  · rfl
  · obtain ⟨c, rfl⟩ := parse_error hr
    rfl
  · rfl
  · rcases walkDecode_error hr with ⟨c, rfl⟩ | ⟨c, rfl⟩ <;> rfl
  · rfl

end Sys2Proof.Machine
end

section
/-! The settlements of 60_exceptions.md. -/

namespace Sys2Proof.Machine

/-- Settles O6: every command ends (`exec_atEnd`), and none changes IRQ_EN (`exec_hostPart`). -/
theorem everyCommandEnds : Obligations.EveryCommandEnds := by
  intro i s
  obtain ⟨t, hexec, hend⟩ := exec_atEnd i s
  obtain ⟨hdone, hirq, hreport⟩ := hend.report
  obtain ⟨-, -, hirqEn, -⟩ := (State.hostPart_eq_iff s t).1 (exec_hostPart hexec)
  exact ⟨t, hexec, hend.idle, hdone, hirq.trans hirqEn, hreport⟩

/-- Settles O7: a lemma per command, each over the ends that the command can have; CLEAR always succeeds. -/
theorem commandsReportOnlyTheirErrors : Obligations.CommandsReportOnlyTheirErrors := by
  intro i s t h
  cases i <;> cases h
  case collect => exact runCollect_mayReport s
  case build => exact runBuild_mayReport s
  case derive => exact runDerive_mayReport s
  case pack => exact runPack_mayReport s
  case unpack => exact runUnpack_mayReport s
  case encode => exact runEncode_mayReport s
  case decode => exact runDecode_mayReport s
  case clear => rfl

/-- Settles O5: the step is `engineStep` at the engine's turn and with no event left, and the access of a host event. -/
theorem engineTurnRunsDecodedCommand : Obligations.EngineTurnRunsDecodedCommand := by
  intro s rest
  exact ⟨fun w i hs hdec => ⟨fun ha => (step_engineTurn ha).trans (engineStep_legal hs hdec),
      fun ha => (step_no_event ha).trans (engineStep_legal hs hdec)⟩,
    fun w hs hill => ⟨fun ha => (step_engineTurn ha).trans (engineStep_illegal hs hill),
      fun ha => (step_no_event ha).trans (engineStep_illegal hs hill)⟩,
    fun hs => ⟨fun ha => (step_engineTurn ha).trans (engineStep_idle hs),
      fun ha => (step_no_event ha).trans (engineStep_idle hs)⟩,
    fun a => step_host⟩

/-- Settles O11: a CMD write is `State.accept` when idle, and dropped while BUSY. -/
theorem cmdWriteAccepted : Obligations.CmdWriteAccepted := by
  intro s v
  rw [hostAccess_writeReg_at (r := .cmd) rfl, writeRegister]
  refine ⟨fun hs => ⟨s.accept v, State.ifIdle_of_idle hs _, ?_, rfl⟩, fun hs => State.ifIdle_of_busy hs _⟩
  rw [State.statusWord_busy]
  rfl

/-- Settles O31: one lemma per command and precheck. -/
theorem prechecksCommitNothing : Obligations.PrechecksCommitNothing := by
  intro s
  refine ⟨fun w hill => runWord_illegal hill s, fun ht => ⟨?_, ?_⟩, fun hc => ?_,
    fun hlong => ⟨?_, ?_, ?_, fun hc => ?_, fun ht => ?_⟩⟩
  · exact congrArg Host.Outcome.next (runDerive_of_no_tree ht)
  · exact congrArg Host.Outcome.next (runUnpack_of_no_tree ht)
  · exact congrArg Host.Outcome.next (runPack_of_no_code hc)
  · exact congrArg Host.Outcome.next (runCollect_of_too_long hlong)
  · exact congrArg Host.Outcome.next (runEncode_of_too_long hlong)
  · exact congrArg Host.Outcome.next (runDecode_of_too_long hlong)
  · exact congrArg Host.Outcome.next (runPack_of_too_long hlong hc)
  · exact congrArg Host.Outcome.next (runUnpack_of_too_long hlong ht)

/-- Settles O32: no symbol is present, the case of `runBuild_of_empty`. -/
theorem buildEmptyAlphabet : Obligations.BuildEmptyAlphabet := by
  intro s h
  exact ⟨_, congrArg Host.Outcome.next (runBuild_of_empty ((present_eq_nil_iff s.freq).2 h)), rfl, rfl⟩

end Sys2Proof.Machine
end

section
/-! What a step does at the oldest event, and how a run with a pending command ends (70_reset_and_hazards.md R230, R240,
R241; log 1, log 2). -/

namespace Sys2Proof.Machine

theorem step_reset {s : State} {rest : List Event} (h : s.agenda = .reset :: rest) :
    step s = .next (State.externalReset { s with agenda := rest }) := by
  simp only [step, h]

/-- The engine step of any word leaves what the host owns (10_state.md R29, R45). -/
theorem runWord_hostPart {w : Word} {s t : State} (h : runWord w s = .next t) : t.hostPart = s.hostPart := by
  unfold runWord at h
  split at h
  · exact exec_hostPart h
  · cases h
    rfl

/-- With no event left, a step ends the pending command, and no event is added (70_reset_and_hazards.md R241; log 2). -/
theorem step_pending_no_event {s : State} {w : Word} (hs : s.seq = .pending w) (hag : s.agenda = []) :
    ∃ t, step s = .next t ∧ t.AtEnd ∧ t.agenda = [] := by
  obtain ⟨t, hrun, hend⟩ := runWord_atEnd w s
  have hengine : engineStep s = runWord w s := by simp only [engineStep, hs]
  obtain ⟨-, -, -, -, -, -, -, hagenda⟩ := (State.hostPart_eq_iff s t).1 (runWord_hostPart hrun)
  exact ⟨t, (step_no_event hag).trans (hengine.trans hrun), hend, hagenda.trans hag⟩

/-- A run whose first `n` steps answer a next state goes on from it. -/
theorem core_run_add {M : Host.Core} {n : Nat} {s t : M.State} (h : M.run n s = .next t) (k : Nat) :
    M.run (n + k) s = M.run k t := by
  induction n generalizing s with
  | zero =>
    cases h
    rw [Nat.zero_add]
  | succ n ih =>
    cases hstep : M.step s with
    | next u =>
      rw [core_run_succ hstep] at h
      rw [Nat.succ_add, core_run_succ hstep, ih h]
    | fault _ | refused _ => simp [Host.Core.run, hstep] at h

end Sys2Proof.Machine
end

section
/-! Register accesses while BUSY (70_reset_and_hazards.md R235, R236). -/

namespace Sys2Proof.Machine

/-- While BUSY a write to any register but CTRL and STATUS only sets IGNORED (70_reset_and_hazards.md R235). -/
theorem writeRegister_busy {s : State} (hs : s.seq ≠ .idle) {r : Reg} (hctrl : r ≠ .ctrl) (hstatus : r ≠ .status)
    (hreserved : r ≠ .reserved) (v : Word) : writeRegister s r v = { s with ignored := true } := by
  cases r with
  | ctrl | status | reserved => contradiction
  | cmd | inLen | bitCountLo | bitCountHi | freq _ => exact State.ifIdle_of_busy hs _
  | id | errCode | outLen | inCap | outCap | root | nodeCount | symCount | node _ _ | code _ _ => rfl

/-- CMD and the registers that hold a command's operands are aligned, inside REG, and none of the registers that a write
while BUSY reaches (70_reset_and_hazards.md R235). -/
theorem regAt_writable_idle_only {o : Nat}
    (h : o ∈ [0x0008, 0x0014, 0x0024, 0x0028] ∨ (o % 4 = 0 ∧ 0x0400 ≤ o ∧ o ≤ 0x07FC)) :
    o % 4 = 0 ∧ o < 0x8000 ∧ regAt o ≠ .ctrl ∧ regAt o ≠ .status ∧ regAt o ≠ .reserved := by
  rcases h with hfixed | ⟨ha, hge, hle⟩
  · revert o
    decide
  · rw [regAt_freq hge (by omega)]
    exact ⟨ha, by omega, nofun, nofun, nofun⟩

theorem eq_reserved_of_regAccess_eq_reserved {r : Reg} (h : regAccess r = .reserved) : r = .reserved := by
  cases r with
  | reserved => rfl
  | id | ctrl | cmd | status | errCode | inLen | outLen | inCap | outCap | bitCountLo | bitCountHi | root | nodeCount
  | symCount | freq _ | node _ _ | code _ _ => cases h

/-- While BUSY a read of a register that is drawn returns a fresh free value (70_reset_and_hazards.md R236; log 7). -/
theorem hostAccess_readReg_drawn {s : State} {o : Nat} (hs : s.seq ≠ .idle) (ha : o % 4 = 0) (hlt : o < 0x8000)
    (hd : drawnWhileBusy (regAt o) = true) :
    hostAccess s (.readReg 32 o) = { s with reads := Config.freeWord s.draws :: s.reads, draws := s.draws + 1 } := by
  simp only [hostAccess, hostReadReg, badRegAccess_eq_false ha hlt, readRegister, s.busy_eq_true_iff.2 hs, hd,
    Bool.and_self, Bool.false_eq_true, if_false, if_true, State.deliver, State.drawn]

/-- Where the registers lie that are drawn while BUSY (10_state.md R23, 70_reset_and_hazards.md R236). -/
theorem drawnWhileBusy_regAt {o : Nat} (h : o ∈ [0x0024, 0x0028, 0x002C, 0x0030, 0x0034] ∨ 0x0400 ≤ o ∧ o < 0x0800 ∨
    0x1000 ≤ o ∧ o < 0x3000 ∨ 0x4000 ≤ o ∧ o < 0x8000) : o < 0x8000 ∧ drawnWhileBusy (regAt o) = true := by
  rcases h with hfixed | ⟨hge, hlt⟩ | ⟨hge, hlt⟩ | ⟨hge, hlt⟩
  · revert o
    decide
  · rw [regAt_freq hge hlt]
    exact ⟨by omega, rfl⟩
  · rw [regAt_node hge hlt]
    exact ⟨by omega, rfl⟩
  · rw [regAt_code hge hlt]
    exact ⟨hlt, rfl⟩

end Sys2Proof.Machine
end

section
/-! The settlements of 70_reset_and_hazards.md. -/

namespace Sys2Proof.Machine

/-- Settles O9: the host accesses leave the command pending (`core_run_hosts_busy`), and the step after them ends it. -/
theorem acceptedCommandCompletes : Obligations.AcceptedCommandCompletes := by
  intro s w as hs hag
  obtain ⟨u, hrun, hrest, hpart⟩ := core_run_hosts_busy (ne_of_eq_of_ne hs nofun) (hag.trans (List.append_nil _).symm)
  obtain ⟨hseq, -⟩ := (State.commandPart_eq_iff s u).1 hpart
  obtain ⟨t, hstep, hend, hagenda⟩ := step_pending_no_event (hseq.trans hs) hrest
  obtain ⟨hdone, -⟩ := hend.report
  exact ⟨t, (core_run_add hrun 1).trans (core_run_succ (M := core) hstep 0), hend.idle, hdone, hagenda⟩

/-- Settles O12: only CTRL and STATUS are written while BUSY, as in `ctrlAndStatusWrites`. -/
theorem busyWrites : Obligations.BusyWrites := by
  intro s v b a o hs
  obtain ⟨hctrl, hstatus⟩ := ctrlAndStatusWrites s v
  refine ⟨fun ho => ?_, ?_, hctrl, hstatus, fun ha hlt hro => ?_, fun ha hlt hres => ?_⟩
  · obtain ⟨ha, hlt, hc, hst, hr⟩ := regAt_writable_idle_only ho
    rw [hostAccess_writeReg ha hlt, writeRegister_busy hs hc hst hr]
  · rcases Nat.lt_or_ge a s.inCap.toNat with hin | hout
    · rw [hostAccess_writeIn_inside hin, State.ifIdle_of_busy hs]
    · exact hostAccess_writeIn_outside hout b
  · rw [hostAccess_writeReg ha hlt, writeRegister_readOnly hro]
  · rw [hostAccess_writeReg ha hlt, eq_reserved_of_regAccess_eq_reserved hres]
    rfl

/-- Settles O21: the first eight registers are not drawn while BUSY, and those of `drawnWhileBusy_regAt` are. -/
theorem busyReads : Obligations.BusyReads := by
  intro s o a hs
  refine ⟨hostAccess_readReg_at (r := .id) rfl (.inr rfl), hostAccess_readReg_at (r := .ctrl) rfl (.inr rfl),
    hostAccess_readReg_at (r := .status) rfl (.inr rfl), fun herr => ?_,
    hostAccess_readReg_at (r := .inLen) rfl (.inr rfl), hostAccess_readReg_at (r := .outLen) rfl (.inr rfl),
    hostAccess_readReg_at (r := .inCap) rfl (.inr rfl), hostAccess_readReg_at (r := .outCap) rfl (.inr rfl),
    hostAccess_readIn_inside, fun ha ho => ?_⟩
  · rw [hostAccess_readReg_at (r := .errCode) rfl (.inr rfl), State.regValue, herr]
    rfl
  · obtain ⟨hlt, hd⟩ := drawnWhileBusy_regAt ho
    exact hostAccess_readReg_drawn hs ha hlt hd

/-- Settles O28: the step is `State.externalReset`, whatever `seq` was; the registers are those of
`State.regValue_resetWith`. -/
theorem resetEventResets : Obligations.ResetEventResets := by
  intro s rest h
  exact ⟨_, step_reset h, rfl, rfl, rfl,
    fun _ => State.regValue_resetWith s.inCap s.outCap s.draws (s.draws + 1) (s.draws + 2) s.reads rest, rfl, rfl,
    fun a => ⟨Memory.read_redraw s.draws a, Memory.read_redraw (s.draws + 1) a⟩, rfl, rfl⟩

end Sys2Proof.Machine
end
